-- ==== Sys2Proof/Word.lean ====
section
/-! DEFINITION. The words of the machine: bytes, 32-bit single-precision words, 64-bit addresses and
control words, and the two ways `00_scope.md` R9 and R10 take them apart and put them together. -/

namespace Sys2Proof

/-- A byte is 8 bits (R9). -/
abbrev Byte := BitVec 8

/-- A doubleword: 32 bits, the width of a single-precision value and of MXCSR (R9, R26). -/
abbrev Word32 := BitVec 32

/-- An address, a general register or a control register: 64 bits (R33, R44). -/
abbrev Word64 := BitVec 64

/-- A whole vector register at the widest `MAXVL` (R8, R18). -/
abbrev VWord := BitVec 512

/-- One bit written as a field of width 1, so that fields concatenate with `++` (R10). -/
abbrev Bit := BitVec 1

/-- The field of width 1 that holds a truth value. -/
def Bit.ofBool (b : Bool) : Bit := if b then 1#1 else 0#1

/-- Whether the one-bit field is set. -/
def Bit.toBool (b : Bit) : Bool := b == 1#1

@[simp] theorem Bit.toBool_ofBool (b : Bool) : (Bit.ofBool b).toBool = b := by
  cases b <;> rfl

@[simp] theorem Bit.ofBool_toBool (b : Bit) : Bit.ofBool b.toBool = b := by
  revert b; decide

end Sys2Proof
end

