-- ==== Sys2Proof/Config.lean ====
section
/-! DEFINITION. What an implementation fixes (`00_scope.md` R8, as plain data that a state carries and
no step changes) and the free values of the model (opaque constants: nothing can evaluate them). -/

namespace Sys2Proof

/-- `MAXVL`, the width of a vector register (R8, D1). -/
inductive VectorWidth where
  | w128 | w256 | w512
deriving DecidableEq, Repr

/-- The width in bits. -/
def VectorWidth.bits : VectorWidth → Nat
  | .w128 => 128
  | .w256 => 256
  | .w512 => 512

/-- `KW`, the width of an opmask register (R8, R22, D5). -/
inductive MaskWidth where
  | w16 | w64
deriving DecidableEq, Repr

/-- The width in bits. -/
def MaskWidth.bits : MaskWidth → Nat
  | .w16 => 16
  | .w64 => 64

/-- How many bits of a linear address are implemented (R44: "48 or 57"). -/
inductive LinearWidth where
  | w48 | w57
deriving DecidableEq, Repr

/-- `MASKED_FAULT_SUPPRESSION` (R8, R55, D15). -/
inductive MaskedFaults where
  /-- A masked-off memory form makes no access. -/
  | suppressed
  /-- A masked-off memory form whose operand is not readable may fault or may complete. -/
  | mayFault
deriving DecidableEq, Repr

/-- `PREFIXES_ADMITTED` (R8, R69, D19). -/
inductive PrefixPolicy where
  /-- The decoder refuses a sequence that begins with a legacy prefix. -/
  | none
  /-- Segment overrides and 67H are admitted, with the effects of R59. -/
  | segmentAndAddressSize
deriving DecidableEq, Repr

/-- The parameter `fmsub32` (R8, R125, D13): the arithmetic function. -/
inductive Arithmetic where
  /-- The default body, `40_numerics.md` R104 to R121 (`Machine.fmsub32`). -/
  | reference
  /-- Any other function an implementation gives, uninterpreted (`Config.givenFmsub32`; log 26). -/
  | given (n : Nat)
deriving DecidableEq, Repr

/-- The implementation parameters of R8 and the read-only properties of the processor of R37 and R40.
(`MODE`, `OS_AVX_ENABLED`, `OS_AVX512_ENABLED` and `AC_ENABLED` are computed from the control registers
that State holds, R36; `NVREG_VEX` and `NVREG_EVEX` are the widths of the register numbers, R73, R76.) -/
structure Config where
  maxvl : VectorWidth
  kw : MaskWidth
  linear : LinearWidth
  maskedFaults : MaskedFaults
  prefixes : PrefixPolicy
  fmsub32 : Arithmetic
  /-- CPUID.(EAX=01H):ECX, whose bit 12 is the flag `FMA` (R37). -/
  cpuid1Ecx : Word32
  /-- CPUID.(EAX=07H,ECX=0):EBX, whose bit 16 is the flag `AVX512F` (R37). -/
  cpuid7Ebx : Word32
  /-- The processor signature that RDX holds after RESET (R40). -/
  signature : Word32
deriving DecidableEq, Repr

/-- The defaults of R8. `linear` and `signature` have no default in the spec: assumption log 4 and 3. The
bits of the two CPUID words other than `FMA` (12) and `AVX512F` (16) have no value in the spec either
(R2, R37): that they are 0 here is a DESIGN CHOICE, log 27. -/
def Config.default : Config where
  maxvl := .w512
  kw := .w64
  linear := .w48
  maskedFaults := .mayFault
  prefixes := .none
  fmsub32 := .reference
  cpuid1Ecx := 0x00001000#32
  cpuid7Ebx := 0x00010000#32
  signature := 0x000806F0#32

/-- FREE VALUE (log 10). Whether a masked-off memory form whose operand is not readable faults, under
`MaskedFaults.mayFault` (R55, R140); applied to the state's draw counter. -/
opaque Config.freeMaskedFault : Nat → Bool

/-- FREE VALUE (log 11). Which further MXCSR flags accompany the flag of the trapping exception (R147);
applied to the state's draw counter. -/
opaque Config.freeTrapFlags : Nat → BitVec 6

/-- FREE VALUE (log 12). Which of two segment overrides that are both present, FS (64H) and GS (65H),
gives the segment base: true for GS; applied to the state's draw counter. -/
opaque Config.freeSegmentIsGs : Nat → Bool

end Sys2Proof
end

