-- ==== Sys2Proof/Machine/State.lean ====
section
/-! DEFINITION. The state of the machine (every piece of state the spec names, as plain data), the ways a
step stops, and the state after RESET. -/

namespace Sys2Proof.Machine

/-- A range of readable addresses, `base` to `base + size - 1` (R52). -/
structure Region where
  base : Nat
  size : Nat
deriving DecidableEq, Repr

/-- The state of one hardware thread. INVENTORY.md lists each field with its rule and its reset value. -/
structure State where
  /-- The implementation parameters; no step changes them (R8). -/
  cfg : Config
  /-- `V[0]`..`V[31]`, of which bits MAXVL-1:0 exist (R17, R18). -/
  v : Vector VWord 32
  /-- `K[0]`..`K[7]`, of which bits KW-1:0 exist (R22). -/
  k : Vector Word64 8
  /-- The SIMD control and status register (R26). -/
  mxcsr : Word32
  /-- RAX, RCX, RDX, RBX, RSP, RBP, RSI, RDI, R8..R15 (R33). -/
  gpr : Vector Word64 16
  /-- RIP: the address of the instruction's first byte (R34). -/
  pc : Word64
  /-- EFLAGS, of which VM and AC take part (R35, R36). -/
  eflags : Word32
  cr0 : Word64
  /-- Receives the faulting linear address of a page fault (R148; log 8). -/
  cr2 : Word64
  cr4 : Word64
  xcr0 : Word64
  /-- IA32_EFER (R36). -/
  efer : Word64
  /-- The current privilege level (R155, R163). -/
  cpl : BitVec 2
  /-- `CS.L`, which with LMA selects 64-bit mode (R36). -/
  csL : Bool
  csBase : Word64
  /-- The bases that 64H and 65H add (R38, R59). -/
  fsBase : Word64
  gsBase : Word64
  /-- The launch memory: bytes other than 00H, by rising address (R52; log 5). -/
  mem : List Host.Cell
  /-- The regions of which `Readable` holds (R52; log 6). -/
  readable : List Region
  /-- The program map: the instruction bytes, by rising address, apart from data (R47; log 7). -/
  code : List Host.Cell
  /-- The model's own: indexes the free values of Config (log 19). -/
  draws : Nat
deriving DecidableEq, Repr

/-- The exceptions an instruction in scope raises (R148, R157), with the recorded value as argument. -/
inductive ExceptionName where
  /-- `#UD`, invalid opcode. -/
  | ud
  /-- `#NM`, device not available. -/
  | nm
  /-- `#PF`, `#GP(0)` or `#SS(0)`, not told apart, at a linear address (R52, R154; log 8). -/
  | memFault (address : Word64)
  /-- `#AC(0)`, alignment check. -/
  | ac
  /-- `#XM`, SIMD floating-point exception. -/
  | xm
deriving DecidableEq, Repr

/-- Why the machine stops with a fault. A raised exception is terminal (R157). -/
inductive Fault where
  /-- Raised by an instruction, or by the decoder for an illegal form of one (R88 to R92). `after` is the
  state the exception leaves: the state before, but for MXCSR[5:0] on a SIMD exception (R147, R157,
  R158); its `pc` is the address of the faulting instruction. Safe: the run ends, and no handler is
  described (R160). -/
  | raised (exception : ExceptionName) (after : State)
  /-- Raised by the fetch when the program map holds no whole instruction at `pc`: the normal end of a
  run (R47, R172; log 7). Safe: nothing is claimed of what the processor does there. -/
  | stuck (final : State)
deriving DecidableEq, Repr

/-- What the model gives no meaning to. -/
inductive Refusal where
  /-- In `exec`, an instruction whose meaning is not written yet. Safe. No arm answers it. -/
  | notModelled (mnemonic : String)
  /-- From the fetch: the bytes at `pc` are no instruction of this spec (R87). Safe: nothing is claimed of
  what the processor does with them. -/
  | notInScope
  /-- From the fetch: a legacy prefix comes first and `PREFIXES_ADMITTED` is none (R69, D19). Safe. -/
  | legacyPrefix
  /-- From the fetch: the instruction would exceed 15 bytes (R84; log 16). Safe. -/
  | tooLong
  /-- From the fetch and from every meaning: the processor is in a 32-bit mode, which the spec leaves out
  (R85, R150, D2; log 17). Safe. -/
  | mode32
deriving DecidableEq, Repr

/-- The state after power-up or RESET of a processor with parameters `cfg` (R40; log 2 for the registers
R40 does not name, log 3 for RDX, logs 5 to 7 for the memory and the program). -/
def State.powerUp (cfg : Config) : State where
  cfg := cfg
  v := Vector.replicate 32 0#512
  k := Vector.replicate 8 0#64
  mxcsr := 0x00001F80#32
  gpr := (Vector.replicate 16 0#64).set 2 (cfg.signature.setWidth 64)
  pc := 0x0000FFF0#64
  eflags := 0x00000002#32
  cr0 := 0x60000010#64
  cr2 := 0#64
  cr4 := 0#64
  xcr0 := 1#64
  efer := 0#64
  cpl := 0#2
  csL := false
  csBase := 0xFFFF0000#64
  fsBase := 0#64
  gsBase := 0#64
  mem := []
  readable := [⟨0, 2 ^ 64⟩]
  code := []
  draws := 0

/-- The machine right after reset (R40). Every encoding is `#UD` in it (R41). -/
def State.reset : State := State.powerUp Config.default

end Sys2Proof.Machine
end

