-- ==== Sys2Proof/Machine/Flags.lean ====
section
/-! DEFINITION. MXCSR: its fields, the exception flags an instruction reports, and which exception traps
(`10_state.md` R26 to R31, `60_exceptions.md` R145 to R147). -/

namespace Sys2Proof.Machine

/-- The rounding modes of R30. -/
inductive RoundMode where
  | nearestEven | down | up | towardZero
deriving DecidableEq, Repr

/-- The 2-bit encoding of R30, shared by `MXCSR.RM` and `EVEX.RC`. -/
def RoundMode.ofBits (b : BitVec 2) : RoundMode :=
  if b = 0#2 then .nearestEven
  else if b = 1#2 then .down
  else if b = 2#2 then .up
  else .towardZero

/-- The SIMD floating-point exceptions these instructions detect (R143). -/
inductive FpException where
  | invalid | denormal | overflow | underflow | precision
deriving DecidableEq, Repr, Inhabited

/-- A set of flags among IE, DE, OE, UE, PE; ZE is never in it (R104, R122). -/
structure FpFlags where
  ie : Bool := false
  de : Bool := false
  oe : Bool := false
  ue : Bool := false
  pe : Bool := false
deriving DecidableEq, Repr, Inhabited

/-- The empty set of flags. -/
def FpFlags.none : FpFlags := {}

/-- The set as bits of MXCSR: IE 0, DE 1, OE 3, UE 4, PE 5 (R26). -/
def FpFlags.bits (f : FpFlags) : Word32 :=
  (Bit.ofBool f.pe ++ Bit.ofBool f.ue ++ Bit.ofBool f.oe ++ 0#1 ++ Bit.ofBool f.de
    ++ Bit.ofBool f.ie : BitVec 6).setWidth 32

/-- Whether the set holds the flag of an exception. -/
def FpFlags.has (f : FpFlags) : FpException → Bool
  | .invalid => f.ie
  | .denormal => f.de
  | .overflow => f.oe
  | .underflow => f.ue
  | .precision => f.pe

/-- The position of an exception's flag in MXCSR (R26). -/
def FpException.flagBit : FpException → Nat
  | .invalid => 0
  | .denormal => 1
  | .overflow => 3
  | .underflow => 4
  | .precision => 5

/-- The position of an exception's mask: flag position plus 7 (R26). -/
def FpException.maskBit (e : FpException) : Nat := e.flagBit + 7

/-- The exception is masked: its mask bit is 1 (R28). -/
def masked (mxcsr : Word32) (e : FpException) : Bool := mxcsr.getLsbD e.maskBit

/-- `MXCSR.DAZ`, denormals are zeros (R26). -/
def daz (mxcsr : Word32) : Bool := mxcsr.getLsbD 6

/-- `MXCSR.FTZ`, flush to zero (R26). -/
def ftz (mxcsr : Word32) : Bool := mxcsr.getLsbD 15

/-- `MXCSR.RM`, bits 14:13 (R30). -/
def mxcsrRound (mxcsr : Word32) : RoundMode := RoundMode.ofBits (mxcsr.extractLsb' 13 2)

/-- All five exceptions of R143 are masked. -/
def allMasked (mxcsr : Word32) : Bool :=
  masked mxcsr .invalid && masked mxcsr .denormal && masked mxcsr .overflow
    && masked mxcsr .underflow && masked mxcsr .precision

/-- The exception of `f` that is detected and unmasked, the first in the priority of R156: Invalid,
Denormal, Overflow, Underflow, Precision. -/
def firstUnmasked (mxcsr : Word32) (f : FpFlags) : Option FpException :=
  if f.ie && !masked mxcsr .invalid then some .invalid
  else if f.de && !masked mxcsr .denormal then some .denormal
  else if f.oe && !masked mxcsr .overflow then some .overflow
  else if f.ue && !masked mxcsr .underflow then some .underflow
  else if f.pe && !masked mxcsr .precision then some .precision
  else Option.none

/-- The masked response: `MXCSR[5:0] <- MXCSR[5:0] OR F` (R27, R119). -/
def orFlags (mxcsr : Word32) (f : FpFlags) : Word32 := mxcsr ||| f.bits

/-- MXCSR after a trap: the trapping flag and a drawn subset of the other four, never ZE (R147;
log 11). -/
def trapFlags (mxcsr : Word32) (cause : FpException) (drawn : BitVec 6) : Word32 :=
  mxcsr ||| BitVec.twoPow 32 cause.flagBit ||| (drawn &&& 0b111011#6).setWidth 32

end Sys2Proof.Machine
end

