-- ==== Sys2Proof/Machine/Fmsub.lean ====
section
/-! DEFINITION. The arithmetic of all six instructions: the function `FMSUB32` of `40_numerics.md`, in the
exact integers. A finite single-precision value is a multiple of 2^-149, so it is held as that multiple,
and a product or a difference of products as a multiple of 2^-298. -/

namespace Sys2Proof.Machine

/-! ### The format (R105, R106) -/

/-- The sign bit. -/
def sign (w : Word32) : Bool := w.getLsbD 31

/-- The biased exponent, bits 30:23. -/
def biasedExp (w : Word32) : BitVec 8 := w.extractLsb' 23 8

/-- The fraction, bits 22:0. -/
def fraction (w : Word32) : BitVec 23 := w.extractLsb' 0 23

def isZero (w : Word32) : Bool := biasedExp w == 0#8 && fraction w == 0#23
def isDenormal (w : Word32) : Bool := biasedExp w == 0#8 && fraction w != 0#23
def isInf (w : Word32) : Bool := biasedExp w == 255#8 && fraction w == 0#23
def isNaN (w : Word32) : Bool := biasedExp w == 255#8 && fraction w != 0#23

/-- A signalling NaN: a NaN with bit 22 clear. -/
def isSNaN (w : Word32) : Bool := isNaN w && !(w.getLsbD 22)

/-- Neither infinite nor a NaN. -/
def isFinite (w : Word32) : Bool := biasedExp w != 255#8

/-- `quiet(n)`: bit 22 set, all else unchanged (R106). -/
def quiet (w : Word32) : Word32 := w ||| 0x00400000#32

/-- The QNaN floating-point indefinite (R106). -/
def indefinite : Word32 := 0xFFC00000#32

/-- The zero of a sign. -/
def signedZero (s : Bool) : Word32 := Bit.ofBool s ++ 0#31

/-- The infinity of a sign. -/
def signedInf (s : Bool) : Word32 := Bit.ofBool s ++ 0x7F800000#31

/-- The largest finite magnitude with a sign (R105). -/
def signedMax (s : Bool) : Word32 := Bit.ofBool s ++ 0x7F7FFFFF#31

/-- The magnitude of a finite value, in units of 2^-149 (R105). -/
def magnitude (w : Word32) : Nat :=
  if biasedExp w = 0#8 then (fraction w).toNat
  else (2 ^ 23 + (fraction w).toNat) * 2 ^ ((biasedExp w).toNat - 1)

/-- `val(w) * 2^149` for a finite `w` (R105). -/
def scaled (w : Word32) : Int := if sign w then -(magnitude w : Int) else (magnitude w : Int)

/-- `(val(x) * val(y) - val(z)) * 2^298`: the exact value to be rounded (R101, R104 step 6). -/
def exactDiff (x y z : Word32) : Int := scaled x * scaled y - scaled z * 2 ^ 149

/-! ### Rounding (R115 to R118) -/

/-- `rint(num/den, rm, s)`: the quotient rounded to an integer in the mode `rm`, for a value of sign `s`
(R115). -/
def rint (num den : Nat) (rm : RoundMode) (s : Bool) : Nat :=
  let fl := num / den
  let rem := num % den
  if rem = 0 then fl
  else
    match rm with
    | .nearestEven => if den < 2 * rem ∨ (2 * rem = den ∧ fl % 2 = 1) then fl + 1 else fl
    | .down => if s then fl + 1 else fl
    | .up => if s then fl else fl + 1
    | .towardZero => fl

/-- The quotient is not an integer. -/
def inexactQuot (num den : Nat) : Bool := num % den != 0

/-- A value rounded to 24 significant bits with unbounded exponent: `m * 2^(e-23)` (R115). -/
structure Rounded where
  m : Nat
  e : Int
deriving DecidableEq, Repr

/-- `floor(log2 a)` for the magnitude `a` held in units of 2^-298 (R115). -/
def exponentOf (a : Nat) : Int := (Nat.log2 a : Int) - 298

/-- R115: round `q = a / 2^(E-23)` and renormalise. `a` is in units of 2^-298, so
`q = a * 2^23 / 2^(log2 a)`. -/
def round24 (a : Nat) (rm : RoundMode) (s : Bool) : Rounded :=
  let m := rint (a * 2 ^ 23) (2 ^ Nat.log2 a) rm s
  if m = 2 ^ 24 then ⟨2 ^ 23, exponentOf a + 1⟩ else ⟨m, exponentOf a⟩

/-- Rounding to 24 bits is inexact (R115). -/
def inexact24 (a : Nat) : Bool := inexactQuot (a * 2 ^ 23) (2 ^ Nat.log2 a)

/-- The masked result of an overflow (R116). -/
def overflowResult (rm : RoundMode) (s : Bool) : Word32 :=
  match rm with
  | .nearestEven => signedInf s
  | .down => if s then signedInf s else signedMax s
  | .up => if s then signedMax s else signedInf s
  | .towardZero => signedMax s

/-- The result of a tiny value, rounded again from the exact value to a multiple of 2^-149 (R117). -/
def denormalResult (a : Nat) (rm : RoundMode) (s : Bool) : Word32 :=
  Bit.ofBool s ++ BitVec.ofNat 31 (rint a (2 ^ 149) rm s)

/-- The result of a value in the normal range (R115). -/
def normalResult (p : Rounded) (s : Bool) : Word32 :=
  Bit.ofBool s ++ BitVec.ofNat 8 (p.e + 127).toNat ++ BitVec.ofNat 23 p.m

/-- Step 8: a non-zero exact value `v` (in units of 2^-298) rounded, and the exceptions detected. `um` is
"the underflow exception is masked" (R124); when it is not, UE is detected on every tiny result and FTZ is
ignored (R118, R120). -/
def roundValue (v : Int) (rm : RoundMode) (ftz um : Bool) : Word32 × FpFlags :=
  let s := decide (v < 0)
  let a := v.natAbs
  let p := round24 a rm s
  if 127 < p.e then (overflowResult rm s, { oe := true, pe := true })
  else if p.e < -126 then
    if ftz && um then (signedZero s, { ue := true, pe := true })
    else
      let inexact := inexactQuot a (2 ^ 149)
      (denormalResult a rm s, { ue := inexact || !um, pe := inexact })
  else (normalResult p s, { pe := inexact24 a })

/-! ### The function (R104, R124) -/

/-- Step 1: with DAZ a denormal is read as the zero of its sign (R107). -/
def dazOperand (daz : Bool) (w : Word32) : Word32 :=
  if daz && isDenormal w then w &&& 0x80000000#32 else w

/-- The first NaN in the order multiplicand, multiplier, subtrahend (R109). -/
def firstNaN (x y z : Word32) : Word32 :=
  if isNaN x then x else if isNaN y then y else z

/-- R110: infinity times zero. -/
def infTimesZero (x y : Word32) : Bool := (isInf x && isZero y) || (isZero x && isInf y)

/-- The sign of the product. -/
def productSign (x y : Word32) : Bool := sign x ^^ sign y

/-- The product is infinite (R111, R113). -/
def productInf (x y : Word32) : Bool := isInf x || isInf y

/-- The zero that an exact zero delivers when its sign is not that of two like zeros (R114). -/
def cancelledZero (rm : RoundMode) : Word32 := signedZero (rm == .down)

/-- Steps 2 to 8 on operands after DAZ: the result and the exceptions detected (R108 to R118, R124). -/
def fmsubCore (x y z : Word32) (rm : RoundMode) (ftz um : Bool) : Word32 × FpFlags :=
  if isNaN x || isNaN y || isNaN z then
    (quiet (firstNaN x y z), { ie := isSNaN x || isSNaN y || isSNaN z })
  else if infTimesZero x y then (indefinite, { ie := true })
  else if productInf x y && isInf z && (productSign x y == sign z) then
    (indefinite, { ie := true })
  else
    let de := isDenormal x || isDenormal y || isDenormal z
    if productInf x y then (signedInf (productSign x y), { de := de })
    else if isInf z then (signedInf (!(sign z)), { de := de })
    else
      let v := exactDiff x y z
      if v = 0 then
        if (isZero x || isZero y) && (productSign x y == !(sign z)) then
          (signedZero (productSign x y), { de := de })
        else (cancelledZero rm, { de := de })
      else
        let out := roundValue v rm ftz um
        (out.1, { out.2 with de := de })

/-- What `FMSUB32` returns (R104). -/
inductive FmsubOut where
  /-- `Result(r, F)`. -/
  | result (r : Word32) (f : FpFlags)
  /-- `Trap(F')`; `cause` is the flag of the exception that causes the trap. The companion flags of `F'`
  are drawn where MXCSR is written (R147). -/
  | trap (cause : FpException)
deriving DecidableEq, Repr, Inhabited

/-- Step 9: masks and `sae` decide between Result and Trap (R119, R120, R121). -/
def respond (mxcsr : Word32) (sae : Bool) (p : Word32 × FpFlags) : FmsubOut :=
  if sae then .result p.1 FpFlags.none
  else
    match firstUnmasked mxcsr p.2 with
    | some cause => .trap cause
    | none => .result p.1 p.2

/-- `FMSUB32(x, y, z, rm, MXCSR, sae)` (R104). -/
def fmsub32 (x y z : Word32) (rm : RoundMode) (mxcsr : Word32) (sae : Bool) : FmsubOut :=
  let dz := daz mxcsr
  respond mxcsr sae
    (fmsubCore (dazOperand dz x) (dazOperand dz y) (dazOperand dz z) rm (ftz mxcsr)
      (masked mxcsr .underflow || sae))

end Sys2Proof.Machine

/-- FREE VALUE (log 26). The arithmetic functions an implementation may give in place of the default body,
numbered: arguments as those of `fmsub32` (R8, R104, R125). -/
opaque Sys2Proof.Config.givenFmsub32 :
    Nat → Sys2Proof.Word32 → Sys2Proof.Word32 → Sys2Proof.Word32 → Sys2Proof.Machine.RoundMode →
      Sys2Proof.Word32 → Bool → Sys2Proof.Machine.FmsubOut

namespace Sys2Proof.Machine

/-- The parameter `fmsub32` applied: the default body, or the function the implementation gives (R8, D13). -/
def arithmetic (a : Arithmetic) (x y z : Word32) (rm : RoundMode) (mxcsr : Word32) (sae : Bool) :
    FmsubOut :=
  match a with
  | .reference => fmsub32 x y z rm mxcsr sae
  | .given n => Config.givenFmsub32 n x y z rm mxcsr sae

end Sys2Proof.Machine
end

