-- ==== Sys2Proof/Machine/Ops.lean ====
section
/-! DEFINITION. The named operations over registers, memory and the program map; the enabling bits and the
mode; raising an exception; completing an instruction; RESET, INIT and launch. -/

namespace Sys2Proof.Machine

/-! ### Cells: (address, byte) pairs by strictly rising address -/

/-- The byte listed at an address. -/
def cellAt : List Host.Cell → Nat → Option Byte
  | [], _ => none
  | (b, x) :: cs, a => if b = a then some x else cellAt cs a

/-- List a byte at an address, in place of what was listed there. -/
def putCell : List Host.Cell → Nat → Byte → List Host.Cell
  | [], a, x => [(a, x)]
  | (b, y) :: cs, a, x =>
    if a < b then (a, x) :: (b, y) :: cs
    else if a = b then (a, x) :: cs
    else (b, y) :: putCell cs a x

/-- List nothing at an address. -/
def dropCell : List Host.Cell → Nat → List Host.Cell
  | [], _ => []
  | (b, y) :: cs, a => if b = a then cs else (b, y) :: dropCell cs a

/-- Every listed address is above `lo`, and they rise strictly. -/
def risingFrom : Nat → List Host.Cell → Bool
  | _, [] => true
  | lo, (a, _) :: cs => decide (lo ≤ a) && risingFrom (a + 1) cs

/-- The listed addresses rise strictly. -/
def rising (cs : List Host.Cell) : Bool := risingFrom 0 cs

/-! ### The data memory (R44, R50, R52) -/

/-- What a byte of memory that nothing has written reads as (log 5). -/
def unwrittenByte : Byte := 0#8

/-- The byte at an address. -/
def Memory.read (m : List Host.Cell) (a : Nat) : Byte := (cellAt m a).getD unwrittenByte

/-- Write the byte at an address, keeping the canonical form. No instruction in scope does (R12, R46). -/
def Memory.write (m : List Host.Cell) (a : Nat) (x : Byte) : List Host.Cell :=
  if x = unwrittenByte then dropCell m a else putCell m a x

/-- The canonical form: addresses rise strictly, and no entry is what an unlisted address reads as. -/
def Memory.wf (m : List Host.Cell) : Bool := rising m && m.all fun c => c.2 != unwrittenByte

/-- The address is one that a linear address of the implemented width can be: its upper bits are a sign
extension (R44). -/
def canonical (w : LinearWidth) (a : Word64) : Bool :=
  match w with
  | .w48 => a.extractLsb' 47 17 == 0#17 || a.extractLsb' 47 17 == BitVec.allOnes 17
  | .w57 => a.extractLsb' 56 8 == 0#8 || a.extractLsb' 56 8 == BitVec.allOnes 8

/-- The region holds the address. -/
def Region.holds (r : Region) (a : Nat) : Bool := decide (r.base ≤ a) && decide (a < r.base + r.size)

/-- One byte can be read (R52; logs 4 and 6). -/
def State.byteReadable (s : State) (a : Word64) : Bool :=
  canonical s.cfg.linear a && s.readable.any (·.holds a.toNat)

/-- `Readable(a, n)` (R52): every byte of the access can be read; addresses are modulo 2^64 (R10). -/
def State.canRead (s : State) (a : Word64) (n : Nat) : Bool :=
  (List.range n).all fun i => s.byteReadable (a + BitVec.ofNat 64 i)

/-- The byte of memory at an address. -/
def State.memByte (s : State) (a : Word64) : Byte := Memory.read s.mem a.toNat

/-- The four bytes of a little-endian doubleword (R50). -/
def State.dwordAt (s : State) (a : Word64) : Word32 :=
  s.memByte (a + 3#64) ++ s.memByte (a + 2#64) ++ s.memByte (a + 1#64) ++ s.memByte a

/-- `MemRead(a, 4)`, the one access width in scope (R12, R48, R49, R52). -/
def State.memRead4 (s : State) (a : Word64) : Except ExceptionName Word32 :=
  if s.canRead a 4 then .ok (s.dwordAt a) else .error (.memFault a)

/-! ### Registers (R11, R17, R22, R33) -/

/-- `V[i]`. -/
def State.vreg (s : State) (i : BitVec 5) : VWord := s.v[i.toNat]'(i.isLt)

/-- `V[i][31:0]`. -/
def State.low32 (s : State) (i : BitVec 5) : Word32 := (s.vreg i).extractLsb' 0 32

/-- `K[i]`. -/
def State.opmask (s : State) (i : BitVec 3) : Word64 := s.k[i.toNat]'(i.isLt)

/-- `GPR[i]`. -/
def State.gprAt (s : State) (i : BitVec 4) : Word64 := s.gpr[i.toNat]'(i.isLt)

/-- The write of R21 to a vector register that held `old`: bits 31:0 become `r`, bits 127:32 stay, bits
MAXVL-1:128 become 0. Bits from MAXVL on do not exist and are left as they are (log 18). -/
def writeLow32 (w : VectorWidth) (old : VWord) (r : Word32) : VWord :=
  match w with
  | .w128 => old.extractLsb' 128 384 ++ old.extractLsb' 32 96 ++ r
  | .w256 => old.extractLsb' 256 256 ++ 0#128 ++ old.extractLsb' 32 96 ++ r
  | .w512 => 0#384 ++ old.extractLsb' 32 96 ++ r

/-! ### Mode and enabling bits (R36, R37, R150, R155) -/

/-- The modes that R36 and R150 tell apart. -/
inductive Mode where
  | real | virtual8086 | bits32 | bits64
deriving DecidableEq, Repr

/-- The mode: CR0.PE, EFLAGS.VM, and IA32_EFER.LMA with CS.L (R36, R150; log 17). -/
def State.mode (s : State) : Mode :=
  if !(s.cr0.getLsbD 0) then .real
  else if s.eflags.getLsbD 17 then .virtual8086
  else if s.efer.getLsbD 10 && s.csL then .bits64
  else .bits32

/-- `HAS_FMA` (R8, R37). -/
def State.hasFma (s : State) : Bool := s.cfg.cpuid1Ecx.getLsbD 12

/-- `HAS_AVX512F` (R8, R37). -/
def State.hasAvx512f (s : State) : Bool := s.cfg.cpuid7Ebx.getLsbD 16

/-- `OS_AVX_ENABLED`: CR4.OSXSAVE = 1 and XCR0[2:1] = 11b (R36). -/
def State.osAvxEnabled (s : State) : Bool := s.cr4.getLsbD 18 && s.xcr0.extractLsb' 1 2 == 3#2

/-- `OS_AVX512_ENABLED`: OS_AVX_ENABLED and XCR0[7:5] = 111b (R36). -/
def State.osAvx512Enabled (s : State) : Bool := s.osAvxEnabled && s.xcr0.extractLsb' 5 3 == 7#3

/-- `CR0.TS` (R36, R153). -/
def State.taskSwitched (s : State) : Bool := s.cr0.getLsbD 3

/-- `CR4.OSXMMEXCPT` (R36, R146). -/
def State.osXmmExcpt (s : State) : Bool := s.cr4.getLsbD 10

/-- `AC_ENABLED`: CR0.AM = 1, EFLAGS.AC = 1 and CPL = 3 (R8, R155). -/
def State.acEnabled (s : State) : Bool := s.cr0.getLsbD 18 && s.eflags.getLsbD 18 && s.cpl == 3#2

/-- A VEX encoded version is recognised and enabled: R149 rows 1, 2, 3 and 5 do not apply. -/
def State.vexEnabled (s : State) : Bool := s.hasFma && s.osAvxEnabled && s.mode == .bits64

/-- An EVEX encoded version is recognised and enabled: R149 rows 1 to 5 do not apply. -/
def State.evexEnabled (s : State) : Bool :=
  s.hasAvx512f && s.osAvx512Enabled && s.mode == .bits64

/-! ### Exceptions (R13, R146, R147, R157, R158) -/

/-- RAISING AN EXCEPTION: a terminal outcome with the exception's name and the state it leaves; no
register is written and `pc` stays at the instruction (R157, R158). -/
def raise (e : ExceptionName) (s : State) : Host.Outcome State Fault Refusal :=
  .fault (.raised e s)

/-- The state that an unmasked SIMD floating-point exception leaves: the MXCSR flags of R147, all else
as before. -/
def State.withTrapFlags (s : State) (cause : FpException) : State :=
  { s with mxcsr := trapFlags s.mxcsr cause (Config.freeTrapFlags s.draws) }

/-- The unmasked response: `#XM` if CR4.OSXMMEXCPT = 1, else `#UD` (R146; log 13 for MXCSR). -/
def raiseSimd (cause : FpException) (s : State) : Host.Outcome State Fault Refusal :=
  raise (if s.osXmmExcpt then .xm else .ud) (s.withTrapFlags cause)

/-- The column "error code" of R148. -/
inductive ErrorCode where
  /-- The exception delivers no error code. -/
  | none
  /-- The error code 0. -/
  | zero
  /-- The fault code of a page fault: bit 0 P, bit 1 W/R, bit 2 U/S, bit 3 RSVD, bit 5 PK. -/
  | pageFault
deriving DecidableEq, Repr

/-- The error codes a row of R148 admits. Of a page fault's code R148 fixes bit 1, which is 0 because the
access is a read; the other bits depend on a translation that is not modelled. -/
def ErrorCode.admits : ErrorCode → Option Word32 → Bool
  | .none, code => code.isNone
  | .zero, code => code == some 0#32
  | .pageFault, code => code.any fun c => !(c.getLsbD 1)

/-- The column "value recorded" of R148. -/
inductive Recorded where
  | nothing
  /-- CR2 receives the faulting linear address (log 8). -/
  | faultAddress
  /-- The cause is read from MXCSR[5:0] and the masks. -/
  | mxcsrFlags
deriving DecidableEq, Repr

/-- A row of the table of R148. -/
structure ExceptionRow where
  mnemonic : String
  vector : Nat
  name : String
  errorCode : ErrorCode
  recorded : Recorded
deriving DecidableEq, Repr

/-- The rows of R148 that an exception of the model stands for: one, but for MemFault, which stands for
`#SS(0)`, `#GP(0)` or `#PF` (R52, R154). -/
def ExceptionName.rows : ExceptionName → List ExceptionRow
  | .ud => [⟨"#UD", 6, "invalid opcode", .none, .nothing⟩]
  | .nm => [⟨"#NM", 7, "device not available", .none, .nothing⟩]
  | .memFault _ =>
    [⟨"#SS(0)", 12, "stack-segment fault", .zero, .nothing⟩,
      ⟨"#GP(0)", 13, "general protection", .zero, .nothing⟩,
      ⟨"#PF(code)", 14, "page fault", .pageFault, .faultAddress⟩]
  | .ac => [⟨"#AC(0)", 17, "alignment check", .zero, .nothing⟩]
  | .xm => [⟨"#XM", 19, "SIMD floating-point exception", .none, .mxcsrFlags⟩]

/-- The vector numbers an exception stands for (R148). -/
def ExceptionName.vectors (e : ExceptionName) : List Nat := e.rows.map (·.vector)

/-! ### Completing an instruction (R21, R27, R34) -/

/-- Step 7 of R126 and step 5 of R132: write `r` to the low doubleword of `V[d]` as R21 says, OR the flags
into MXCSR, and advance `pc` by the length. The draw counter advances (log 19). -/
def State.complete (s : State) (d : BitVec 5) (r : Word32) (f : FpFlags) (len : Nat) : State :=
  { s with
    v := s.v.set d.toNat (writeLow32 s.cfg.maxvl (s.vreg d) r) d.isLt
    mxcsr := orFlags s.mxcsr f
    pc := s.pc + BitVec.ofNat 64 len
    draws := s.draws + 1 }

/-- The end of an instruction whose arithmetic gave `out`: it completes, or it raises the SIMD
floating-point exception with nothing else written (R126 steps 6 and 7, R132). -/
def deliver (d : BitVec 5) (len : Nat) (out : FmsubOut) (s : State) :
    Host.Outcome State Fault Refusal :=
  match out with
  | .result r f => .next (s.complete d r f len)
  | .trap cause => raiseSimd cause s

/-! ### INIT, launch and loading -/

/-- The state after an INIT: as after RESET, but the vector registers, the opmask registers, MXCSR and
XCR0 keep their values (R40); the memory and the program are outside the processor (log 21). -/
def State.afterInit (s : State) : State :=
  { State.powerUp s.cfg with
    v := s.v
    k := s.k
    mxcsr := s.mxcsr
    xcr0 := s.xcr0
    mem := s.mem
    readable := s.readable
    code := s.code
    draws := s.draws }

/-- The control bits that the software of R167 steps 1, 4 and 5 and of step 3 (OSXSAVE) leaves: 64-bit
mode, AVX and AVX-512 state enabled, CR0.TS clear (R36, R42, R168; log 1). -/
def State.launch (s : State) : State :=
  { s with
    cr0 := (s.cr0 ||| BitVec.twoPow 64 0) &&& ~~~ BitVec.twoPow 64 3
    cr4 := s.cr4 ||| BitVec.twoPow 64 18
    xcr0 := s.xcr0 ||| 0xE6#64
    eflags := s.eflags &&& ~~~ BitVec.twoPow 32 17
    efer := s.efer ||| BitVec.twoPow 64 10
    csL := true }

/-- Put bytes into the program map at an address and the ones after it (R47). -/
def placeCode (code : List Host.Cell) (a : Word64) : List Byte → List Host.Cell
  | [] => code
  | b :: bs => placeCode (putCell code a.toNat b) (a + 1#64) bs

/-- Put bytes into the data memory at an address and the ones after it (R12). -/
def placeData (mem : List Host.Cell) (a : Word64) : List Byte → List Host.Cell
  | [] => mem
  | b :: bs => placeData (Memory.write mem a.toNat b) (a + 1#64) bs

end Sys2Proof.Machine
end

