-- ==== Sys2Proof/Syntax.lean ====
section
/-! DEFINITION. The instructions: one constructor per row of `opcode_table.json`, with operands that keep
every bit of the encoding, the ignored ones too, so that the encoder is the decoder's inverse. -/

namespace Sys2Proof

/-- A legacy prefix that may stand before a VEX or EVEX prefix (R69). -/
inductive LegacyPrefix where
  | es | cs | ss | ds | fs | gs | addressSize
deriving DecidableEq, Repr

/-- A displacement that follows ModRM or SIB (R78). -/
inductive Disp where
  | none
  | d8 (d : Byte)
  | d32 (d : Word32)
deriving DecidableEq, Repr

/-- The `m32` operand, one constructor per line of R56. Arguments called `ignored` are prefix extension
bits (un-inverted) that the form does not use. -/
inductive MemOperand where
  /-- mod = 00b, rm = 101b: RIP-relative (R57). -/
  | ripRel (xIgnored bIgnored : Bit) (disp : Word32)
  /-- No SIB byte: `GPR[B:rm] + disp`; rm is not 100b, and mod = 00b does not go with rm = 101b. -/
  | base (xIgnored : Bit) (reg : BitVec 4) (disp : Disp)
  /-- SIB with a base register; index 4 means no index. -/
  | sib (scale : BitVec 2) (index : BitVec 4) (base : BitVec 4) (disp : Disp)
  /-- SIB with base = 101b and mod = 00b: no base register, a 32-bit displacement. -/
  | sibNoBase (scale : BitVec 2) (index : BitVec 4) (bIgnored : Bit) (disp : Word32)
deriving DecidableEq, Repr

/-- Operand 3 of a VEX encoded version (R73, R77). -/
inductive VexSrc3 where
  | reg (xIgnored : Bit) (n : BitVec 4)
  | mem (m : MemOperand)
deriving DecidableEq, Repr

/-- Operand 3 of an EVEX encoded version (R76, R77). -/
inductive EvexSrc3 where
  | reg (n : BitVec 5)
  | mem (m : MemOperand)
deriving DecidableEq, Repr

/-- The operands of a VEX encoded version (R70, R73, R79). -/
structure VexOperands where
  /-- Admitted legacy prefixes, in address order (R69). -/
  prefixes : List LegacyPrefix
  /-- Operand 1, `DEST`. -/
  d : BitVec 4
  /-- Operand 2, `SRC2`. -/
  s2 : BitVec 4
  /-- Operand 3, `SRC3`. -/
  src3 : VexSrc3
  /-- `VEX.L`, ignored (R81). -/
  l : Bit
deriving DecidableEq, Repr

/-- The operands of an EVEX encoded version (R74, R76, R79). -/
structure EvexOperands where
  /-- Admitted legacy prefixes, in address order (R69). -/
  prefixes : List LegacyPrefix
  /-- Operand 1, `DEST`. -/
  d : BitVec 5
  /-- Operand 2, `SRC2`. -/
  s2 : BitVec 5
  /-- Operand 3, `SRC3`. -/
  src3 : EvexSrc3
  /-- `EVEX.aaa`: the writemask register; 0 means no writemask (R24). -/
  aaa : BitVec 3
  /-- `EVEX.z`: zeroing-masking when set, merging-masking when clear (R133). -/
  z : Bool
  /-- `EVEX.b`: embedded rounding control in the register form (R74). -/
  b : Bool
  /-- `EVEX.L'L`, which is `EVEX.RC` when `b` is set in the register form (R74, R81). -/
  ll : BitVec 2
deriving DecidableEq, Repr

/-- The six encodings of R66, in its order. -/
inductive Instr where
  /-- `VEX.DDS.LIG.66.0F38.W0 9B /r` (R127). -/
  | vfmsub132ssVex (o : VexOperands)
  /-- `VEX.DDS.LIG.66.0F38.W0 AB /r` (R128). -/
  | vfmsub213ssVex (o : VexOperands)
  /-- `VEX.DDS.LIG.66.0F38.W0 BB /r` (R129). -/
  | vfmsub231ssVex (o : VexOperands)
  /-- `EVEX.DDS.LIG.66.0F38.W0 9B /r` (R136). -/
  | vfmsub132ssEvex (o : EvexOperands)
  /-- `EVEX.DDS.LIG.66.0F38.W0 AB /r` (R137). -/
  | vfmsub213ssEvex (o : EvexOperands)
  /-- `EVEX.DDS.LIG.66.0F38.W0 BB /r` (R138). -/
  | vfmsub231ssEvex (o : EvexOperands)
deriving DecidableEq, Repr

/-- The three mnemonics, named by which operands are multiplicand, multiplier and subtrahend (R16). -/
inductive Form where
  | f132 | f213 | f231
deriving DecidableEq, Repr

/-- The VEX encoded version of a form. -/
def Form.vex : Form → VexOperands → Instr
  | .f132 => .vfmsub132ssVex
  | .f213 => .vfmsub213ssVex
  | .f231 => .vfmsub231ssVex

/-- The EVEX encoded version of a form. -/
def Form.evex : Form → EvexOperands → Instr
  | .f132 => .vfmsub132ssEvex
  | .f213 => .vfmsub213ssEvex
  | .f231 => .vfmsub231ssEvex

/-- Bytes of a displacement (R78). -/
def Disp.length : Disp → Nat
  | .none => 0
  | .d8 _ => 1
  | .d32 _ => 4

/-- Bytes after ModRM: the SIB byte, if there is one, and the displacement (R78). -/
def MemOperand.tailLength : MemOperand → Nat
  | .ripRel _ _ _ => 4
  | .base _ _ d => d.length
  | .sib _ _ _ d => 1 + d.length
  | .sibNoBase _ _ _ _ => 5

/-- Bytes after ModRM. -/
def VexSrc3.tailLength : VexSrc3 → Nat
  | .reg _ _ => 0
  | .mem m => m.tailLength

/-- Bytes after ModRM. -/
def EvexSrc3.tailLength : EvexSrc3 → Nat
  | .reg _ => 0
  | .mem m => m.tailLength

/-- The length in bytes, legacy prefixes included (R84): prefix of 3 bytes, opcode, ModRM, tail. -/
def VexOperands.length (o : VexOperands) : Nat :=
  o.prefixes.length + (5 + o.src3.tailLength)

/-- The length in bytes, legacy prefixes included (R84): prefix of 4 bytes, opcode, ModRM, tail. -/
def EvexOperands.length (o : EvexOperands) : Nat :=
  o.prefixes.length + (6 + o.src3.tailLength)

/-- The length in bytes of the whole instruction (R84). -/
def Instr.length : Instr → Nat
  | .vfmsub132ssVex o => o.length
  | .vfmsub213ssVex o => o.length
  | .vfmsub231ssVex o => o.length
  | .vfmsub132ssEvex o => o.length
  | .vfmsub213ssEvex o => o.length
  | .vfmsub231ssEvex o => o.length

/-- The legacy prefixes of an instruction. -/
def Instr.prefixes : Instr → List LegacyPrefix
  | .vfmsub132ssVex o => o.prefixes
  | .vfmsub213ssVex o => o.prefixes
  | .vfmsub231ssVex o => o.prefixes
  | .vfmsub132ssEvex o => o.prefixes
  | .vfmsub213ssEvex o => o.prefixes
  | .vfmsub231ssEvex o => o.prefixes

end Sys2Proof
end

