-- ==== Sys2Proof/WellFormed.lean ====
section
/-! DEFINITION. Which terms of `Instr` an encoding stands for: each check cites the rule that makes the
others impossible or illegal. -/

namespace Sys2Proof

/-- The low three bits of a register number, the ones ModRM or SIB holds. -/
def low3 (n : BitVec 4) : BitVec 3 := n.extractLsb' 0 3

/-- The extension bit of a register number, the one a VEX or EVEX field holds. -/
def high1 (n : BitVec 4) : Bit := n.extractLsb' 3 1

/-- A base register whose low bits are 101b needs a displacement: with mod = 00b the encoding is another
form (R56, R78). -/
def baseHasDisp (reg : BitVec 4) (disp : Disp) : Bool :=
  low3 reg != 5#3 || disp != .none

/-- Rules R56, R77 and R78 on a memory operand: rm = 100b is the SIB escape, and the base check above. -/
def MemOperand.wf : MemOperand → Bool
  | .ripRel _ _ _ => true
  | .base _ reg disp => low3 reg != 4#3 && baseHasDisp reg disp
  | .sib _ _ breg disp => baseHasDisp breg disp
  | .sibNoBase _ _ _ _ => true

/-- The memory operand, if there is one, is well formed. -/
def VexSrc3.wf : VexSrc3 → Bool
  | .reg _ _ => true
  | .mem m => m.wf

/-- The memory operand, if there is one, is well formed. -/
def EvexSrc3.wf : EvexSrc3 → Bool
  | .reg _ => true
  | .mem m => m.wf

/-- The register form of operand 3 (mod = 11b, R77). -/
def EvexSrc3.isReg : EvexSrc3 → Bool
  | .reg _ => true
  | .mem _ => false

/-- R90: zeroing-masking without a writemask. -/
def EvexOperands.illegalMasking (o : EvexOperands) : Bool := o.z && o.aaa == 0#3

/-- R91: `EVEX.b` = 1 with a memory third operand. -/
def EvexOperands.illegalBroadcast (o : EvexOperands) : Bool := o.b && !o.src3.isReg

/-- R92: `L'L` = 11b where it is a vector length. -/
def EvexOperands.illegalLength (o : EvexOperands) : Bool :=
  o.ll == 3#2 && !(o.b && o.src3.isReg)

/-- An EVEX field combination of R90, R91 or R92. -/
def EvexOperands.illegal (o : EvexOperands) : Bool :=
  o.illegalMasking || o.illegalBroadcast || o.illegalLength

/-- No instruction may exceed 15 bytes (R84). -/
def maxLength : Nat := 15

/-- A well-formed VEX encoded version. -/
def VexOperands.wf (o : VexOperands) : Bool :=
  o.src3.wf && decide (o.length ≤ maxLength)

/-- A well-formed EVEX encoded version: legal in the sense of R90 to R92 too. -/
def EvexOperands.wf (o : EvexOperands) : Bool :=
  o.src3.wf && !o.illegal && decide (o.length ≤ maxLength)

/-- The well-formed instructions: those that some byte sequence encodes legally. -/
def Instr.wf : Instr → Bool
  | .vfmsub132ssVex o => o.wf
  | .vfmsub213ssVex o => o.wf
  | .vfmsub231ssVex o => o.wf
  | .vfmsub132ssEvex o => o.wf
  | .vfmsub213ssEvex o => o.wf
  | .vfmsub231ssEvex o => o.wf

end Sys2Proof
end

