-- ==== Sys2Proof/Machine/Operands.lean ====
section
/-! DEFINITION. Every operand form: the effective address of `m32`, the segment and the address size, the
value of operand 3 (`20_memory.md` R45 to R59, `60_exceptions.md` R154, R155). -/

namespace Sys2Proof.Machine

/-- A displacement as a 64-bit number: an 8-bit one is multiplied by `n8` (R56, R58, R80). -/
def dispValue (n8 : Nat) : Disp → Word64
  | .none => 0#64
  | .d8 d => d.signExtend 64 * BitVec.ofNat 64 n8
  | .d32 d => d.signExtend 64

/-- The index term: `GPR[X:index] * 2^scale`, and 0 for index 4, which means no index (R56). -/
def State.indexTerm (s : State) (scale : BitVec 2) (index : BitVec 4) : Word64 :=
  if index = 4#4 then 0#64 else s.gprAt index * BitVec.ofNat 64 (2 ^ scale.toNat)

/-- The sum of R56, modulo 2^64; `nextPc` is the address after the instruction (R57). -/
def State.addressSum (s : State) (n8 : Nat) (nextPc : Word64) : MemOperand → Word64
  | .ripRel _ _ d => nextPc + d.signExtend 64
  | .base _ reg d => s.gprAt reg + dispValue n8 d
  | .sib scale index breg d => s.gprAt breg + s.indexTerm scale index + dispValue n8 d
  | .sibNoBase scale index _ d => s.indexTerm scale index + d.signExtend 64

/-- The effective address: with 67H the sum is computed in 32 bits and zero-extended (R59). -/
def State.effectiveAddress (s : State) (prefixes : List LegacyPrefix) (n8 : Nat) (nextPc : Word64)
    (m : MemOperand) : Word64 :=
  let sum := s.addressSum n8 nextPc m
  if prefixes.contains .addressSize then (sum.setWidth 32).setWidth 64 else sum

/-- The segment base: 0 unless 64H (FS) or 65H (GS) is present (R38, R59); a free value picks between the
two when both are (log 12). -/
def State.segmentBase (s : State) (prefixes : List LegacyPrefix) : Word64 :=
  match prefixes.contains .fs, prefixes.contains .gs with
  | false, false => 0#64
  | true, false => s.fsBase
  | false, true => s.gsBase
  | true, true => if Config.freeSegmentIsGs s.draws then s.gsBase else s.fsBase

/-- The linear address of the memory operand: segment base plus effective address (R56, R59). -/
def State.linearAddress (s : State) (prefixes : List LegacyPrefix) (n8 : Nat) (nextPc : Word64)
    (m : MemOperand) : Word64 :=
  s.effectiveAddress prefixes n8 nextPc m + s.segmentBase prefixes

/-- The read of the memory operand: MemFault if it is not readable, then `#AC` if alignment checking is in
force and the effective address is no multiple of 4, else the doubleword (R48, R51, R154, R155, R156;
log 20). -/
def State.loadOperand (s : State) (prefixes : List LegacyPrefix) (n8 : Nat) (nextPc : Word64)
    (m : MemOperand) : Except ExceptionName Word32 :=
  match s.memRead4 (s.linearAddress prefixes n8 nextPc m) with
  | .error e => .error e
  | .ok x =>
    if s.acEnabled && (s.effectiveAddress prefixes n8 nextPc m).extractLsb' 0 2 != 0#2 then .error .ac
    else .ok x

/-- The scale of an 8-bit displacement in a VEX encoded version (R58). -/
def vexDisp8Scale : Nat := 1

/-- The scale of an 8-bit displacement in an EVEX encoded version: Tuple1 Scalar, 4 bytes (R58). -/
def evexDisp8Scale : Nat := 4

/-- A VEX register number as a vector register number: 0 to 15 (R18, R73). -/
def vexReg (n : BitVec 4) : BitVec 5 := n.setWidth 5

/-- `pc + len` (R34, R57). -/
def State.pcAfter (s : State) (len : Nat) : Word64 := s.pc + BitVec.ofNat 64 len

/-- Operand 3 of a VEX encoded version (R126 step 3). -/
def State.vexSrc3 (s : State) (o : VexOperands) : Except ExceptionName Word32 :=
  match o.src3 with
  | .reg _ n => .ok (s.low32 (vexReg n))
  | .mem m => s.loadOperand o.prefixes vexDisp8Scale (s.pcAfter o.length) m

/-- Operand 3 of an EVEX encoded version (R132 step 4). -/
def State.evexSrc3 (s : State) (o : EvexOperands) : Except ExceptionName Word32 :=
  match o.src3 with
  | .reg n => .ok (s.low32 n)
  | .mem m => s.loadOperand o.prefixes evexDisp8Scale (s.pcAfter o.length) m

/-- `on`: no writemask, or bit 0 of the writemask register is 1 (R23, R24, R132 step 3). -/
def State.elementOn (s : State) (aaa : BitVec 3) : Bool :=
  aaa == 0#3 || (s.opmask aaa).getLsbD 0

/-- `er`: embedded rounding control, in the register form (R134). -/
def embeddedRounding (o : EvexOperands) : Bool := o.b && o.src3.isReg

/-- The rounding mode of an EVEX encoded version: EVEX.RC under embedded rounding, else MXCSR.RM (R102,
R134). -/
def State.evexRound (s : State) (o : EvexOperands) : RoundMode :=
  if embeddedRounding o then RoundMode.ofBits o.ll else mxcsrRound s.mxcsr

/-- A masked-off element's memory operand faults: only under `MayFault`, only if it is not readable, and
then as the free value says (R55, R140; log 10). -/
def State.maskedMemFault (s : State) (o : EvexOperands) : Option Word64 :=
  match o.src3 with
  | .reg _ => none
  | .mem m =>
    let a := s.linearAddress o.prefixes evexDisp8Scale (s.pcAfter o.length) m
    if s.cfg.maskedFaults == .mayFault && !(s.canRead a 4) && Config.freeMaskedFault s.draws then some a
    else none

/-- The low doubleword of a masked-off destination: 0 under zeroing-masking, else unchanged (R133). -/
def State.maskedResult (s : State) (o : EvexOperands) : Word32 :=
  if o.z then 0#32 else s.low32 o.d

end Sys2Proof.Machine
end

