-- ==== Sys2Proof/Machine/Vex.lean ====
section
/-! DEFINITION. The VEX encoded versions (`41_vfmsub_vex.md`): the common frame of R126 and the three
instructions, which differ in the choice of multiplicand, multiplier and subtrahend. -/

namespace Sys2Proof.Machine

/-- The three data operands of the arithmetic (R15). -/
structure Factors where
  /-- Multiplicand. -/
  x : Word32
  /-- Multiplier. -/
  y : Word32
  /-- Subtrahend. -/
  z : Word32
deriving DecidableEq, Repr

/-- The arithmetic of a VEX encoded version: the parameter `fmsub32`; the mode is MXCSR[14:13] and exceptions are not suppressed
(R102, R126 step 5). -/
def vexArith (t : Factors) (s : State) : FmsubOut :=
  arithmetic s.cfg.fmsub32 t.x t.y t.z (mxcsrRound s.mxcsr) s.mxcsr false

/-- The common frame of R126; `choose D S2 S3` is the form's choice of step 4. The 32-bit modes are
refused (log 17). -/
def vexFrame (choose : Word32 → Word32 → Word32 → Factors) (o : VexOperands) (s : State) :
    Host.Outcome State Fault Refusal :=
  if s.mode = .bits32 then .refused .mode32
  else if !s.vexEnabled then raise .ud s
  else if s.taskSwitched then raise .nm s
  else
    match s.vexSrc3 o with
    | .error e => raise e s
    | .ok s3 =>
      deliver (vexReg o.d) o.length
        (vexArith (choose (s.low32 (vexReg o.d)) (s.low32 (vexReg o.s2)) s3) s) s

/-- VFMSUB132SS, VEX encoded version: `round(D * S3 - S2)` (R127). -/
def execVfmsub132ssVex (o : VexOperands) (s : State) : Host.Outcome State Fault Refusal :=
  vexFrame (fun d s2 s3 => ⟨d, s3, s2⟩) o s

/-- VFMSUB213SS, VEX encoded version: `round(S2 * D - S3)` (R128). -/
def execVfmsub213ssVex (o : VexOperands) (s : State) : Host.Outcome State Fault Refusal :=
  vexFrame (fun d s2 s3 => ⟨s2, d, s3⟩) o s

/-- VFMSUB231SS, VEX encoded version: `round(S2 * S3 - D)` (R129). -/
def execVfmsub231ssVex (o : VexOperands) (s : State) : Host.Outcome State Fault Refusal :=
  vexFrame (fun d s2 s3 => ⟨s2, s3, d⟩) o s

end Sys2Proof.Machine
end

