-- ==== Sys2Proof/Machine/Evex.lean ====
section
/-! DEFINITION. The EVEX encoded versions (`42_vfmsub_evex.md`): the common frame of R132 with the
writemask and the embedded rounding control, and the three instructions. -/

namespace Sys2Proof.Machine

/-- The arithmetic of an EVEX encoded version: the parameter `fmsub32`; the mode of R134, and exceptions suppressed under embedded
rounding (R135). -/
def evexArith (o : EvexOperands) (t : Factors) (s : State) : FmsubOut :=
  arithmetic s.cfg.fmsub32 t.x t.y t.z (s.evexRound o) s.mxcsr (embeddedRounding o)

/-- The element is on: R132 step 4, first branch. -/
def evexActive (choose : Word32 → Word32 → Word32 → Factors) (o : EvexOperands) (s : State) :
    Host.Outcome State Fault Refusal :=
  match s.evexSrc3 o with
  | .error e => raise e s
  | .ok s3 => deliver o.d o.length (evexArith o (choose (s.low32 o.d) (s.low32 o.s2) s3) s) s

/-- The element is masked off: no arithmetic and no flag; the destination of R133 (R132 step 4, second
branch, R139, R140). -/
def evexMaskedOff (o : EvexOperands) (s : State) : Host.Outcome State Fault Refusal :=
  match s.maskedMemFault o with
  | some a => raise (.memFault a) s
  | none => .next (s.complete o.d (s.maskedResult o) FpFlags.none o.length)

/-- The common frame of R132. The checks of R90 to R92 are the decoder's too. The 32-bit modes are refused
(log 17). -/
def evexFrame (choose : Word32 → Word32 → Word32 → Factors) (o : EvexOperands) (s : State) :
    Host.Outcome State Fault Refusal :=
  if s.mode = .bits32 then .refused .mode32
  else if !s.evexEnabled || o.illegal then raise .ud s
  else if s.taskSwitched then raise .nm s
  else if s.elementOn o.aaa then evexActive choose o s
  else evexMaskedOff o s

/-- VFMSUB132SS, EVEX encoded version: `round(D * S3 - S2)` under the writemask (R136). -/
def execVfmsub132ssEvex (o : EvexOperands) (s : State) : Host.Outcome State Fault Refusal :=
  evexFrame (fun d s2 s3 => ⟨d, s3, s2⟩) o s

/-- VFMSUB213SS, EVEX encoded version: `round(S2 * D - S3)` under the writemask (R137). -/
def execVfmsub213ssEvex (o : EvexOperands) (s : State) : Host.Outcome State Fault Refusal :=
  evexFrame (fun d s2 s3 => ⟨s2, d, s3⟩) o s

/-- VFMSUB231SS, EVEX encoded version: `round(S2 * S3 - D)` under the writemask (R138, with `SRC3[31:0]`,
conflict C2). -/
def execVfmsub231ssEvex (o : EvexOperands) (s : State) : Host.Outcome State Fault Refusal :=
  evexFrame (fun d s2 s3 => ⟨s2, s3, d⟩) o s

end Sys2Proof.Machine
end

