-- ==== Sys2Proof/Machine/Dispatch.lean ====
section
/-! DEFINITION. The dispatch: one arm per constructor of Instr. -/

namespace Sys2Proof.Machine

def exec (i : Instr) (s : State) : Host.Outcome State Fault Refusal :=
  match i with
  | .vfmsub132ssVex o => Sys2Proof.Machine.execVfmsub132ssVex o s
  | .vfmsub213ssVex o => Sys2Proof.Machine.execVfmsub213ssVex o s
  | .vfmsub231ssVex o => Sys2Proof.Machine.execVfmsub231ssVex o s
  | .vfmsub132ssEvex o => Sys2Proof.Machine.execVfmsub132ssEvex o s
  | .vfmsub213ssEvex o => Sys2Proof.Machine.execVfmsub213ssEvex o s
  | .vfmsub231ssEvex o => Sys2Proof.Machine.execVfmsub231ssEvex o s

end Sys2Proof.Machine
end

