-- ==== Sys2Proof/Decode.lean ====
section
/-! DEFINITION. The decoder, total on any bytes and rejecting by name (R85, R87), and after it the encoder
written from the same tables (R68 to R78). -/

namespace Sys2Proof

/-- Why an encoding of these instructions is illegal, each the fault `#UD` (R87). -/
inductive IllegalForm where
  /-- R88: 66H, F2H, F3H, F0H or REX before the VEX or EVEX prefix. -/
  | precedingPrefix
  /-- R89: `P0[3:2]` or `P1[2]`. -/
  | fixedBits
  /-- R90: `z` = 1 with `aaa` = 000b. -/
  | masking
  /-- R91: `b` = 1 with a memory operand. -/
  | broadcast
  /-- R92: `L'L` = 11b as a length. -/
  | vectorLength
deriving DecidableEq, Repr

/-- The ways the decoder rejects a byte sequence. -/
inductive Reject where
  /-- The bytes end before the instruction does, and so far they are the beginning of one of the six
  encodings (R47: no instruction stands there; log 7). -/
  | truncated
  /-- The bytes match none of the six rows (R87): not an instruction of this spec. -/
  | notInScope
  /-- A legacy prefix comes first and `PREFIXES_ADMITTED` is none (R69, D19). -/
  | legacyPrefix
  /-- The instruction would exceed 15 bytes (R84). -/
  | tooLong
  /-- An illegal form of these instructions (R88 to R92): `#UD`. -/
  | undefinedOpcode (why : IllegalForm)
deriving DecidableEq, Repr

/-! ### Opcode bytes and legacy prefixes -/

/-- The opcode byte of a form (R66, R86). -/
def Form.opcode : Form → Byte
  | .f132 => 0x9B#8
  | .f213 => 0xAB#8
  | .f231 => 0xBB#8

/-- The form an opcode byte selects in the map 0F 38 with pp = 01b and W = 0 (R86). -/
def Form.ofOpcode (op : Byte) : Option Form :=
  if op = 0x9B#8 then some .f132
  else if op = 0xAB#8 then some .f213
  else if op = 0xBB#8 then some .f231
  else none

/-- The byte of an admitted legacy prefix (R69). -/
def LegacyPrefix.byte : LegacyPrefix → Byte
  | .es => 0x26#8
  | .cs => 0x2E#8
  | .ss => 0x36#8
  | .ds => 0x3E#8
  | .fs => 0x64#8
  | .gs => 0x65#8
  | .addressSize => 0x67#8

/-- The admitted legacy prefix a byte is (R69). -/
def LegacyPrefix.ofByte (b : Byte) : Option LegacyPrefix :=
  if b = 0x26#8 then some .es
  else if b = 0x2E#8 then some .cs
  else if b = 0x36#8 then some .ss
  else if b = 0x3E#8 then some .ds
  else if b = 0x64#8 then some .fs
  else if b = 0x65#8 then some .gs
  else if b = 0x67#8 then some .addressSize
  else none

/-- A byte that is illegal before VEX or EVEX: 66H, F2H, F3H, F0H (LOCK), REX 40H..4FH (R88). -/
def isIllegalPrefix (b : Byte) : Bool :=
  b == 0x66#8 || b == 0xF2#8 || b == 0xF3#8 || b == 0xF0#8 || b.extractLsb' 4 4 == 4#4

/-- The prefix bytes at the front of a byte sequence. -/
structure PrefixScan where
  /-- How many prefix bytes there are, admitted and illegal ones together. -/
  count : Nat
  admitted : List LegacyPrefix
  illegal : Bool
  rest : List Byte
deriving DecidableEq, Repr

/-- Take the prefix bytes off the front (R68, R69, R88). -/
def scanPrefixes : List Byte → PrefixScan
  | [] => ⟨0, [], false, []⟩
  | b :: bs =>
    match LegacyPrefix.ofByte b with
    | some p =>
      let r := scanPrefixes bs
      ⟨r.count + 1, p :: r.admitted, r.illegal, r.rest⟩
    | none =>
      if isIllegalPrefix b then
        let r := scanPrefixes bs
        ⟨r.count + 1, r.admitted, true, r.rest⟩
      else ⟨0, [], false, b :: bs⟩

/-! ### The tail: SIB and displacement (R56, R78) -/

/-- A 32-bit displacement, least significant byte first (R50, R78). -/
def takeWord32 : List Byte → Option (Word32 × List Byte)
  | b0 :: b1 :: b2 :: b3 :: rest => some (b3 ++ b2 ++ b1 ++ b0, rest)
  | _ => none

/-- The displacement that `mod` announces, away from the two disp32 cases of mod = 00b (R78). -/
def takeDisp (mod : BitVec 2) (bs : List Byte) : Option (Disp × List Byte) :=
  if mod = 0#2 then some (.none, bs)
  else if mod = 1#2 then
    match bs with
    | b :: rest => some (.d8 b, rest)
    | [] => none
  else (takeWord32 bs).map fun p => (.d32 p.1, p.2)

/-- The memory operand after a ModRM with mod ≠ 11b, `x` and `b` being the extension bits (R56, R78). -/
def parseMem (x b : Bit) (mod : BitVec 2) (rm : BitVec 3) (bs : List Byte) :
    Option (MemOperand × List Byte) :=
  if rm = 4#3 then
    match bs with
    | [] => none
    | sib :: bs =>
      let scale := sib.extractLsb' 6 2
      let index := x ++ sib.extractLsb' 3 3
      let base := sib.extractLsb' 0 3
      if mod = 0#2 ∧ base = 5#3 then
        (takeWord32 bs).map fun p => (.sibNoBase scale index b p.1, p.2)
      else
        (takeDisp mod bs).map fun p => (.sib scale index (b ++ base) p.1, p.2)
  else if mod = 0#2 ∧ rm = 5#3 then
    (takeWord32 bs).map fun p => (.ripRel x b p.1, p.2)
  else
    (takeDisp mod bs).map fun p => (.base x (b ++ rm) p.1, p.2)

/-- Operand 3 of a VEX encoded version (R73, R77). -/
def parseVexSrc3 (x b : Bit) (modrm : Byte) (bs : List Byte) : Option (VexSrc3 × List Byte) :=
  if modrm.extractLsb' 6 2 = 3#2 then some (.reg x (b ++ modrm.extractLsb' 0 3), bs)
  else (parseMem x b (modrm.extractLsb' 6 2) (modrm.extractLsb' 0 3) bs).map fun p => (.mem p.1, p.2)

/-- Operand 3 of an EVEX encoded version (R76, R77). -/
def parseEvexSrc3 (x b : Bit) (modrm : Byte) (bs : List Byte) : Option (EvexSrc3 × List Byte) :=
  if modrm.extractLsb' 6 2 = 3#2 then some (.reg (x ++ b ++ modrm.extractLsb' 0 3), bs)
  else (parseMem x b (modrm.extractLsb' 6 2) (modrm.extractLsb' 0 3) bs).map fun p => (.mem p.1, p.2)

/-! ### The two prefix formats -/

/-- The opcode byte and ModRM, which follow the VEX or EVEX prefix (R68): a byte that is no opcode of R86 is
refused as soon as it is read, and `k` goes on with form, ModRM and the bytes after it. -/
def takeOpcode (bs : List Byte) (k : Form → Byte → List Byte → Except Reject (Instr × List Byte)) :
    Except Reject (Instr × List Byte) :=
  match bs with
  | [] => .error .truncated
  | op :: bs =>
    match Form.ofOpcode op with
    | none => .error .notInScope
    | some form =>
      match bs with
      | [] => .error .truncated
      | modrm :: tail => k form modrm tail

/-- The operands of a VEX encoded version (R73). -/
def vexInstr (prefixes : List LegacyPrefix) (b1 b2 : Byte) (form : Form) (modrm : Byte)
    (tail : List Byte) : Except Reject (Instr × List Byte) :=
  let r := ~~~ b1.extractLsb' 7 1
  let x := ~~~ b1.extractLsb' 6 1
  let b := ~~~ b1.extractLsb' 5 1
  match parseVexSrc3 x b modrm tail with
  | none => .error .truncated
  | some (src3, rest) =>
    .ok (form.vex
      { prefixes := prefixes
        d := r ++ modrm.extractLsb' 3 3
        s2 := ~~~ b2.extractLsb' 3 4
        src3 := src3
        l := b2.extractLsb' 2 1 }, rest)

/-- VEX byte 1 is one of the map 0F 38 (R71). -/
def vexByte1Ok (b1 : Byte) : Bool := b1.extractLsb' 0 5 == 2#5

/-- VEX byte 2 has W = 0 and pp = 01b (R71, R83). -/
def vexByte2Ok (b2 : Byte) : Bool := b2.extractLsb' 7 1 == 0#1 && b2.extractLsb' 0 2 == 1#2

/-- The instruction after the byte C4H: VEX bytes 1 and 2, opcode, ModRM, tail (R70, R71, R73). A byte that
matches no row of R66 is refused even where the bytes end after it (R87). -/
def decodeVex (prefixes : List LegacyPrefix) : List Byte → Except Reject (Instr × List Byte)
  | [] => .error .truncated
  | b1 :: bs =>
    if vexByte1Ok b1 then
      match bs with
      | [] => .error .truncated
      | b2 :: bs =>
        if vexByte2Ok b2 then takeOpcode bs (vexInstr prefixes b1 b2) else .error .notInScope
    else .error .notInScope

/-- Why an EVEX encoded version is illegal, by R89 (`fixedOk` false) and R90 to R92. -/
def EvexOperands.illegalForm (o : EvexOperands) (fixedOk : Bool) : Option IllegalForm :=
  if fixedOk = false then some .fixedBits
  else if o.illegalMasking then some .masking
  else if o.illegalBroadcast then some .broadcast
  else if o.illegalLength then some .vectorLength
  else none

/-- The operands of an EVEX encoded version (R76), if they and the fixed bits are legal (R89 to R92). -/
def evexInstr (prefixes : List LegacyPrefix) (p0 p1 p2 : Byte) (form : Form) (modrm : Byte)
    (tail : List Byte) : Except Reject (Instr × List Byte) :=
  let r := ~~~ p0.extractLsb' 7 1
  let x := ~~~ p0.extractLsb' 6 1
  let b := ~~~ p0.extractLsb' 5 1
  let r' := ~~~ p0.extractLsb' 4 1
  let v' := ~~~ p2.extractLsb' 3 1
  match parseEvexSrc3 x b modrm tail with
  | none => .error .truncated
  | some (src3, rest) =>
    let o : EvexOperands :=
      { prefixes := prefixes
        d := r' ++ r ++ modrm.extractLsb' 3 3
        s2 := v' ++ ~~~ p1.extractLsb' 3 4
        src3 := src3
        aaa := p2.extractLsb' 0 3
        z := Bit.toBool (p2.extractLsb' 7 1)
        b := Bit.toBool (p2.extractLsb' 4 1)
        ll := p2.extractLsb' 5 2 }
    match o.illegalForm (p0.extractLsb' 2 2 == 0#2 && p1.extractLsb' 2 1 == 1#1) with
    | some why => .error (.undefinedOpcode why)
    | none => .ok (form.evex o, rest)

/-- P0 is one of the map 0F 38 (R75). `P0[3:2]` = 01b is another opcode map on newer processors and is no
such byte (R89; log 14). -/
def evexP0Ok (p0 : Byte) : Bool := p0.extractLsb' 0 2 == 2#2 && p0.extractLsb' 2 2 != 1#2

/-- P1 has W = 0 and pp = 01b (R75, R83). -/
def evexP1Ok (p1 : Byte) : Bool := p1.extractLsb' 7 1 == 0#1 && p1.extractLsb' 0 2 == 1#2

/-- The instruction after the byte 62H: P0, P1, P2, opcode, ModRM, tail (R74, R75, R76). A byte that matches
no row of R66 is refused even where the bytes end after it (R87). -/
def decodeEvex (prefixes : List LegacyPrefix) : List Byte → Except Reject (Instr × List Byte)
  | [] => .error .truncated
  | p0 :: bs =>
    if evexP0Ok p0 then
      match bs with
      | [] => .error .truncated
      | p1 :: bs =>
        if evexP1Ok p1 then
          match bs with
          | [] => .error .truncated
          | p2 :: bs => takeOpcode bs (evexInstr prefixes p0 p1 p2)
        else .error .notInScope
    else .error .notInScope

/-- The instruction that begins at a VEX or EVEX prefix (R85). The two-byte VEX prefix C5H cannot encode
these instructions (R72), and no other byte begins one. -/
def decodeCore (prefixes : List LegacyPrefix) : List Byte → Except Reject (Instr × List Byte)
  | [] => .error .truncated
  | b0 :: bs =>
    if b0 = 0xC4#8 then decodeVex prefixes bs
    else if b0 = 0x62#8 then decodeEvex prefixes bs
    else .error .notInScope

/-- Whether a byte sequence begins with a legacy prefix of R69. -/
def beginsWithLegacyPrefix : List Byte → Bool
  | [] => false
  | b :: _ => (LegacyPrefix.ofByte b).isSome

/-- THE DECODER (R85, R87): the instruction at the front of a byte sequence and the bytes after it. The order
of the checks where several reject is a DESIGN CHOICE: the legacy-prefix refusal, then what the encoding
itself is (not in scope, cut short, or illegal by R89 to R92, over 15 bytes or not), then the length, then
an illegal prefix (logs 15 and 16). -/
def decode (policy : PrefixPolicy) (bs : List Byte) : Except Reject (Instr × List Byte) :=
  if policy = .none ∧ beginsWithLegacyPrefix bs = true then .error .legacyPrefix
  else
    let scan := scanPrefixes bs
    if maxLength ≤ scan.count then .error .tooLong
    else
      match decodeCore scan.admitted scan.rest with
      | .error r => .error r
      | .ok (i, rest) =>
        if maxLength < scan.count + (i.length - i.prefixes.length) then .error .tooLong
        else if scan.illegal then .error (.undefinedOpcode .precedingPrefix)
        else .ok (i, rest)

/-- The bytes of a table word: byte k is bits 8k+7..8k of `w`, bits from `nbits` on are 0, up to the
longest instruction. -/
def tableBytes (nbits w : Nat) : List Byte :=
  (List.range maxLength).map fun k => BitVec.ofNat 8 (w % 2 ^ nbits / 2 ^ (8 * k))

/-- The instruction the decoder reads from a word of the opcode table. -/
def decodeTableWord (nbits w : Nat) : Option Instr :=
  match decode .none (tableBytes nbits w) with
  | .ok (i, _) => some i
  | .error _ => none

/-! ### The encoder -/

/-- VEX byte 1: `~R ~X ~B 00010` (R70, R71). -/
def vexByte1 (r x b : Bit) : Byte := ~~~ r ++ ~~~ x ++ ~~~ b ++ 2#5

/-- VEX byte 2: `0 ~vvvv L 01` (R70, R71). -/
def vexByte2 (vvvv : BitVec 4) (l : Bit) : Byte := 0#1 ++ ~~~ vvvv ++ l ++ 1#2

/-- EVEX P0: `~R ~X ~B ~R' 00 10` (R74, R75). -/
def evexP0 (r x b r' : Bit) : Byte := ~~~ r ++ ~~~ x ++ ~~~ b ++ ~~~ r' ++ 0#2 ++ 2#2

/-- EVEX P1: `0 ~vvvv 1 01` (R74, R75). -/
def evexP1 (vvvv : BitVec 4) : Byte := 0#1 ++ ~~~ vvvv ++ 1#1 ++ 1#2

/-- EVEX P2: `z L'L b ~V' aaa` (R74). -/
def evexP2 (z : Bit) (ll : BitVec 2) (b v' : Bit) (aaa : BitVec 3) : Byte :=
  z ++ ll ++ b ++ ~~~ v' ++ aaa

/-- ModRM (R77), and with scale, index, base the SIB byte (R78). -/
def modrmByte (mod : BitVec 2) (reg rm : BitVec 3) : Byte := mod ++ reg ++ rm

/-- The bytes of a 32-bit displacement, least significant first (R50, R78). -/
def word32Bytes (w : Word32) : List Byte :=
  [w.extractLsb' 0 8, w.extractLsb' 8 8, w.extractLsb' 16 8, w.extractLsb' 24 8]

/-- The `mod` field that announces a displacement (R78). -/
def Disp.mod : Disp → BitVec 2
  | .none => 0#2
  | .d8 _ => 1#2
  | .d32 _ => 2#2

/-- The bytes of a displacement. -/
def Disp.bytes : Disp → List Byte
  | .none => []
  | .d8 d => [d]
  | .d32 d => word32Bytes d

/-- How operand 3 is spread over the encoding: the prefix bits X and B (un-inverted), `mod`, `rm`, and the
bytes after ModRM. -/
structure Src3Fields where
  x : Bit
  b : Bit
  mod : BitVec 2
  rm : BitVec 3
  tail : List Byte
deriving DecidableEq, Repr

/-- R56 and R78 for a memory operand. -/
def MemOperand.fields : MemOperand → Src3Fields
  | .ripRel x b d => ⟨x, b, 0#2, 5#3, word32Bytes d⟩
  | .base x reg d => ⟨x, high1 reg, d.mod, low3 reg, d.bytes⟩
  | .sib scale index breg d =>
    ⟨high1 index, high1 breg, d.mod, 4#3, modrmByte scale (low3 index) (low3 breg) :: d.bytes⟩
  | .sibNoBase scale index b d =>
    ⟨high1 index, b, 0#2, 4#3, modrmByte scale (low3 index) 5#3 :: word32Bytes d⟩

/-- R73 and R77. -/
def VexSrc3.fields : VexSrc3 → Src3Fields
  | .reg x n => ⟨x, high1 n, 3#2, low3 n, []⟩
  | .mem m => m.fields

/-- R76 and R77. -/
def EvexSrc3.fields : EvexSrc3 → Src3Fields
  | .reg n => ⟨n.extractLsb' 4 1, n.extractLsb' 3 1, 3#2, n.extractLsb' 0 3, []⟩
  | .mem m => m.fields

/-- The bytes of a VEX encoded version (R68, R70, R71, R73). -/
def encodeVex (form : Form) (o : VexOperands) : List Byte :=
  let f := o.src3.fields
  o.prefixes.map LegacyPrefix.byte ++
    (0xC4#8 :: vexByte1 (high1 o.d) f.x f.b :: vexByte2 o.s2 o.l :: form.opcode
      :: modrmByte f.mod (low3 o.d) f.rm :: f.tail)

/-- The bytes of an EVEX encoded version (R68, R74, R75, R76). -/
def encodeEvex (form : Form) (o : EvexOperands) : List Byte :=
  let f := o.src3.fields
  o.prefixes.map LegacyPrefix.byte ++
    (0x62#8 :: evexP0 (o.d.extractLsb' 3 1) f.x f.b (o.d.extractLsb' 4 1)
      :: evexP1 (o.s2.extractLsb' 0 4)
      :: evexP2 (Bit.ofBool o.z) o.ll (Bit.ofBool o.b) (o.s2.extractLsb' 4 1) o.aaa
      :: form.opcode :: modrmByte f.mod (o.d.extractLsb' 0 3) f.rm :: f.tail)

/-- THE ENCODER: the bytes of an instruction at increasing addresses (R68). -/
def encode : Instr → List Byte
  | .vfmsub132ssVex o => encodeVex .f132 o
  | .vfmsub213ssVex o => encodeVex .f213 o
  | .vfmsub231ssVex o => encodeVex .f231 o
  | .vfmsub132ssEvex o => encodeEvex .f132 o
  | .vfmsub213ssEvex o => encodeEvex .f213 o
  | .vfmsub231ssEvex o => encodeEvex .f231 o

end Sys2Proof
end

