-- ==== Sys2Proof/Machine/Fetch.lean ====
section
/-! DEFINITION. Fetching an instruction from the program map (R47), and what a rejection by the decoder is
(R87, R157, R172). -/

namespace Sys2Proof.Machine

/-- Where the next instruction's first byte is: `pc` in 64-bit mode, where the base of CS is treated as 0
(R34, R38); else the base of CS plus `pc` (R40; log 17). -/
def State.fetchAddress (s : State) : Word64 :=
  if s.mode = .bits64 then s.pc else s.csBase + s.pc

/-- Up to `n` instruction bytes at increasing addresses, as far as the program map holds them (R47,
R50). -/
def fetchBytes (code : List Host.Cell) : Nat → Word64 → List Byte
  | 0, _ => []
  | n + 1, a =>
    match cellAt code a.toNat with
    | none => []
    | some b => b :: fetchBytes code n (a + 1#64)

/-- How many bytes the fetch offers the decoder: at most 14 legacy prefixes and an instruction of at most
11 bytes, beyond which the decoder has an answer (R84). -/
def fetchWindow : Nat := 25

/-- The bytes offered to the decoder. -/
def State.window (s : State) : List Byte := fetchBytes s.code fetchWindow s.fetchAddress

/-- What the machine does when the decoder rejects the bytes: an illegal form raises `#UD` (R87), no
instruction at `pc` is stuck (R47), the rest is refused by name. -/
def rejected (r : Reject) (s : State) : Host.Outcome State Fault Refusal :=
  match r with
  | .truncated => .fault (.stuck s)
  | .notInScope => .refused .notInScope
  | .legacyPrefix => .refused .legacyPrefix
  | .tooLong => .refused .tooLong
  | .undefinedOpcode _ => raise .ud s

/-- The instruction at `pc`, or what happens instead. Bytes are decoded in 64-bit mode only; the 32-bit
modes are refused before decoding (R85; log 17). -/
def State.fetch (s : State) : Except (Host.Outcome State Fault Refusal) Instr :=
  if s.mode = .bits32 then .error (.refused .mode32)
  else
    match decode s.cfg.prefixes s.window with
    | .ok (i, _) => .ok i
    | .error r => .error (rejected r s)

/-- Launch the machine (R167, R168) and place bytes in the program map where the next fetch reads
(R42, R47; log 1). -/
def State.launchWith (s : State) (bytes : List Byte) : State :=
  { s.launch with code := placeCode s.launch.code s.launch.fetchAddress bytes }

end Sys2Proof.Machine
end

