-- ==== Sys2Proof/Machine/Step.lean ====
section
/-! DEFINITION. One step: fetch the instruction at `pc` and execute it. -/

namespace Sys2Proof.Machine

/-- One step of the machine (R47, R172). -/
def step (s : State) : Host.Outcome State Fault Refusal :=
  match s.fetch with
  | .ok i => exec i s
  | .error out => out

/-- `s` launched, with the instruction of a table word placed where the next step fetches (log 1). -/
def State.withFetchWord (s : State) (nbits w : Nat) : State :=
  s.launchWith (tableBytes nbits w)

end Sys2Proof.Machine
end

