-- ==== Sys2Proof/Machine/Assembler.lean ====
section
/-! DEFINITION. The tool side of `30_encoding.md` section 5: mnemonics and complementary mnemonics, the
Intel and AT&T texts, which encoding a tool picks, and the intrinsic prototypes. Nothing here takes part
in a step (log 25). -/

namespace Sys2Proof.Machine

/-- The three mnemonics (R66) and the three complementary ones (R97). -/
inductive Mnemonic where
  | vfmsub132ss | vfmsub213ss | vfmsub231ss
  | vfmsub312ss | vfmsub123ss | vfmsub321ss
deriving DecidableEq, Repr

/-- A complementary mnemonic assembles to the encoding of its partner (R97). -/
def Mnemonic.form : Mnemonic → Form
  | .vfmsub132ss => .f132
  | .vfmsub213ss => .f213
  | .vfmsub231ss => .f231
  | .vfmsub312ss => .f132
  | .vfmsub123ss => .f213
  | .vfmsub321ss => .f231

/-- Exchange the first two digits (R97). -/
def Mnemonic.complementary : Mnemonic → Mnemonic
  | .vfmsub132ss => .vfmsub312ss
  | .vfmsub213ss => .vfmsub123ss
  | .vfmsub231ss => .vfmsub321ss
  | .vfmsub312ss => .vfmsub132ss
  | .vfmsub123ss => .vfmsub213ss
  | .vfmsub321ss => .vfmsub231ss

/-- The spelling (R66, R97). -/
def Mnemonic.text : Mnemonic → String
  | .vfmsub132ss => "VFMSUB132SS"
  | .vfmsub213ss => "VFMSUB213SS"
  | .vfmsub231ss => "VFMSUB231SS"
  | .vfmsub312ss => "VFMSUB312SS"
  | .vfmsub123ss => "VFMSUB123SS"
  | .vfmsub321ss => "VFMSUB321SS"

/-- A memory reference as it is written in assembler text (R95, R98). -/
inductive AsmMem where
  /-- `[rip+disp]`. -/
  | rip (disp : Word32)
  /-- `[base + index*2^scale + disp]`, each part optional; the index is not RSP. -/
  | sum (base : Option (BitVec 4)) (index : Option (BitVec 4 × BitVec 2)) (disp : Word32)
deriving DecidableEq, Repr

/-- Operand 3 as it is written (R95). -/
inductive AsmSrc3 where
  | reg (n : BitVec 5)
  | mem (m : AsmMem)
deriving DecidableEq, Repr

/-- One instruction as it is written (R95, R96). -/
structure AsmText where
  mnemonic : Mnemonic
  /-- The text asks for the EVEX version by a marker of its own. -/
  evex : Bool := false
  d : BitVec 5
  s2 : BitVec 5
  src3 : AsmSrc3
  /-- The writemask `k1`..`k7`; 0 for none. -/
  mask : BitVec 3 := 0#3
  zeroing : Bool := false
  rounding : Option RoundMode := none
deriving DecidableEq, Repr

/-- The register form. -/
def AsmSrc3.isReg : AsmSrc3 → Bool
  | .reg _ => true
  | .mem _ => false

/-- Zeroing is written only together with a writemask, and a rounding control only with a register third
operand (R96). -/
def AsmText.legal (t : AsmText) : Bool :=
  (!t.zeroing || t.mask != 0#3) && (t.rounding.isNone || t.src3.isReg)

/-- A register above 15. -/
def AsmSrc3.highReg : AsmSrc3 → Bool
  | .reg n => n.getLsbD 4
  | .mem _ => false

/-- A tool picks EVEX for a register above 15, a writemask, zeroing or a rounding control (R95). -/
def AsmText.usesEvex (t : AsmText) : Bool :=
  t.evex || t.d.getLsbD 4 || t.s2.getLsbD 4 || t.src3.highReg || t.mask != 0#3 || t.zeroing
    || t.rounding.isSome

/-- The shortest displacement field for a displacement, in a form whose base register is `breg` and whose
8-bit displacements are multiplied by `n8` (R56, R58). -/
def asmDisp (n8 : Nat) (breg : BitVec 4) (disp : Word32) : Disp :=
  let d8 : Byte := BitVec.ofInt 8 (disp.toInt / n8)
  if disp = 0#32 ∧ low3 breg ≠ 5#3 then .none
  else if (d8.signExtend 32 * BitVec.ofNat 32 n8 : Word32) = disp then .d8 d8
  else .d32 disp

/-- The index and scale fields: 4 and 0 for no index. -/
def asmIndex (index : Option (BitVec 4 × BitVec 2)) : BitVec 4 × BitVec 2 := index.getD (4#4, 0#2)

/-- The addressing form a tool picks for a memory reference (R56, R78). -/
def asmMem (n8 : Nat) : AsmMem → MemOperand
  | .rip disp => .ripRel 0#1 0#1 disp
  | .sum none index disp => .sibNoBase (asmIndex index).2 (asmIndex index).1 0#1 disp
  | .sum (some b) none disp =>
    if low3 b = 4#3 then .sib 0#2 4#4 b (asmDisp n8 b disp) else .base 0#1 b (asmDisp n8 b disp)
  | .sum (some b) (some (i, scale)) disp => .sib scale i b (asmDisp n8 b disp)

/-- The field `EVEX.RC` of a rounding mode (R30, R96). -/
def RoundMode.bits : RoundMode → BitVec 2
  | .nearestEven => 0#2
  | .down => 1#2
  | .up => 2#2
  | .towardZero => 3#2

/-- The EVEX encoded version of a text (R76). -/
def AsmText.evexOperands (t : AsmText) : EvexOperands where
  prefixes := []
  d := t.d
  s2 := t.s2
  src3 := match t.src3 with
    | .reg n => .reg n
    | .mem m => .mem (asmMem 4 m)
  aaa := t.mask
  z := t.zeroing
  b := t.rounding.isSome
  ll := (t.rounding.map RoundMode.bits).getD 0#2

/-- The VEX encoded version of a text (R73). -/
def AsmText.vexOperands (t : AsmText) : VexOperands where
  prefixes := []
  d := t.d.setWidth 4
  s2 := t.s2.setWidth 4
  src3 := match t.src3 with
    | .reg n => .reg 0#1 (n.setWidth 4)
    | .mem m => .mem (asmMem 1 m)
  l := 0#1

/-- The instruction a tool assembles a legal text to; length bits are 0 (R81, R95). -/
def assemble (t : AsmText) : Instr :=
  if t.usesEvex then t.mnemonic.form.evex t.evexOperands else t.mnemonic.form.vex t.vexOperands

/-! ### The texts -/

/-- A decoration in braces (R96). -/
def braced (s : String) : String := (String.singleton (Char.ofNat 123)) ++ s ++ (String.singleton (Char.ofNat 125))

/-- `xmm0`..`xmm31`. -/
def xmmName (n : BitVec 5) : String := "xmm" ++ toString n.toNat

/-- The 64-bit general registers, in the order of R33. -/
def gprNames : List String :=
  ["rax", "rcx", "rdx", "rbx", "rsp", "rbp", "rsi", "rdi"]
    ++ ["r8", "r9", "r10", "r11", "r12", "r13", "r14", "r15"]

/-- The name of a general register (R33). -/
def gprName (n : BitVec 4) : String := gprNames.getD n.toNat ""

/-- A signed displacement. -/
def dispText (d : Word32) : String :=
  if d.toInt < 0 then toString d.toInt else "+" ++ toString d.toInt

/-- Intel syntax of a memory reference (R95). -/
def AsmMem.intel : AsmMem → String
  | .rip d => "[rip" ++ dispText d ++ "]"
  | .sum b i d =>
    let terms := (b.map gprName).toList
      ++ (i.map fun p => gprName p.1 ++ "*" ++ toString (2 ^ p.2.toNat)).toList
    "[" ++ String.intercalate "+" terms
      ++ (if terms.isEmpty then toString d.toInt else if d = 0#32 then "" else dispText d) ++ "]"

/-- AT&T syntax of a memory reference (R98). -/
def AsmMem.att : AsmMem → String
  | .rip d => toString d.toInt ++ "(%rip)"
  | .sum b i d =>
    if b.isNone && i.isNone then toString d.toInt
    else toString d.toInt ++ "(" ++ ((b.map fun r => "%" ++ gprName r).getD "")
      ++ ((i.map fun p => ",%" ++ gprName p.1 ++ "," ++ toString (2 ^ p.2.toNat)).getD "") ++ ")"

/-- The spellings of the rounding control (R96). -/
def RoundMode.erText : RoundMode → String
  | .nearestEven => braced "rn-sae"
  | .down => braced "rd-sae"
  | .up => braced "ru-sae"
  | .towardZero => braced "rz-sae"

/-- The writemask and zeroing decorations after the destination (R96). -/
def AsmText.maskText (t : AsmText) (percent : String) : String :=
  (if t.mask = 0#3 then "" else braced (percent ++ "k" ++ toString t.mask.toNat))
    ++ (if t.zeroing then braced "z" else "")

/-- Intel syntax: destination, second source, third source (R95, R96). -/
def AsmText.intel (t : AsmText) : String :=
  let s3 := match t.src3 with
    | .reg n => xmmName n
    | .mem m => m.intel
  t.mnemonic.text ++ " " ++ xmmName t.d
    ++ (if t.mask = 0#3 then "" else " ") ++ t.maskText "" ++ ", " ++ xmmName t.s2 ++ ", " ++ s3
    ++ ((t.rounding.map fun r => ", " ++ r.erText).getD "")

/-- AT&T syntax: the operands in the reverse order (R98). -/
def AsmText.att (t : AsmText) : String :=
  let s3 := match t.src3 with
    | .reg n => "%" ++ xmmName n
    | .mem m => m.att
  t.mnemonic.text.toLower ++ " " ++ ((t.rounding.map fun r => r.erText ++ ", ").getD "") ++ s3
    ++ ", %" ++ xmmName t.s2 ++ ", %" ++ xmmName t.d ++ t.maskText "%"

/-- The eight compiler intrinsics, each tagged `VFMSUBxxxSS` (R99); no rule depends on them. -/
def intrinsics : List String :=
  ["__m128 _mm_fmsub_round_ss(__m128 a, __m128 b, __m128 c, int r);",
   "__m128 _mm_mask_fmsub_ss(__m128 a, __mmask8 k, __m128 b, __m128 c);",
   "__m128 _mm_maskz_fmsub_ss(__mmask8 k, __m128 a, __m128 b, __m128 c);",
   "__m128 _mm_mask3_fmsub_ss(__m128 a, __m128 b, __m128 c, __mmask8 k);"]
  ++ ["__m128 _mm_mask_fmsub_round_ss(__m128 a, __mmask8 k, __m128 b, __m128 c, int r);",
   "__m128 _mm_maskz_fmsub_round_ss(__mmask8 k, __m128 a, __m128 b, __m128 c, int r);",
   "__m128 _mm_mask3_fmsub_round_ss(__m128 a, __m128 b, __m128 c, __mmask8 k, int r);",
   "__m128 _mm_fmsub_ss (__m128 a, __m128 b, __m128 c);"]

end Sys2Proof.Machine
end

