-- ==== Sys2Proof/Safety.lean ====
section
/-! DEFINITION. What claims rest on: the launch premises of `70_reset_and_hazards.md` R168 by name, and the
invariant of the model's states. -/

namespace Sys2Proof.Machine

/-- The launch premises of a VEX encoded version (R168): HAS_FMA, OS_AVX_ENABLED, MODE = Mode64,
CR0.TS = 0. -/
def State.vexReady (s : State) : Bool := s.vexEnabled && !s.taskSwitched

/-- The launch premises of an EVEX encoded version (R168): HAS_AVX512F, OS_AVX512_ENABLED,
MODE = Mode64, CR0.TS = 0. -/
def State.evexReady (s : State) : Bool := s.evexEnabled && !s.taskSwitched

/-- The launch premises of an instruction, and its EVEX fields legal (R168, R149 row 7). -/
def State.ready (s : State) : Instr → Bool
  | .vfmsub132ssVex _ => s.vexReady
  | .vfmsub213ssVex _ => s.vexReady
  | .vfmsub231ssVex _ => s.vexReady
  | .vfmsub132ssEvex o => s.evexReady && !o.illegal
  | .vfmsub213ssEvex o => s.evexReady && !o.illegal
  | .vfmsub231ssEvex o => s.evexReady && !o.illegal

/-- The number of the destination register (R20). -/
def destination : Instr → BitVec 5
  | .vfmsub132ssVex o => vexReg o.d
  | .vfmsub213ssVex o => vexReg o.d
  | .vfmsub231ssVex o => vexReg o.d
  | .vfmsub132ssEvex o => o.d
  | .vfmsub213ssEvex o => o.d
  | .vfmsub231ssEvex o => o.d

/-- The choice of multiplicand, multiplier and subtrahend that the digits of a mnemonic name: 132 is
operand1 * operand3 - operand2, 213 is operand2 * operand1 - operand3, 231 is operand2 * operand3 -
operand1 (R16). -/
def factorsOf : Form → (op1 op2 op3 : Word32) → Factors
  | .f132, op1, op2, op3 => ⟨op1, op3, op2⟩
  | .f213, op1, op2, op3 => ⟨op2, op1, op3⟩
  | .f231, op1, op2, op3 => ⟨op2, op3, op1⟩

/-- The address a memory reference of an assembler text names (R95): base plus index times the power of the
scale plus displacement, or the next instruction's address plus displacement. -/
def State.textAddress (s : State) (nextPc : Word64) : AsmMem → Word64
  | .rip disp => nextPc + disp.signExtend 64
  | .sum base index disp =>
    (base.elim 0#64 fun b => s.gprAt b)
      + (index.elim 0#64 fun i => s.gprAt i.1 * BitVec.ofNat 64 (2 ^ i.2.toNat)) + disp.signExtend 64

/-- The two states agree on everything but the vector registers, MXCSR, `pc` and the draw counter. -/
def sameOutsideResult (s t : State) : Prop :=
  t.cfg = s.cfg ∧ t.k = s.k ∧ t.gpr = s.gpr ∧ t.eflags = s.eflags ∧ t.cr0 = s.cr0 ∧ t.cr2 = s.cr2 ∧
  t.cr4 = s.cr4 ∧ t.xcr0 = s.xcr0 ∧ t.efer = s.efer ∧ t.cpl = s.cpl ∧ t.csL = s.csL ∧
  t.csBase = s.csBase ∧ t.fsBase = s.fsBase ∧ t.gsBase = s.gsBase ∧ t.mem = s.mem ∧
  t.readable = s.readable ∧ t.code = s.code

/-- The map of an outcome's state: of the next state, or of the state an exception leaves. -/
def mapOutcome (f : State → State) :
    Host.Outcome State Fault Refusal → Host.Outcome State Fault Refusal
  | .next t => .next (f t)
  | .fault (.raised e t) => .fault (.raised e (f t))
  | .fault (.stuck t) => .fault (.stuck (f t))
  | .refused r => .refused r

/-- The exact value of a finite single-precision word, in the rationals (R105). -/
def valueOf (w : Word32) : ℚ :=
  (if sign w then -1 else 1) *
    (if biasedExp w = 0#8 then ((fraction w).toNat : ℚ) * 2 ^ (-149 : ℤ)
      else (2 ^ 23 + ((fraction w).toNat : ℚ)) * 2 ^ (((biasedExp w).toNat : ℤ) - 150))

/-- Every vector register holds 0 from bit MAXVL on (log 18). -/
def State.vectorsFit (s : State) : Bool :=
  s.v.toList.all fun r => r >>> s.cfg.maxvl.bits == 0#512

/-- Every opmask register holds 0 from bit KW on (R22). -/
def State.opmasksFit (s : State) : Bool :=
  s.k.toList.all fun r => r >>> s.cfg.kw.bits == 0#64

/-- MXCSR[31:16] reads as 0 (R26). -/
def State.mxcsrFits (s : State) : Bool := s.mxcsr.extractLsb' 16 16 == 0#16

/-- THE INVARIANT: memory and program map in canonical form, the reserved bits of MXCSR 0, and no register
holding bits beyond its width. -/
def State.Inv (s : State) : Bool :=
  Memory.wf s.mem && rising s.code && s.mxcsrFits && s.vectorsFit && s.opmasksFit

end Sys2Proof.Machine
end

