-- ==== Sys2Proof/Certificates/Slice0/Obligations.lean ====
section
/-! DEFINITION. The statements for the provers, from the spec's rules: encoding, the step, what each
instruction computes and leaves alone, the exceptions, the arithmetic, reset. -/

open Sys2Proof Sys2Proof.Machine

/-! ### Encoding -/

/-- One word of each of the six rows, from `95_test_vectors.md` section 4 (its rows 1, 5, 7, 18, 27 and 29),
decodes to the instruction written beside it there. -/
def Obligations.DecodesWordsOfTheSpec : Prop :=
  decode .none [0xC4#8, 0xE2#8, 0x69#8, 0x9B#8, 0xCB#8] =
      .ok (.vfmsub132ssVex ⟨[], 1#4, 2#4, .reg 0#1 3#4, 0#1⟩, []) ∧
  decode .none [0xC4#8, 0x62#8, 0x01#8, 0xAB#8, 0x43#8, 0x04#8] =
      .ok (.vfmsub213ssVex ⟨[], 8#4, 15#4, .mem (.base 0#1 3#4 (.d8 4#8)), 0#1⟩, []) ∧
  decode .none [0xC4#8, 0xE2#8, 0x69#8, 0xBB#8, 0x4C#8, 0x24#8, 0x08#8] =
      .ok (.vfmsub231ssVex ⟨[], 1#4, 2#4, .mem (.sib 0#2 4#4 4#4 (.d8 8#8)), 0#1⟩, []) ∧
  decode .none [0x62#8, 0xF2#8, 0x6D#8, 0x08#8, 0x9B#8, 0xCB#8] =
      .ok (.vfmsub132ssEvex ⟨[], 1#5, 2#5, .reg 3#5, 0#3, false, false, 0#2⟩, []) ∧
  decode .none [0x62#8, 0xA2#8, 0x6D#8, 0x00#8, 0xAB#8, 0xCB#8] =
      .ok (.vfmsub213ssEvex ⟨[], 17#5, 18#5, .reg 19#5, 0#3, false, false, 0#2⟩, []) ∧
  decode .none [0x62#8, 0x82#8, 0x6D#8, 0x08#8, 0xBB#8, 0x44#8, 0x88#8, 0x40#8] =
      .ok (.vfmsub231ssEvex
        ⟨[], 16#5, 2#5, .mem (.sib 2#2 9#4 8#4 (.d8 0x40#8)), 0#3, false, false, 0#2⟩, [])

/-- DECODE OF ENCODE. Every well-formed instruction, whatever follows it, decodes to itself, where legacy
prefixes are admitted (R68 to R78). -/
def Obligations.DecodeOfEncode : Prop :=
  ∀ (i : Instr) (rest : List Byte), i.wf = true →
    decode .segmentAndAddressSize (encode i ++ rest) = .ok (i, rest)

/-- ENCODE OF DECODE. What the decoder accepts, under either policy, is well formed and its bytes are those
the encoder writes: no bit of an accepted sequence is dropped or misplaced, and no sequence is accepted
that is not an encoding (R68 to R78). -/
def Obligations.EncodeOfDecode : Prop :=
  ∀ (policy : PrefixPolicy) (bs rest : List Byte) (i : Instr),
    decode policy bs = .ok (i, rest) → i.wf = true ∧ bs = encode i ++ rest

/-- `PREFIXES_ADMITTED` = none: an instruction without legacy prefixes decodes to itself, and one with a
legacy prefix is refused by name (R69, D19; log 15). -/
def Obligations.PolicyNoneRefusesLegacyPrefixes : Prop :=
  ∀ (i : Instr) (rest : List Byte), i.wf = true →
    decode .none (encode i ++ rest) =
      if i.prefixes = [] then .ok (i, rest) else .error .legacyPrefix

/-- Illegal masking, broadcast and length bits (R90, R91, R92): under either policy every such EVEX encoding
that the policy does not refuse for a legacy prefix is rejected as an undefined opcode, and the
instruction raises `#UD` where it reaches execution. -/
def Obligations.IllegalEvexFieldsAreUndefined : Prop :=
  ∀ (form : Form) (o : EvexOperands),
    ((o.z = true ∧ o.aaa = 0#3) ∨ (o.b = true ∧ o.src3.isReg = false) ∨
      (o.ll = 3#2 ∧ ¬ (o.b = true ∧ o.src3.isReg = true))) →
    (∀ (policy : PrefixPolicy) (rest : List Byte), (policy = .none → o.prefixes = []) →
      o.src3.wf = true → o.length ≤ 15 →
      ∃ why, decode policy (encodeEvex form o ++ rest) = .error (.undefinedOpcode why)) ∧
    (∀ s : State, s.mode ≠ .bits32 → exec (form.evex o) s = .fault (.raised .ud s))

/-- Illegal EVEX fixed bits (R89), in the register form: with the other selecting fields those of R75,
`P0[3:2]` = 10b or 11b, or `P1[2]` = 0, is an undefined opcode, and `P0[3:2]` = 01b is refused as not in
scope, the model's choice between the two the rule names (log 14). -/
def Obligations.EvexFixedBitsAreChecked : Prop :=
  ∀ (policy : PrefixPolicy) (p0 p1 p2 modrm : Byte) (form : Form) (rest : List Byte),
    p0.extractLsb' 0 2 = 2#2 → p1.extractLsb' 7 1 = 0#1 → p1.extractLsb' 0 2 = 1#2 →
    modrm.extractLsb' 6 2 = 3#2 →
    (p0.extractLsb' 2 2 = 1#2 →
      decode policy (0x62#8 :: p0 :: p1 :: p2 :: form.opcode :: modrm :: rest) = .error .notInScope) ∧
    (p0.extractLsb' 2 2 ≠ 1#2 → (p0.extractLsb' 2 2 ≠ 0#2 ∨ p1.extractLsb' 2 1 = 0#1) →
      decode policy (0x62#8 :: p0 :: p1 :: p2 :: form.opcode :: modrm :: rest) =
        .error (.undefinedOpcode .fixedBits))

/-- Illegal prefixes (R88): 66H, F2H, F3H, F0H or a REX prefix before any of the six encodings is an
undefined opcode, under either policy. That this holds where admitted prefixes follow the illegal one is the
model's reading (log 15). -/
def Obligations.IllegalPrecedingPrefixIsUndefined : Prop :=
  ∀ (policy : PrefixPolicy) (b : Byte) (i : Instr) (rest : List Byte),
    (b = 0x66#8 ∨ b = 0xF2#8 ∨ b = 0xF3#8 ∨ b = 0xF0#8 ∨ b.extractLsb' 4 4 = 4#4) →
    i.wf = true → i.length + 1 ≤ 15 →
    decode policy (b :: (encode i ++ rest)) = .error (.undefinedOpcode .precedingPrefix)

/-- The W bit (R83): with `W` = 1 both prefix formats are refused as not in scope, not as illegal, whatever
follows the byte that holds it, be it nothing. -/
def Obligations.WOneIsNotInScope : Prop :=
  ∀ (policy : PrefixPolicy) (b1 b2 : Byte) (rest : List Byte), b2.extractLsb' 7 1 = 1#1 →
    decode policy (0xC4#8 :: b1 :: b2 :: rest) = .error .notInScope ∧
    decode policy (0x62#8 :: b1 :: b2 :: rest) = .error .notInScope

/-- Vector length ignored (R81): `VEX.L`, and `L'L` = 00b, 01b or 10b where it is no rounding control,
change nothing of what the instruction does. -/
def Obligations.VectorLengthIsIgnored : Prop :=
  (∀ (form : Form) (o : VexOperands) (l : Bit) (s : State),
    exec (form.vex { o with l := l }) s = exec (form.vex o) s) ∧
  (∀ (form : Form) (o : EvexOperands) (ll : BitVec 2) (s : State),
    (o.b && o.src3.isReg) = false → o.ll ≠ 3#2 → ll ≠ 3#2 →
    exec (form.evex { o with ll := ll }) s = exec (form.evex o) s)

/-- Lengths (R84): without legacy prefixes 5 bytes and 5 to 10 bytes for the register and memory forms of a
VEX encoded version, 6 bytes and 6 to 11 bytes for an EVEX encoded version; each legacy prefix adds 1, and
no instruction the decoder accepts exceeds 15 bytes. -/
def Obligations.EncodedLengths : Prop :=
  (∀ (form : Form) (o : VexOperands),
    (∀ x n, o.src3 = .reg x n → (encode (form.vex o)).length = o.prefixes.length + 5) ∧
    (∀ m, o.src3 = .mem m → o.prefixes.length + 5 ≤ (encode (form.vex o)).length ∧
      (encode (form.vex o)).length ≤ o.prefixes.length + 10)) ∧
  (∀ (form : Form) (o : EvexOperands),
    (∀ n, o.src3 = .reg n → (encode (form.evex o)).length = o.prefixes.length + 6) ∧
    (∀ m, o.src3 = .mem m → o.prefixes.length + 6 ≤ (encode (form.evex o)).length ∧
      (encode (form.evex o)).length ≤ o.prefixes.length + 11)) ∧
  (∀ (policy : PrefixPolicy) (bs rest : List Byte) (i : Instr),
    decode policy bs = .ok (i, rest) → i.length ≤ 15 ∧ bs.length = i.length + rest.length)

/-- Assembler text (R95, R96, R97; which displacement size a tool picks is the model's, log 25). A legal text
whose index register is not RSP assembles to an instruction whose bytes the default decoder accepts, and a
complementary mnemonic assembles to the encoding of its partner. The instruction is the EVEX version when
the text uses a register above 15, a writemask, zeroing, a rounding control or the EVEX marker, and the
VEX version otherwise; of the form the mnemonic's digits name; with the text's destination, second
operand, register or address, writemask, zeroing and rounding control. -/
def Obligations.AssembledTextDecodes : Prop :=
  ∀ (t : AsmText) (form : Form) (needsEvex : Prop), t.legal = true →
    (∀ b i d, t.src3 = .mem (.sum b (some i) d) → i.1 ≠ 4#4) →
    (t.mnemonic, form) ∈ [(Mnemonic.vfmsub132ss, Form.f132), (.vfmsub312ss, .f132), (.vfmsub213ss, .f213),
      (.vfmsub123ss, .f213), (.vfmsub231ss, .f231), (.vfmsub321ss, .f231)] →
    (needsEvex ↔ t.evex = true ∨ 16 ≤ t.d.toNat ∨ 16 ≤ t.s2.toNat ∨
      (∃ n, t.src3 = .reg n ∧ 16 ≤ n.toNat) ∨ t.mask ≠ 0#3 ∨ t.zeroing = true ∨ t.rounding ≠ none) →
    (∀ rest, decode .none (encode (assemble t) ++ rest) = .ok (assemble t, rest)) ∧
    assemble { t with mnemonic := t.mnemonic.complementary } = assemble t ∧
    (¬ needsEvex → ∃ o, assemble t = form.vex o ∧ o.prefixes = [] ∧ vexReg o.d = t.d ∧
      vexReg o.s2 = t.s2 ∧ o.l = 0#1 ∧
      (∀ n, t.src3 = .reg n → ∃ x r, o.src3 = .reg x r ∧ vexReg r = n) ∧
      (∀ m, t.src3 = .mem m → ∃ m', o.src3 = .mem m' ∧
        ∀ (s : State) (nextPc : Word64), s.effectiveAddress [] 1 nextPc m' = s.textAddress nextPc m)) ∧
    (needsEvex → ∃ o, assemble t = form.evex o ∧ o.prefixes = [] ∧ o.d = t.d ∧ o.s2 = t.s2 ∧
      o.aaa = t.mask ∧ o.z = t.zeroing ∧ (o.b = true ↔ t.rounding ≠ none) ∧
      (∀ rm, t.rounding = some rm → RoundMode.ofBits o.ll = rm) ∧ (t.rounding = none → o.ll = 0#2) ∧
      (∀ n, t.src3 = .reg n → o.src3 = .reg n) ∧
      (∀ m, t.src3 = .mem m → ∃ m', o.src3 = .mem m' ∧
        ∀ (s : State) (nextPc : Word64), s.effectiveAddress [] 4 nextPc m' = s.textAddress nextPc m))

/-! ### The step -/

/-- A STEP RUNS THE DECODED INSTRUCTION: when the bytes at `pc` decode to `i`, and the mode is not one the
spec leaves out (log 17), the step is `exec` of `i` (R47). -/
def Obligations.StepRunsDecodedInstruction : Prop :=
  ∀ (s : State) (i : Instr) (rest : List Byte), s.mode ≠ .bits32 →
    decode s.cfg.prefixes (fetchBytes s.code fetchWindow s.fetchAddress) = .ok (i, rest) →
    step s = exec i s

/-- Where the program map holds the encoding of a well-formed instruction at `pc`, in 64-bit mode, the step
executes that instruction (R47, R85). -/
def Obligations.StepExecutesThePlacedEncoding : Prop :=
  ∀ (s : State) (i : Instr), s.mode = .bits64 → i.wf = true →
    (s.cfg.prefixes = .none → i.prefixes = []) →
    (∀ k (h : k < (encode i).length),
      cellAt s.code (s.pc + BitVec.ofNat 64 k).toNat = some ((encode i)[k])) →
    step s = exec i s

/-- Launch (R42, R167; log 1): a well-formed instruction without legacy prefixes, launched from any state,
is what the next step executes, under the launch premises that the processor's features allow. -/
def Obligations.LaunchedInstructionRunsNext : Prop :=
  ∀ (s : State) (i : Instr) (rest : List Byte), i.wf = true → i.prefixes = [] →
    s.hasFma = true → s.hasAvx512f = true →
    (encode i ++ rest).length ≤ 25 →
    (s.launchWith (encode i ++ rest)).ready i = true ∧
    step (s.launchWith (encode i ++ rest)) = exec i (s.launchWith (encode i ++ rest))

/-- No instruction at `pc`: the machine is stuck (R47, R172; log 7), outside the 32-bit modes (log 17). -/
def Obligations.StuckWithoutInstruction : Prop :=
  ∀ s : State, s.mode ≠ .bits32 → cellAt s.code s.fetchAddress.toNat = none →
    step s = .fault (.stuck s)

/-- An illegal form of these instructions at `pc` is the fault `#UD`, with nothing changed (R87, R157),
outside the 32-bit modes (log 17). -/
def Obligations.StepRaisesUdOnIllegalForm : Prop :=
  ∀ (s : State) (why : IllegalForm), s.mode ≠ .bits32 →
    decode s.cfg.prefixes (fetchBytes s.code fetchWindow s.fetchAddress) =
      .error (.undefinedOpcode why) →
    step s = .fault (.raised .ud s)

/-! ### What each instruction computes: completion -/

/-- VFMSUB132SS, VEX: with the launch premises, operand 3 available and the exceptions masked, the
instruction completes with `round(D * S3 - S2)`, multiplicand D, multiplier S3, subtrahend S2, in the mode
MXCSR.RM (R126, R127). The parameter `fmsub32` is the default body here and in the five statements after;
ArithmeticDecidesTheOutcome is about every one (log 26). -/
def Obligations.Vfmsub132ssVexCompletes : Prop :=
  ∀ (o : VexOperands) (s : State) (s3 : Word32),
    s.cfg.fmsub32 = .reference → s.vexReady = true → allMasked s.mxcsr = true → s.vexSrc3 o = .ok s3 →
    ∃ r f, fmsub32 (s.low32 (vexReg o.d)) s3 (s.low32 (vexReg o.s2)) (mxcsrRound s.mxcsr) s.mxcsr false
        = .result r f ∧
      exec (.vfmsub132ssVex o) s = .next (s.complete (vexReg o.d) r f o.length)

/-- VFMSUB213SS, VEX: completes with `round(S2 * D - S3)` (R126, R128). -/
def Obligations.Vfmsub213ssVexCompletes : Prop :=
  ∀ (o : VexOperands) (s : State) (s3 : Word32),
    s.cfg.fmsub32 = .reference → s.vexReady = true → allMasked s.mxcsr = true → s.vexSrc3 o = .ok s3 →
    ∃ r f, fmsub32 (s.low32 (vexReg o.s2)) (s.low32 (vexReg o.d)) s3 (mxcsrRound s.mxcsr) s.mxcsr false
        = .result r f ∧
      exec (.vfmsub213ssVex o) s = .next (s.complete (vexReg o.d) r f o.length)

/-- VFMSUB231SS, VEX: completes with `round(S2 * S3 - D)` (R126, R129). -/
def Obligations.Vfmsub231ssVexCompletes : Prop :=
  ∀ (o : VexOperands) (s : State) (s3 : Word32),
    s.cfg.fmsub32 = .reference → s.vexReady = true → allMasked s.mxcsr = true → s.vexSrc3 o = .ok s3 →
    ∃ r f, fmsub32 (s.low32 (vexReg o.s2)) s3 (s.low32 (vexReg o.d)) (mxcsrRound s.mxcsr) s.mxcsr false
        = .result r f ∧
      exec (.vfmsub231ssVex o) s = .next (s.complete (vexReg o.d) r f o.length)

/-- VFMSUB132SS, EVEX, element on: with the launch premises, legal fields, operand 3 available, and the
exceptions masked or suppressed by an embedded rounding control, completes with `round(D * S3 - S2)`, in
the mode EVEX.RC under the embedded rounding control and MXCSR.RM otherwise (R132, R134, R136). -/
def Obligations.Vfmsub132ssEvexCompletes : Prop :=
  ∀ (o : EvexOperands) (s : State) (s3 : Word32),
    s.cfg.fmsub32 = .reference →
    s.evexReady = true → o.illegal = false → (o.aaa = 0#3 ∨ (s.opmask o.aaa).getLsbD 0 = true) →
    (allMasked s.mxcsr = true ∨ (o.b = true ∧ o.src3.isReg = true)) → s.evexSrc3 o = .ok s3 →
    ∃ r f, fmsub32 (s.low32 o.d) s3 (s.low32 o.s2)
        (if o.b && o.src3.isReg then RoundMode.ofBits o.ll else mxcsrRound s.mxcsr) s.mxcsr
        (o.b && o.src3.isReg) = .result r f ∧
      exec (.vfmsub132ssEvex o) s = .next (s.complete o.d r f o.length)

/-- VFMSUB213SS, EVEX, element on: completes with `round(S2 * D - S3)` (R132, R134, R137). -/
def Obligations.Vfmsub213ssEvexCompletes : Prop :=
  ∀ (o : EvexOperands) (s : State) (s3 : Word32),
    s.cfg.fmsub32 = .reference →
    s.evexReady = true → o.illegal = false → (o.aaa = 0#3 ∨ (s.opmask o.aaa).getLsbD 0 = true) →
    (allMasked s.mxcsr = true ∨ (o.b = true ∧ o.src3.isReg = true)) → s.evexSrc3 o = .ok s3 →
    ∃ r f, fmsub32 (s.low32 o.s2) (s.low32 o.d) s3
        (if o.b && o.src3.isReg then RoundMode.ofBits o.ll else mxcsrRound s.mxcsr) s.mxcsr
        (o.b && o.src3.isReg) = .result r f ∧
      exec (.vfmsub213ssEvex o) s = .next (s.complete o.d r f o.length)

/-- VFMSUB231SS, EVEX, element on: completes with `round(S2 * S3 - D)` (R132, R134, R138). -/
def Obligations.Vfmsub231ssEvexCompletes : Prop :=
  ∀ (o : EvexOperands) (s : State) (s3 : Word32),
    s.cfg.fmsub32 = .reference →
    s.evexReady = true → o.illegal = false → (o.aaa = 0#3 ∨ (s.opmask o.aaa).getLsbD 0 = true) →
    (allMasked s.mxcsr = true ∨ (o.b = true ∧ o.src3.isReg = true)) → s.evexSrc3 o = .ok s3 →
    ∃ r f, fmsub32 (s.low32 o.s2) s3 (s.low32 o.d)
        (if o.b && o.src3.isReg then RoundMode.ofBits o.ll else mxcsrRound s.mxcsr) s.mxcsr
        (o.b && o.src3.isReg) = .result r f ∧
      exec (.vfmsub231ssEvex o) s = .next (s.complete o.d r f o.length)

/-- All six, whatever the masks and the parameter `fmsub32`: an instruction whose arithmetic gives a result
completes with that result, and one whose arithmetic traps raises the SIMD floating-point exception,
`#XM` or with CR4.OSXMMEXCPT = 0 `#UD` (R126 steps 4 to 7, R132 step 4, R146). That MXCSR changes with that `#UD` too is
the model's reading (log 13). -/
def Obligations.ArithmeticDecidesTheOutcome : Prop :=
  (∀ (form : Form) (o : VexOperands) (s : State) (s3 : Word32) (t : Factors),
    s.vexReady = true → s.vexSrc3 o = .ok s3 →
    t = factorsOf form (s.low32 (vexReg o.d)) (s.low32 (vexReg o.s2)) s3 →
    (∀ r f, arithmetic s.cfg.fmsub32 t.x t.y t.z (mxcsrRound s.mxcsr) s.mxcsr false = .result r f →
      exec (form.vex o) s = .next (s.complete (vexReg o.d) r f o.length)) ∧
    (∀ c, arithmetic s.cfg.fmsub32 t.x t.y t.z (mxcsrRound s.mxcsr) s.mxcsr false = .trap c →
      exec (form.vex o) s =
        .fault (.raised (if s.cr4.getLsbD 10 then .xm else .ud) (s.withTrapFlags c)))) ∧
  (∀ (form : Form) (o : EvexOperands) (s : State) (s3 : Word32) (t : Factors),
    s.evexReady = true → o.illegal = false → s.elementOn o.aaa = true → s.evexSrc3 o = .ok s3 →
    t = factorsOf form (s.low32 o.d) (s.low32 o.s2) s3 →
    (∀ r f, arithmetic s.cfg.fmsub32 t.x t.y t.z (s.evexRound o) s.mxcsr (embeddedRounding o) = .result r f →
      exec (form.evex o) s = .next (s.complete o.d r f o.length)) ∧
    (∀ c, arithmetic s.cfg.fmsub32 t.x t.y t.z (s.evexRound o) s.mxcsr (embeddedRounding o) = .trap c →
      exec (form.evex o) s =
        .fault (.raised (if s.cr4.getLsbD 10 then .xm else .ud) (s.withTrapFlags c))))

/-- Masked off (R133, R139): with bit 0 of the writemask 0, and operand 3 a register or readable, all three
EVEX encoded versions complete with the old low doubleword under merging-masking and 0 under
zeroing-masking; no flag is set and nothing is raised, whatever the sources hold and whatever is
unmasked. -/
def Obligations.MaskedOffCompletes : Prop :=
  ∀ (form : Form) (o : EvexOperands) (s : State),
    s.evexReady = true → o.illegal = false → o.aaa ≠ 0#3 → (s.opmask o.aaa).getLsbD 0 = false →
    (∀ m, o.src3 = .mem m →
      s.canRead (s.linearAddress o.prefixes 4 (s.pc + BitVec.ofNat 64 o.length) m) 4 = true) →
    exec (form.evex o) s =
      .next { s with
        v := s.v.set o.d.toNat
          (writeLow32 s.cfg.maxvl (s.vreg o.d) (if o.z then 0#32 else s.low32 o.d)) o.d.isLt
        pc := s.pc + BitVec.ofNat 64 o.length
        draws := s.draws + 1 }

/-- Masked-off memory form whose operand is not readable (R55, R140): under `Suppressed` it completes; under
`MayFault` it raises MemFault or completes, and both are admitted (free value, log 10). -/
def Obligations.MaskedOffUnreadableOperand : Prop :=
  ∀ (form : Form) (o : EvexOperands) (s : State) (m : MemOperand) (a : Word64),
    s.evexReady = true → o.illegal = false → s.elementOn o.aaa = false → o.src3 = .mem m →
    a = s.linearAddress o.prefixes 4 (s.pc + BitVec.ofNat 64 o.length) m → s.canRead a 4 = false →
    (s.cfg.maskedFaults = .suppressed →
      exec (form.evex o) s = .next (s.complete o.d (s.maskedResult o) FpFlags.none o.length)) ∧
    (s.cfg.maskedFaults = .mayFault →
      exec (form.evex o) s = .fault (.raised (.memFault a) s) ∨
      exec (form.evex o) s = .next (s.complete o.d (s.maskedResult o) FpFlags.none o.length))

/-- Suppress all exceptions (R135): under an embedded rounding control, whatever the masks, the three EVEX
encoded versions complete with MXCSR unchanged, `fmsub32` being the default body (log 26). -/
def Obligations.EmbeddedRoundingSuppressesExceptions : Prop :=
  ∀ (form : Form) (o : EvexOperands) (s : State) (n : BitVec 5),
    s.cfg.fmsub32 = .reference →
    s.evexReady = true → o.illegal = false → o.b = true → o.src3 = .reg n →
    ∃ t, exec (form.evex o) s = .next t ∧ t.mxcsr = s.mxcsr

/-- Agreement of the two versions (R142): with no writemask and `b` = 0, with the same destination and
second operand and the same value of operand 3 (or the same exception on reading it), an EVEX encoded
version does what the VEX encoded version of the same mnemonic does, but for the length added to `pc`. -/
def Obligations.EvexAgreesWithVex : Prop :=
  ∀ (form : Form) (ov : VexOperands) (oe : EvexOperands) (s : State),
    s.vexEnabled = true → s.evexEnabled = true → oe.illegal = false →
    oe.d = vexReg ov.d → oe.s2 = vexReg ov.s2 → oe.aaa = 0#3 → oe.b = false →
    s.evexSrc3 oe = s.vexSrc3 ov →
    (∀ t, exec (form.vex ov) s = .next t →
      exec (form.evex oe) s = .next { t with pc := s.pc + BitVec.ofNat 64 oe.length }) ∧
    (∀ x, exec (form.vex ov) s = .fault x ↔ exec (form.evex oe) s = .fault x) ∧
    (∀ x, exec (form.vex ov) s ≠ .refused x ∧ exec (form.evex oe) s ≠ .refused x)

/-! ### What instructions leave alone: frames and invariants -/

/-- The write to the destination register (R21): bits 31:0 receive `r`, bits 127:32 are unchanged, bits
MAXVL-1:128 are zeroed; no other vector register changes. -/
def Obligations.DestinationWrite : Prop :=
  ∀ (s : State) (d : BitVec 5) (r : Word32) (f : FpFlags) (len : Nat),
    ((s.complete d r f len).vreg d).extractLsb' 0 32 = r ∧
    ((s.complete d r f len).vreg d).extractLsb' 32 96 = (s.vreg d).extractLsb' 32 96 ∧
    (∀ j, 128 ≤ j → j < s.cfg.maxvl.bits → ((s.complete d r f len).vreg d).getLsbD j = false) ∧
    (∀ j : BitVec 5, j ≠ d → (s.complete d r f len).vreg j = s.vreg j)

/-- FRAME of all six instructions (R126, R132: "State written: V[d], MXCSR[5:0], pc. Nothing else"): when
one gives a next state, every other vector register, bits 127:32 of the destination, every opmask and
general register, every control and system register, every flag of EFLAGS, every bit of MXCSR but IE, DE,
OE, UE and PE, every byte of memory and of the program are unchanged, bits MAXVL-1:128 of the destination
are 0, and `pc` advances by the length. -/
def Obligations.InstructionFrame : Prop :=
  ∀ (i : Instr) (s t : State), exec i s = .next t →
    sameOutsideResult s t ∧
    (∀ j : BitVec 5, j ≠ destination i → t.vreg j = s.vreg j) ∧
    (t.vreg (destination i)).extractLsb' 32 96 = (s.vreg (destination i)).extractLsb' 32 96 ∧
    (∀ j, 128 ≤ j → j < s.cfg.maxvl.bits → (t.vreg (destination i)).getLsbD j = false) ∧
    (∀ j, j ∉ [0, 1, 3, 4, 5] → t.mxcsr.getLsbD j = s.mxcsr.getLsbD j) ∧
    (∀ a : Word64, t.memByte a = s.memByte a) ∧
    t.pc = s.pc + BitVec.ofNat 64 i.length

/-- The MXCSR flags are sticky (R27): a step that gives a next state clears no bit of MXCSR, and sets none
but IE, DE, OE, UE, PE; in particular ZE, the masks, DAZ, FTZ and the rounding control stay (R122). -/
def Obligations.MxcsrFlagsAreSticky : Prop :=
  ∀ s t : State, step s = .next t →
    ∀ j, (s.mxcsr.getLsbD j = true → t.mxcsr.getLsbD j = true) ∧
      (t.mxcsr.getLsbD j = true → s.mxcsr.getLsbD j = true ∨ j ∈ [0, 1, 3, 4, 5])

/-- INVARIANT. Every step keeps: memory and program map in canonical form, MXCSR[31:16] 0, no vector
register holding bits beyond MAXVL (log 18) and no opmask register beyond KW. -/
def Obligations.StepKeepsInvariant : Prop :=
  ∀ s t : State, s.Inv = true → step s = .next t → t.Inv = true

/-- The invariant holds at reset. -/
def Obligations.ResetMeetsInvariant : Prop := State.reset.Inv = true

/-- A step is a straight line (R34, R165): a step that gives a next state adds to `pc` the length of one
instruction, 5 to 15 bytes, and changes neither the program, nor the memory, nor a register an address
is formed from (R46, R47). -/
def Obligations.StepAdvancesPcAndStoresNothing : Prop :=
  ∀ s t : State, step s = .next t →
    (∃ len, 5 ≤ len ∧ len ≤ 15 ∧ t.pc = s.pc + BitVec.ofNat 64 len) ∧
    t.code = s.code ∧ t.mem = s.mem ∧ t.readable = s.readable ∧ t.gpr = s.gpr ∧ t.cfg = s.cfg ∧
    t.mode = s.mode

/-! ### Exceptions -/

/-- `#UD` by feature, enabling or mode (R149 rows 1 to 5), outside the 32-bit modes, which the model leaves
out (log 17): each condition of the table alone is enough. -/
def Obligations.UndefinedWhereNotEnabled : Prop :=
  ∀ (form : Form) (s : State), s.mode ≠ .bits32 →
    (∀ o : VexOperands,
      (s.cfg.cpuid1Ecx.getLsbD 12 = false ∨ s.cr4.getLsbD 18 = false ∨
        s.xcr0.extractLsb' 1 2 ≠ 3#2 ∨ s.cr0.getLsbD 0 = false ∨ s.eflags.getLsbD 17 = true) →
      exec (form.vex o) s = .fault (.raised .ud s)) ∧
    (∀ o : EvexOperands,
      (s.cfg.cpuid7Ebx.getLsbD 16 = false ∨ s.cr4.getLsbD 18 = false ∨
        s.xcr0.extractLsb' 1 2 ≠ 3#2 ∨ s.xcr0.extractLsb' 5 3 ≠ 7#3 ∨ s.cr0.getLsbD 0 = false ∨
        s.eflags.getLsbD 17 = true) →
      exec (form.evex o) s = .fault (.raised .ud s))

/-- `#NM` (R153): with CR0.TS = 1, and no `#UD` condition, every encoding raises `#NM`, whatever its
operands, readable or not; the launch state has CR0.TS = 0. -/
def Obligations.DeviceNotAvailable : Prop :=
  (∀ s : State, s.launch.cr0.getLsbD 3 = false) ∧
  ∀ (form : Form) (s : State), s.cr0.getLsbD 3 = true →
    (∀ o : VexOperands, s.vexEnabled = true → exec (form.vex o) s = .fault (.raised .nm s)) ∧
    (∀ o : EvexOperands, s.evexEnabled = true → o.illegal = false →
      exec (form.evex o) s = .fault (.raised .nm s))

/-- MemFault (R52, R154): a memory form whose element is on and whose operand is not readable raises
MemFault at the operand's linear address (log 8), with nothing changed. -/
def Obligations.UnreadableOperandFaults : Prop :=
  (∀ (form : Form) (o : VexOperands) (m : MemOperand) (a : Word64) (s : State),
    s.vexReady = true → o.src3 = .mem m →
    a = s.linearAddress o.prefixes 1 (s.pc + BitVec.ofNat 64 o.length) m → s.canRead a 4 = false →
    exec (form.vex o) s = .fault (.raised (.memFault a) s)) ∧
  (∀ (form : Form) (o : EvexOperands) (m : MemOperand) (a : Word64) (s : State),
    s.evexReady = true → o.illegal = false → s.elementOn o.aaa = true → o.src3 = .mem m →
    a = s.linearAddress o.prefixes 4 (s.pc + BitVec.ofNat 64 o.length) m → s.canRead a 4 = false →
    exec (form.evex o) s = .fault (.raised (.memFault a) s))

/-- `#AC(0)` (R51, R155): where a memory form reads its operand and the operand is readable, the instruction
raises `#AC` when CR0.AM, EFLAGS.AC and CPL = 3 put alignment checking in force and the effective address
is no multiple of 4; otherwise the operand is the little-endian doubleword there, whatever the
alignment. That the check looks at the effective address, before a segment base is added, while the
operand is read at the linear address, and that it comes after MemFault, is the model's reading
(log 20). -/
def Obligations.AlignmentCheck : Prop :=
  (∀ (form : Form) (o : VexOperands) (m : MemOperand) (ea a : Word64) (s : State),
    s.vexReady = true → o.src3 = .mem m →
    ea = s.effectiveAddress o.prefixes 1 (s.pc + BitVec.ofNat 64 o.length) m →
    a = s.linearAddress o.prefixes 1 (s.pc + BitVec.ofNat 64 o.length) m → s.canRead a 4 = true →
    if (s.cr0.getLsbD 18 = true ∧ s.eflags.getLsbD 18 = true ∧ s.cpl = 3#2) ∧ ea.toNat % 4 ≠ 0
    then exec (form.vex o) s = .fault (.raised .ac s)
    else s.vexSrc3 o = .ok (s.dwordAt a)) ∧
  (∀ (form : Form) (o : EvexOperands) (m : MemOperand) (ea a : Word64) (s : State),
    s.evexReady = true → o.illegal = false → s.elementOn o.aaa = true → o.src3 = .mem m →
    ea = s.effectiveAddress o.prefixes 4 (s.pc + BitVec.ofNat 64 o.length) m →
    a = s.linearAddress o.prefixes 4 (s.pc + BitVec.ofNat 64 o.length) m → s.canRead a 4 = true →
    if (s.cr0.getLsbD 18 = true ∧ s.eflags.getLsbD 18 = true ∧ s.cpl = 3#2) ∧ ea.toNat % 4 ≠ 0
    then exec (form.evex o) s = .fault (.raised .ac s)
    else s.evexSrc3 o = .ok (s.dwordAt a))

/-- The state a SIMD floating-point exception leaves (R147, R157): MXCSR keeps every bit that was set, has
the flag of the trapping exception set, and differs nowhere but in IE, DE, OE, UE and PE; all else is
unchanged, whatever the free value (log 11). -/
def Obligations.TrapSetsItsFlag : Prop :=
  ∀ (s : State) (c : FpException),
    (s.withTrapFlags c).mxcsr.getLsbD c.flagBit = true ∧
    (∀ j, s.mxcsr.getLsbD j = true → (s.withTrapFlags c).mxcsr.getLsbD j = true) ∧
    (∀ j, j ∉ [0, 1, 3, 4, 5] → (s.withTrapFlags c).mxcsr.getLsbD j = s.mxcsr.getLsbD j) ∧
    { s.withTrapFlags c with mxcsr := s.mxcsr } = s

/-- Every fault is precise (R157, R158). An instruction that raises an exception leaves the state as it was,
unless its arithmetic traps: then the exception is `#XM`, or with CR4.OSXMMEXCPT = 0 `#UD`, and nothing
but MXCSR changes (that it changes with that `#UD` too is the model's reading, log 13). So a `#UD` of
R149 rows 1 to 7, `#NM`, MemFault and `#AC` change nothing; that MemFault leaves CR2 unchanged, where R148
lets a page fault record its address, is the model's choice (log 8). A step raises what its instruction
raises, or `#UD` with nothing changed where the decoder finds an illegal form. -/
def Obligations.FaultsArePrecise : Prop :=
  (∀ (form : Form) (o : VexOperands) (s after : State) (e : ExceptionName),
    exec (form.vex o) s = .fault (.raised e after) →
    { after with mxcsr := s.mxcsr } = s ∧
    ((after = s ∧ e ≠ .xm) ∨
      ∃ s3 c, s.vexReady = true ∧ s.vexSrc3 o = .ok s3 ∧
        vexArith (factorsOf form (s.low32 (vexReg o.d)) (s.low32 (vexReg o.s2)) s3) s = .trap c ∧
        e = (if s.cr4.getLsbD 10 then .xm else .ud) ∧ after = s.withTrapFlags c)) ∧
  (∀ (form : Form) (o : EvexOperands) (s after : State) (e : ExceptionName),
    exec (form.evex o) s = .fault (.raised e after) →
    { after with mxcsr := s.mxcsr } = s ∧
    ((after = s ∧ e ≠ .xm) ∨
      ∃ s3 c, s.evexReady = true ∧ o.illegal = false ∧ s.elementOn o.aaa = true ∧
        s.evexSrc3 o = .ok s3 ∧
        evexArith o (factorsOf form (s.low32 o.d) (s.low32 o.s2) s3) s = .trap c ∧
        e = (if s.cr4.getLsbD 10 then .xm else .ud) ∧ after = s.withTrapFlags c)) ∧
  (∀ (s after : State) (e : ExceptionName), step s = .fault (.raised e after) →
    (∃ i rest, decode s.cfg.prefixes s.window = .ok (i, rest) ∧
      exec i s = .fault (.raised e after)) ∨
    (∃ why, decode s.cfg.prefixes s.window = .error (.undefinedOpcode why) ∧ e = .ud ∧ after = s))

/-- Priority (R156): an exception is reported only where none before it in the order `#UD`, `#NM`, memory
fault, `#AC`, SIMD applies. A SIMD exception is `#XM`, or the `#UD` of an instruction that is recognised,
enabled and legal; before it every other has been found not to apply, so that operand 3 has been read.
That a reported `#AC` means a readable operand, memory faults coming before it, is the model's choice of
an order no rule relies on (log 20); that an embedded rounding control excludes the SIMD exception is a
property of the default body of `fmsub32` (log 26). -/
def Obligations.ExceptionPriority : Prop :=
  (∀ (form : Form) (o : VexOperands) (s after : State) (e : ExceptionName) (simd : Prop),
    (simd ↔ e = .xm ∨ (e = .ud ∧ s.vexEnabled = true)) →
    exec (form.vex o) s = .fault (.raised e after) →
    (e ≠ .ud → s.vexEnabled = true) ∧
    ((e ≠ .ud ∧ e ≠ .nm) ∨ simd → s.taskSwitched = false) ∧
    (∀ m, e = .ac ∨ simd → o.src3 = .mem m →
      s.canRead (s.linearAddress o.prefixes 1 (s.pc + BitVec.ofNat 64 o.length) m) 4 = true) ∧
    (∀ m, simd → o.src3 = .mem m → s.acEnabled = true →
      (s.effectiveAddress o.prefixes 1 (s.pc + BitVec.ofNat 64 o.length) m).toNat % 4 = 0) ∧
    (simd → ∃ s3 c, s.vexSrc3 o = .ok s3 ∧
      vexArith (factorsOf form (s.low32 (vexReg o.d)) (s.low32 (vexReg o.s2)) s3) s = .trap c)) ∧
  (∀ (form : Form) (o : EvexOperands) (s after : State) (e : ExceptionName) (simd : Prop),
    (simd ↔ e = .xm ∨ (e = .ud ∧ s.evexEnabled = true ∧ o.illegal = false)) →
    exec (form.evex o) s = .fault (.raised e after) →
    (e ≠ .ud → s.evexEnabled = true ∧ o.illegal = false) ∧
    ((e ≠ .ud ∧ e ≠ .nm) ∨ simd → s.taskSwitched = false) ∧
    (∀ m, e = .ac ∨ simd → o.src3 = .mem m →
      s.canRead (s.linearAddress o.prefixes 4 (s.pc + BitVec.ofNat 64 o.length) m) 4 = true) ∧
    (∀ m, simd → o.src3 = .mem m → s.acEnabled = true →
      (s.effectiveAddress o.prefixes 4 (s.pc + BitVec.ofNat 64 o.length) m).toNat % 4 = 0) ∧
    (simd → s.elementOn o.aaa = true ∧
      (s.cfg.fmsub32 = .reference → embeddedRounding o = false) ∧
      ∃ s3 c, s.evexSrc3 o = .ok s3 ∧
        evexArith o (factorsOf form (s.low32 o.d) (s.low32 o.s2) s3) s = .trap c))

/-- With all launch premises true, alignment checking off and the masks set, the only outcomes of an
instruction are completion and MemFault (R168), `fmsub32` being the default body (log 26). -/
def Obligations.OnlyCompletionOrMemFault : Prop :=
  ∀ (i : Instr) (s : State), s.cfg.fmsub32 = .reference → s.ready i = true →
    allMasked s.mxcsr = true → s.acEnabled = false →
    (∃ t, exec i s = .next t) ∨ (∃ a, exec i s = .fault (.raised (.memFault a) s))

/-- Privilege (R163): with alignment checking not in force, an instruction does the same at every current
privilege level. -/
def Obligations.PrivilegeLevelDoesNotMatter : Prop :=
  ∀ (i : Instr) (s : State) (c : BitVec 2),
    (s.cr0.getLsbD 18 = false ∨ s.eflags.getLsbD 18 = false ∨ (s.cpl ≠ 3#2 ∧ c ≠ 3#2)) →
    exec i { s with cpl := c } = mapOutcome (fun t => { t with cpl := c }) (exec i s)

/-! ### Memory and addresses -/

/-- Little-endian (R50): after four bytes are placed at increasing addresses, the doubleword there has the
first byte in its bits 7:0 and the last in its bits 31:24; that addresses wrap modulo 2^64 is the model's
(log 23). -/
def Obligations.LittleEndianDoubleword : Prop :=
  ∀ (s : State) (a : Word64) (b0 b1 b2 b3 : Byte), Memory.wf s.mem = true →
    ({ s with mem := placeData s.mem a [b0, b1, b2, b3] } : State).dwordAt a = b3 ++ b2 ++ b1 ++ b0

/-- The effective address in full (R56, R57, R58), computed on numbers modulo 2^64: base, index times the
power of the scale, displacement sign-extended and, if it is 8 bits wide, multiplied by 1 or 4; index 4 is
no index; without 67H. -/
def Obligations.EffectiveAddressForms : Prop :=
  ∀ (s : State) (p : List LegacyPrefix) (n8 : Nat) (nx : Word64), LegacyPrefix.addressSize ∉ p →
    (∀ x b d, ((s.effectiveAddress p n8 nx (.ripRel x b d)).toNat : Int) =
      (nx.toNat + d.toInt) % 2 ^ 64) ∧
    (∀ x r d, ((s.effectiveAddress p n8 nx (.base x r (.d8 d))).toNat : Int) =
      ((s.gprAt r).toNat + d.toInt * n8) % 2 ^ 64) ∧
    (∀ x r d, ((s.effectiveAddress p n8 nx (.base x r (.d32 d))).toNat : Int) =
      ((s.gprAt r).toNat + d.toInt) % 2 ^ 64) ∧
    (∀ x r, s.effectiveAddress p n8 nx (.base x r .none) = s.gprAt r) ∧
    (∀ sc i b d, i ≠ 4#4 → ((s.effectiveAddress p n8 nx (.sib sc i b (.d8 d))).toNat : Int) =
      ((s.gprAt b).toNat + (s.gprAt i).toNat * 2 ^ sc.toNat + d.toInt * n8) % 2 ^ 64) ∧
    (∀ sc i b d, i ≠ 4#4 → ((s.effectiveAddress p n8 nx (.sib sc i b (.d32 d))).toNat : Int) =
      ((s.gprAt b).toNat + (s.gprAt i).toNat * 2 ^ sc.toNat + d.toInt) % 2 ^ 64) ∧
    (∀ sc i b, i ≠ 4#4 → ((s.effectiveAddress p n8 nx (.sib sc i b .none)).toNat : Int) =
      ((s.gprAt b).toNat + (s.gprAt i).toNat * 2 ^ sc.toNat : Int) % 2 ^ 64) ∧
    (∀ sc b d, s.effectiveAddress p n8 nx (.sib sc 4#4 b d) =
      s.effectiveAddress p n8 nx (.base 0#1 b d)) ∧
    (∀ sc i b d, i ≠ 4#4 → ((s.effectiveAddress p n8 nx (.sibNoBase sc i b d)).toNat : Int) =
      ((s.gprAt i).toNat * 2 ^ sc.toNat + d.toInt) % 2 ^ 64) ∧
    (∀ sc b d, s.effectiveAddress p n8 nx (.sibNoBase sc 4#4 b d) = d.signExtend 64)

/-- Segment and address size (R59): with 67H the sum is taken modulo 2^32; the linear address adds the FS
base with 64H, the GS base with 65H, and nothing without them. Where both are present one of the two is
added, and the spec does not say which (log 12). -/
def Obligations.SegmentAndAddressSize : Prop :=
  ∀ (s : State) (p : List LegacyPrefix) (n8 : Nat) (nx : Word64) (m : MemOperand),
    (LegacyPrefix.addressSize ∈ p → (s.effectiveAddress p n8 nx m).toNat =
      (s.effectiveAddress [] n8 nx m).toNat % 2 ^ 32) ∧
    (LegacyPrefix.fs ∉ p → LegacyPrefix.gs ∉ p →
      s.linearAddress p n8 nx m = s.effectiveAddress p n8 nx m) ∧
    (LegacyPrefix.fs ∈ p → LegacyPrefix.gs ∉ p →
      s.linearAddress p n8 nx m = s.effectiveAddress p n8 nx m + s.fsBase) ∧
    (LegacyPrefix.fs ∉ p → LegacyPrefix.gs ∈ p →
      s.linearAddress p n8 nx m = s.effectiveAddress p n8 nx m + s.gsBase) ∧
    (LegacyPrefix.fs ∈ p → LegacyPrefix.gs ∈ p →
      s.linearAddress p n8 nx m = s.effectiveAddress p n8 nx m + s.fsBase ∨
      s.linearAddress p n8 nx m = s.effectiveAddress p n8 nx m + s.gsBase)

/-! ### The arithmetic -/

/-- The integers of the model are the values of the format (R105): for a finite word, `scaled` is the
value times 2^149. -/
def Obligations.ScaledIsTheValue : Prop :=
  ∀ w : Word32, isFinite w = true → (scaled w : ℚ) = valueOf w * 2 ^ 149

/-- NaN operands (R108, R109, R119, R120, R121): the result is the first NaN in the order x, y, z with
bit 22 set; Invalid is the only exception, detected exactly when an operand is signalling. -/
def Obligations.NanOperands : Prop :=
  ∀ (x y z n : Word32) (rm : RoundMode) (mxcsr : Word32) (sae : Bool),
    (isNaN x = true ∨ isNaN y = true ∨ isNaN z = true) →
    n = (if isNaN x then x else if isNaN y then y else z) →
    fmsub32 x y z rm mxcsr sae =
      if sae then .result (n ||| 0x00400000#32) {}
      else if isSNaN x || isSNaN y || isSNaN z then
        if mxcsr.getLsbD 7 then .result (n ||| 0x00400000#32) { ie := true } else .trap .invalid
      else .result (n ||| 0x00400000#32) {}

/-- Infinities without a NaN (R110, R111, R113), on operands after DAZ: infinity times zero and infinity
minus infinity give FFC00000H and Invalid alone; otherwise an infinite product gives the infinity of its
sign and an infinite subtrahend the infinity of the opposite sign, exactly, with no flag but DE. -/
def Obligations.InfiniteOperands : Prop :=
  ∀ (x y z : Word32) (rm : RoundMode) (ftz um : Bool),
    isNaN x = false → isNaN y = false → isNaN z = false →
    ((isInf x = true ∧ isZero y = true ∨ isZero x = true ∧ isInf y = true) →
      fmsubCore x y z rm ftz um = (0xFFC00000#32, { ie := true })) ∧
    (¬ (isInf x = true ∧ isZero y = true ∨ isZero x = true ∧ isInf y = true) →
      (isInf x = true ∨ isInf y = true) → isInf z = true → (sign x ^^ sign y) = sign z →
      fmsubCore x y z rm ftz um = (0xFFC00000#32, { ie := true })) ∧
    (¬ (isInf x = true ∧ isZero y = true ∨ isZero x = true ∧ isInf y = true) →
      (isInf x = true ∨ isInf y = true) → ¬ (isInf z = true ∧ (sign x ^^ sign y) = sign z) →
      fmsubCore x y z rm ftz um =
        ((if sign x ^^ sign y then 0xFF800000#32 else 0x7F800000#32),
          { de := isDenormal x || isDenormal y || isDenormal z })) ∧
    (isInf x = false → isInf y = false → isInf z = true →
      fmsubCore x y z rm ftz um =
        ((if sign z then 0x7F800000#32 else 0xFF800000#32),
          { de := isDenormal x || isDenormal y || isDenormal z }))

/-- Exact zero (R114), on finite operands after DAZ with `x*y = z` exactly: two zero terms of like sign give
the zero of that sign, everything else +0, or -0 when rounding down; no flag but DE. -/
def Obligations.ExactZero : Prop :=
  ∀ (x y z : Word32) (rm : RoundMode) (ftz um : Bool),
    isFinite x = true → isFinite y = true → isFinite z = true →
    scaled x * scaled y = scaled z * 2 ^ 149 →
    fmsubCore x y z rm ftz um =
      ((if (isZero x = true ∨ isZero y = true) ∧ (sign x ^^ sign y) = !(sign z) then
          (if sign x ^^ sign y then 0x80000000#32 else 0#32)
        else if rm = .down then 0x80000000#32 else 0#32),
        { de := isDenormal x || isDenormal y || isDenormal z })

/-- Overflow (R116): when the exact value rounded to 24 bits exceeds the range, OE and PE are detected and
the masked result is the table's. -/
def Obligations.OverflowResults : Prop :=
  ∀ (v : Int) (rm : RoundMode) (ftz um : Bool), v ≠ 0 →
    127 < (round24 v.natAbs rm (decide (v < 0))).e →
    roundValue v rm ftz um =
      ((match rm, decide (v < 0) with
        | .nearestEven, false => 0x7F800000#32
        | .nearestEven, true => 0xFF800000#32
        | .down, false => 0x7F7FFFFF#32
        | .down, true => 0xFF800000#32
        | .up, false => 0x7F800000#32
        | .up, true => 0xFF7FFFFF#32
        | .towardZero, false => 0x7F7FFFFF#32
        | .towardZero, true => 0xFF7FFFFF#32), { oe := true, pe := true })

/-- Flush to zero (R118), on finite operands after DAZ: when FTZ is in force and the underflow exception is
masked, a tiny result is the zero of its sign and reports UE and PE, and no result is a denormal; a
result that is not tiny is not affected, and with the underflow exception unmasked FTZ has no effect. -/
def Obligations.FlushToZero : Prop :=
  ∀ (x y z : Word32) (rm : RoundMode) (um : Bool) (v : Int) (p : Rounded),
    isFinite x = true → isFinite y = true → isFinite z = true → v = exactDiff x y z → v ≠ 0 →
    p = round24 v.natAbs rm (decide (v < 0)) →
    isDenormal (fmsubCore x y z rm true true).1 = false ∧
    (p.e < -126 →
      fmsubCore x y z rm true true =
        ((if v < 0 then 0x80000000#32 else 0#32),
          { de := isDenormal x || isDenormal y || isDenormal z, ue := true, pe := true })) ∧
    (-126 ≤ p.e → fmsubCore x y z rm true um = fmsubCore x y z rm false um) ∧
    fmsubCore x y z rm true false = fmsubCore x y z rm false false

/-- DAZ (R107): with DAZ = 1 every denormal operand counts as the zero of its sign: replacing it beforehand
changes nothing, and DE is never detected. With DAZ = 0 the operands are used as they are. -/
def Obligations.DenormalsAreZeros : Prop :=
  ∀ (x y z : Word32) (rm : RoundMode) (mxcsr : Word32) (sae : Bool),
    (mxcsr.getLsbD 6 = true →
      fmsub32 x y z rm mxcsr sae =
        fmsub32 (if isDenormal x then x &&& 0x80000000#32 else x)
          (if isDenormal y then y &&& 0x80000000#32 else y)
          (if isDenormal z then z &&& 0x80000000#32 else z) rm mxcsr sae ∧
      (∀ r f, fmsub32 x y z rm mxcsr sae = .result r f → f.de = false) ∧
      fmsub32 x y z rm mxcsr sae ≠ .trap .denormal) ∧
    (mxcsr.getLsbD 6 = false →
      fmsub32 x y z rm mxcsr sae =
        respond mxcsr sae (fmsubCore x y z rm (mxcsr.getLsbD 15) (mxcsr.getLsbD 11 || sae)))

/-- Step 9 (R119, R120, R121): under SAE the function returns a result and no flag; without it, it returns a
result exactly when every exception detected is masked, and otherwise traps with a detected unmasked
exception before which, in the order Invalid, Denormal, Overflow, Underflow, Precision, no other detected
exception is unmasked. Detection is `fmsubCore` on the operands after DAZ, with "underflow masked" as R124
says. -/
def Obligations.MasksDecideTheResponse : Prop :=
  ∀ (x y z : Word32) (rm : RoundMode) (mxcsr : Word32) (sae : Bool) (r : Word32) (f : FpFlags),
    (r, f) = fmsubCore (dazOperand (daz mxcsr) x) (dazOperand (daz mxcsr) y)
      (dazOperand (daz mxcsr) z) rm (ftz mxcsr) (mxcsr.getLsbD 11 || sae) →
    (sae = true → fmsub32 x y z rm mxcsr sae = .result r {}) ∧
    (sae = false → (∀ c, f.has c = true → mxcsr.getLsbD (c.flagBit + 7) = true) →
      fmsub32 x y z rm mxcsr sae = .result r f) ∧
    (sae = false → (∃ c, f.has c = true ∧ mxcsr.getLsbD (c.flagBit + 7) = false) →
      ∃ c, fmsub32 x y z rm mxcsr sae = .trap c ∧ f.has c = true ∧
        mxcsr.getLsbD (c.flagBit + 7) = false ∧
        ∀ c', f.has c' = true → mxcsr.getLsbD (c'.flagBit + 7) = false → c.flagBit ≤ c'.flagBit)

/-- SINGLE ROUNDING, down (R30, R101, R115): for finite operands and FTZ = 0, a finite result rounded down
is the greatest finite single-precision value not above the exact `x*y - z`. -/
def Obligations.RoundsDown : Prop :=
  ∀ (x y z : Word32) (mxcsr : Word32) (sae : Bool) (r : Word32) (f : FpFlags) (v : Int),
    isFinite x = true → isFinite y = true → isFinite z = true → ftz mxcsr = false →
    v = exactDiff (dazOperand (daz mxcsr) x) (dazOperand (daz mxcsr) y) (dazOperand (daz mxcsr) z) →
    fmsub32 x y z .down mxcsr sae = .result r f → isFinite r = true →
    scaled r * 2 ^ 149 ≤ v ∧
    ∀ w, isFinite w = true → scaled w * 2 ^ 149 ≤ v → scaled w ≤ scaled r

/-- SINGLE ROUNDING, up (R30, R101, R115): a finite result rounded up is the least finite single-precision
value not below the exact `x*y - z`. -/
def Obligations.RoundsUp : Prop :=
  ∀ (x y z : Word32) (mxcsr : Word32) (sae : Bool) (r : Word32) (f : FpFlags) (v : Int),
    isFinite x = true → isFinite y = true → isFinite z = true → ftz mxcsr = false →
    v = exactDiff (dazOperand (daz mxcsr) x) (dazOperand (daz mxcsr) y) (dazOperand (daz mxcsr) z) →
    fmsub32 x y z .up mxcsr sae = .result r f → isFinite r = true →
    v ≤ scaled r * 2 ^ 149 ∧
    ∀ w, isFinite w = true → v ≤ scaled w * 2 ^ 149 → scaled r ≤ scaled w

/-- SINGLE ROUNDING, toward zero (R30, R101, R115, R116): the result is always finite, has no greater
magnitude than the exact `x*y - z` and not the opposite sign, and no finite single-precision value within
that magnitude has a greater one. -/
def Obligations.RoundsTowardZero : Prop :=
  ∀ (x y z : Word32) (mxcsr : Word32) (sae : Bool) (r : Word32) (f : FpFlags) (v : Int),
    isFinite x = true → isFinite y = true → isFinite z = true → ftz mxcsr = false →
    v = exactDiff (dazOperand (daz mxcsr) x) (dazOperand (daz mxcsr) y) (dazOperand (daz mxcsr) z) →
    fmsub32 x y z .towardZero mxcsr sae = .result r f →
    isFinite r = true ∧ |scaled r * 2 ^ 149| ≤ |v| ∧ 0 ≤ scaled r * v ∧
    ∀ w, isFinite w = true → |scaled w * 2 ^ 149| ≤ |v| → |scaled w| ≤ |scaled r|

/-- SINGLE ROUNDING, to nearest even (R30, R101, R115): no finite single-precision value is nearer to the
exact `x*y - z` than a finite result, and on a tie with another value the result's least significant bit
is 0. -/
def Obligations.RoundsToNearestEven : Prop :=
  ∀ (x y z : Word32) (mxcsr : Word32) (sae : Bool) (r : Word32) (f : FpFlags) (v : Int),
    isFinite x = true → isFinite y = true → isFinite z = true → ftz mxcsr = false →
    v = exactDiff (dazOperand (daz mxcsr) x) (dazOperand (daz mxcsr) y) (dazOperand (daz mxcsr) z) →
    fmsub32 x y z .nearestEven mxcsr sae = .result r f → isFinite r = true →
    ∀ w, isFinite w = true →
      |scaled r * 2 ^ 149 - v| ≤ |scaled w * 2 ^ 149 - v| ∧
      (|scaled r * 2 ^ 149 - v| = |scaled w * 2 ^ 149 - v| → scaled w ≠ scaled r →
        r.getLsbD 0 = false)

/-- Precision (R114, R115, R117): for finite operands, FTZ = 0 and no suppression, PE is reported with a
finite result exactly when that result differs from the exact `x*y - z`. -/
def Obligations.PrecisionFlagMeansInexact : Prop :=
  ∀ (x y z : Word32) (rm : RoundMode) (mxcsr : Word32) (r : Word32) (f : FpFlags) (v : Int),
    isFinite x = true → isFinite y = true → isFinite z = true → ftz mxcsr = false →
    v = exactDiff (dazOperand (daz mxcsr) x) (dazOperand (daz mxcsr) y) (dazOperand (daz mxcsr) z) →
    fmsub32 x y z rm mxcsr false = .result r f → isFinite r = true →
    (f.pe = true ↔ scaled r * 2 ^ 149 ≠ v)

/-! ### Reset -/

/-- The values after power-up or RESET and after INIT (R40), for every processor: the rows of the table;
RDX holds the processor signature; the first fetch is at FFFFFFF0H; after INIT the vector registers, the
opmask registers, MXCSR and XCR0 keep their values. -/
def Obligations.ResetValues : Prop :=
  (∀ cfg : Config,
    (∀ i, (State.powerUp cfg).vreg i = 0#512) ∧ (∀ i, (State.powerUp cfg).opmask i = 0#64) ∧
    (State.powerUp cfg).mxcsr = 0x00001F80#32 ∧ (State.powerUp cfg).cr0 = 0x60000010#64 ∧
    (State.powerUp cfg).cr4 = 0#64 ∧ (State.powerUp cfg).xcr0 = 1#64 ∧
    (State.powerUp cfg).eflags = 0x00000002#32 ∧ (State.powerUp cfg).pc = 0x0000FFF0#64 ∧
    (State.powerUp cfg).csBase = 0xFFFF0000#64 ∧
    (State.powerUp cfg).fetchAddress = 0xFFFFFFF0#64 ∧
    (State.powerUp cfg).gprAt 2#4 = cfg.signature.setWidth 64 ∧
    (∀ i, i ≠ 2#4 → (State.powerUp cfg).gprAt i = 0#64) ∧
    (State.powerUp cfg).cfg = cfg) ∧
  State.reset = State.powerUp Config.default ∧
  (∀ s : State, s.afterInit.v = s.v ∧ s.afterInit.k = s.k ∧ s.afterInit.mxcsr = s.mxcsr ∧
    s.afterInit.xcr0 = s.xcr0)

/-- After reset every encoding raises `#UD` (R41). -/
def Obligations.EveryEncodingUndefinedAfterReset : Prop :=
  ∀ i : Instr, exec i State.reset = .fault (.raised .ud State.reset)
end

