-- ==== Sys2Proof/Laws/Encoding.lean ====
section
/-! SUPPORT. The bit fields of the encoding, taken apart and put together: the small lemmas under the
round trip of decoder and encoder. -/

namespace Sys2Proof

/-! ### VEX and EVEX payload bytes, ModRM and SIB -/

theorem vexByte1_fields (r x b : Bit) :
    (vexByte1 r x b).extractLsb' 0 5 = 2#5 ∧ ~~~ (vexByte1 r x b).extractLsb' 7 1 = r ∧
    ~~~ (vexByte1 r x b).extractLsb' 6 1 = x ∧ ~~~ (vexByte1 r x b).extractLsb' 5 1 = b := by
  revert r x b; decide

theorem vexByte2_fields (vvvv : BitVec 4) (l : Bit) :
    (vexByte2 vvvv l).extractLsb' 7 1 = 0#1 ∧ (vexByte2 vvvv l).extractLsb' 0 2 = 1#2 ∧
    ~~~ (vexByte2 vvvv l).extractLsb' 3 4 = vvvv ∧ (vexByte2 vvvv l).extractLsb' 2 1 = l := by
  revert vvvv l; decide

theorem evexP0_fields (r x b r' : Bit) :
    (evexP0 r x b r').extractLsb' 0 2 = 2#2 ∧ (evexP0 r x b r').extractLsb' 2 2 = 0#2 ∧
    ~~~ (evexP0 r x b r').extractLsb' 7 1 = r ∧ ~~~ (evexP0 r x b r').extractLsb' 6 1 = x ∧
    ~~~ (evexP0 r x b r').extractLsb' 5 1 = b ∧ ~~~ (evexP0 r x b r').extractLsb' 4 1 = r' := by
  revert r x b r'; decide

theorem evexP1_fields (vvvv : BitVec 4) :
    (evexP1 vvvv).extractLsb' 7 1 = 0#1 ∧ (evexP1 vvvv).extractLsb' 0 2 = 1#2 ∧
    (evexP1 vvvv).extractLsb' 2 1 = 1#1 ∧ ~~~ (evexP1 vvvv).extractLsb' 3 4 = vvvv := by
  revert vvvv; decide

theorem evexP2_fields (z : Bit) (ll : BitVec 2) (b v' : Bit) (aaa : BitVec 3) :
    (evexP2 z ll b v' aaa).extractLsb' 7 1 = z ∧ (evexP2 z ll b v' aaa).extractLsb' 5 2 = ll ∧
    (evexP2 z ll b v' aaa).extractLsb' 4 1 = b ∧ ~~~ (evexP2 z ll b v' aaa).extractLsb' 3 1 = v' ∧
    (evexP2 z ll b v' aaa).extractLsb' 0 3 = aaa := by
  revert z ll b v' aaa; decide +kernel

theorem modrmByte_fields (mod : BitVec 2) (reg rm : BitVec 3) :
    (modrmByte mod reg rm).extractLsb' 6 2 = mod ∧ (modrmByte mod reg rm).extractLsb' 3 3 = reg ∧
    (modrmByte mod reg rm).extractLsb' 0 3 = rm := by
  revert mod reg rm; decide +kernel

theorem vexByte1_of_fields (b1 : Byte) (h : b1.extractLsb' 0 5 = 2#5) :
    vexByte1 (~~~ b1.extractLsb' 7 1) (~~~ b1.extractLsb' 6 1) (~~~ b1.extractLsb' 5 1) = b1 := by
  revert b1; decide +kernel

theorem vexByte2_of_fields (b2 : Byte) (hw : b2.extractLsb' 7 1 = 0#1)
    (hp : b2.extractLsb' 0 2 = 1#2) :
    vexByte2 (~~~ b2.extractLsb' 3 4) (b2.extractLsb' 2 1) = b2 := by
  revert b2; decide +kernel

theorem evexP0_of_fields (p0 : Byte) (hm : p0.extractLsb' 0 2 = 2#2) (hf : p0.extractLsb' 2 2 = 0#2) :
    evexP0 (~~~ p0.extractLsb' 7 1) (~~~ p0.extractLsb' 6 1) (~~~ p0.extractLsb' 5 1)
      (~~~ p0.extractLsb' 4 1) = p0 := by
  revert p0; decide +kernel

theorem evexP1_of_fields (p1 : Byte) (hw : p1.extractLsb' 7 1 = 0#1) (hp : p1.extractLsb' 0 2 = 1#2)
    (hf : p1.extractLsb' 2 1 = 1#1) : evexP1 (~~~ p1.extractLsb' 3 4) = p1 := by
  revert p1; decide +kernel

theorem evexP2_of_fields (p2 : Byte) :
    evexP2 (p2.extractLsb' 7 1) (p2.extractLsb' 5 2) (p2.extractLsb' 4 1) (~~~ p2.extractLsb' 3 1)
      (p2.extractLsb' 0 3) = p2 := by
  revert p2; decide +kernel

theorem modrmByte_of_fields (m : Byte) :
    modrmByte (m.extractLsb' 6 2) (m.extractLsb' 3 3) (m.extractLsb' 0 3) = m := by
  revert m; decide +kernel

/-! ### Register numbers -/

@[simp] theorem high1_append (h : Bit) (l : BitVec 3) : high1 (h ++ l) = h := by
  revert h l; decide

@[simp] theorem low3_append (h : Bit) (l : BitVec 3) : low3 (h ++ l) = l := by
  revert h l; decide

@[simp] theorem high1_low3 (n : BitVec 4) : (high1 n ++ low3 n : BitVec 4) = n := by
  revert n; decide

theorem reg5_parts (n : BitVec 5) :
    (n.extractLsb' 4 1 ++ n.extractLsb' 3 1 ++ n.extractLsb' 0 3 : BitVec 5) = n := by
  revert n; decide

theorem reg5_of_parts (h m : Bit) (l : BitVec 3) :
    (h ++ m ++ l : BitVec 5).extractLsb' 4 1 = h ∧ (h ++ m ++ l : BitVec 5).extractLsb' 3 1 = m ∧
    (h ++ m ++ l : BitVec 5).extractLsb' 0 3 = l := by
  revert h m l; decide

theorem vreg5_parts (n : BitVec 5) :
    (n.extractLsb' 4 1 ++ n.extractLsb' 0 4 : BitVec 5) = n := by
  revert n; decide

theorem vreg5_of_parts (h : Bit) (l : BitVec 4) :
    (h ++ l : BitVec 5).extractLsb' 4 1 = h ∧ (h ++ l : BitVec 5).extractLsb' 0 4 = l := by
  revert h l; decide

/-! ### The staged decoder -/

/-- What is accepted after the prefix: an opcode of R86, a ModRM, and what the continuation accepts. -/
theorem takeOpcode_ok {bs : List Byte} {k : Form → Byte → List Byte → Except Reject (Instr × List Byte)}
    {r : Instr × List Byte} (h : takeOpcode bs k = .ok r) :
    ∃ op form modrm tail, bs = op :: modrm :: tail ∧ Form.ofOpcode op = some form ∧
      k form modrm tail = .ok r := by
  unfold takeOpcode at h
  split at h
  · cases h
  · split at h
    · cases h
    · split at h
      · cases h
      · exact ⟨_, _, _, _, rfl, ‹_›, h⟩

/-- A whole opcode and ModRM reach the continuation. -/
@[simp] theorem takeOpcode_opcode (f : Form) (modrm : Byte) (tail : List Byte)
    (k : Form → Byte → List Byte → Except Reject (Instr × List Byte)) :
    takeOpcode (f.opcode :: modrm :: tail) k = k f modrm tail := by
  cases f <;> rfl

/-- What is accepted after C4H. -/
theorem decodeVex_ok {ps : List LegacyPrefix} {bs : List Byte} {r : Instr × List Byte}
    (h : decodeVex ps bs = .ok r) :
    ∃ b1 b2 bs', bs = b1 :: b2 :: bs' ∧ vexByte1Ok b1 = true ∧ vexByte2Ok b2 = true ∧
      takeOpcode bs' (vexInstr ps b1 b2) = .ok r := by
  unfold decodeVex at h
  split at h
  · cases h
  · split at h
    · split at h
      · cases h
      · split at h
        · exact ⟨_, _, _, rfl, ‹_›, ‹_›, h⟩
        · cases h
    · cases h

/-- What is accepted after 62H. -/
theorem decodeEvex_ok {ps : List LegacyPrefix} {bs : List Byte} {r : Instr × List Byte}
    (h : decodeEvex ps bs = .ok r) :
    ∃ p0 p1 p2 bs', bs = p0 :: p1 :: p2 :: bs' ∧ evexP0Ok p0 = true ∧ evexP1Ok p1 = true ∧
      takeOpcode bs' (evexInstr ps p0 p1 p2) = .ok r := by
  unfold decodeEvex at h
  split at h
  · cases h
  · split at h
    · split at h
      · cases h
      · split at h
        · split at h
          · cases h
          · exact ⟨_, _, _, _, rfl, ‹_›, ‹_›, h⟩
        · cases h
    · cases h

/-- The encoder's payload bytes pass the checks of the fixed fields. -/
@[simp] theorem vexByte1Ok_vexByte1 (r x b : Bit) : vexByte1Ok (vexByte1 r x b) = true := by
  rw [vexByte1Ok, (vexByte1_fields r x b).1]; rfl

@[simp] theorem vexByte2Ok_vexByte2 (vvvv : BitVec 4) (l : Bit) :
    vexByte2Ok (vexByte2 vvvv l) = true := by
  rw [vexByte2Ok, (vexByte2_fields vvvv l).1, (vexByte2_fields vvvv l).2.1]; rfl

@[simp] theorem evexP0Ok_evexP0 (r x b r' : Bit) : evexP0Ok (evexP0 r x b r') = true := by
  rw [evexP0Ok, (evexP0_fields r x b r').1, (evexP0_fields r x b r').2.1]; rfl

@[simp] theorem evexP1Ok_evexP1 (vvvv : BitVec 4) : evexP1Ok (evexP1 vvvv) = true := by
  rw [evexP1Ok, (evexP1_fields vvvv).1, (evexP1_fields vvvv).2.1]; rfl

/-! ### Displacements -/

/-- Taking a 32-bit displacement off its own bytes. -/
@[simp] theorem takeWord32_bytes (w : Word32) (rest : List Byte) :
    takeWord32 (word32Bytes w ++ rest) = some (w, rest) := by
  simp only [word32Bytes, List.cons_append, List.nil_append, takeWord32, Option.some.injEq,
    Prod.mk.injEq, and_true]
  apply BitVec.eq_of_getLsbD_eq
  intro i hi
  simp only [BitVec.getLsbD_append, BitVec.getLsbD_extractLsb']
  by_cases h1 : i < 8
  · simp [h1]
  · by_cases h2 : i < 16
    · simp [h1, show i - 8 < 8 by omega, show 8 + (i - 8) = i by omega]
    · by_cases h3 : i < 24
      · simp [h1, show ¬ i - 8 < 8 by omega, show i - 8 - 8 < 8 by omega,
          show 16 + (i - 8 - 8) = i by omega]
      · simp [h1, show ¬ i - 8 < 8 by omega, show ¬ i - 8 - 8 < 8 by omega,
          show i - 8 - 8 - 8 < 8 by omega, show 24 + (i - 8 - 8 - 8) = i by omega]

/-- The bytes of four bytes put together are those bytes. -/
theorem word32Bytes_append (b0 b1 b2 b3 : Byte) :
    word32Bytes (b3 ++ b2 ++ b1 ++ b0) = [b0, b1, b2, b3] := by
  simp only [word32Bytes, List.cons.injEq, and_true]
  refine ⟨?_, ?_, ?_, ?_⟩ <;>
  · apply BitVec.eq_of_getLsbD_eq
    intro i hi
    simp only [BitVec.getLsbD_extractLsb', BitVec.getLsbD_append, hi, decide_true, Bool.true_and]
    simp [hi, show ∀ k, 8 ≤ k → k + i - 8 = k - 8 + i by omega, show ¬ 24 + i < 8 by omega,
      show ¬ 16 + i < 8 by omega]

@[simp] theorem takeDisp_bytes (d : Disp) (rest : List Byte) :
    takeDisp d.mod (d.bytes ++ rest) = some (d, rest) := by
  cases d <;> simp [takeDisp, Disp.mod, Disp.bytes]

theorem Disp.bytes_length (d : Disp) : d.bytes.length = d.length := by
  cases d <;> rfl

/-! ### Opcode and legacy prefixes -/

@[simp] theorem Form.ofOpcode_opcode (f : Form) : Form.ofOpcode f.opcode = some f := by
  cases f <;> rfl

theorem Form.opcode_of_ofOpcode {op : Byte} {f : Form} (h : Form.ofOpcode op = some f) :
    f.opcode = op := by
  unfold Form.ofOpcode at h
  split at h
  · cases h; exact (‹op = _›).symm
  split at h
  · cases h; exact (‹op = _›).symm
  split at h
  · cases h; exact (‹op = _›).symm
  cases h

@[simp] theorem LegacyPrefix.ofByte_byte (p : LegacyPrefix) : LegacyPrefix.ofByte p.byte = some p := by
  cases p <;> rfl

theorem LegacyPrefix.byte_of_ofByte {b : Byte} {p : LegacyPrefix}
    (h : LegacyPrefix.ofByte b = some p) : p.byte = b := by
  have all : ∀ b p, LegacyPrefix.ofByte b = some p → p.byte = b := by
    intro b p h
    unfold LegacyPrefix.ofByte at h
    repeat' (split at h)
    all_goals first | (cases h; exact (‹b = _›).symm) | cases h
  exact all b p h

/-- Scanning past admitted prefixes: they are counted and kept in order. -/
theorem scanPrefixes_append (ps : List LegacyPrefix) (bs : List Byte) :
    scanPrefixes (ps.map LegacyPrefix.byte ++ bs) =
      ⟨ps.length + (scanPrefixes bs).count, ps ++ (scanPrefixes bs).admitted,
        (scanPrefixes bs).illegal, (scanPrefixes bs).rest⟩ := by
  induction ps with
  | nil => simp
  | cons p ps ih =>
    simp only [List.map_cons, List.cons_append, scanPrefixes, LegacyPrefix.ofByte_byte, ih,
      List.length_cons]
    congr 1
    omega

/-- A byte that is no prefix ends the scan. -/
theorem scanPrefixes_stop {b : Byte} (h1 : LegacyPrefix.ofByte b = none)
    (h2 : isIllegalPrefix b = false) (bs : List Byte) :
    scanPrefixes (b :: bs) = ⟨0, [], false, b :: bs⟩ := by
  simp [scanPrefixes, h1, h2]

/-- The scan takes a sequence apart: without an illegal prefix, the admitted prefixes and the rest are
the sequence. -/
theorem scanPrefixes_legal {bs : List Byte} (h : (scanPrefixes bs).illegal = false) :
    bs = (scanPrefixes bs).admitted.map LegacyPrefix.byte ++ (scanPrefixes bs).rest ∧
    (scanPrefixes bs).count = (scanPrefixes bs).admitted.length := by
  induction bs with
  | nil => simp [scanPrefixes]
  | cons b bs ih =>
    cases hb : LegacyPrefix.ofByte b with
    | some p =>
      simp only [scanPrefixes, hb] at h ⊢
      obtain ⟨ih1, ih2⟩ := ih h
      refine ⟨?_, by simp [ih2]⟩
      simp only [List.map_cons, List.cons_append, LegacyPrefix.byte_of_ofByte hb]
      rw [← ih1]
    | none =>
      cases hi : isIllegalPrefix b
      · simp [scanPrefixes, hb, hi]
      · simp [scanPrefixes, hb, hi] at h

end Sys2Proof
end

