-- ==== Sys2Proof/Laws/Fmsub.lean ====
section
/-! SUPPORT. What the flag operations and the response of `fmsub32` can do, once each. -/

namespace Sys2Proof.Machine

/-- The bits of a set of flags: those of R26, and no other. -/
theorem FpFlags.bits_getLsbD (f : FpFlags) (i : Nat) :
    f.bits.getLsbD i =
      ((i == 0 && f.ie) || (i == 1 && f.de) || (i == 3 && f.oe) || (i == 4 && f.ue)
        || (i == 5 && f.pe)) := by
  obtain ⟨ie, de, oe, ue, pe⟩ := f
  by_cases h : i < 6
  · interval_cases i <;> revert ie de oe ue pe <;> decide
  · have h' : ∀ k : Nat, k < 6 → (i == k) = false := fun k hk => by
      simp only [beq_eq_false_iff_ne]; omega
    have : (f : FpFlags) → f.bits.getLsbD i = false := fun f => by
      unfold FpFlags.bits
      rw [BitVec.getLsbD_setWidth]
      rw [BitVec.getLsbD_of_ge _ i (by omega)]
      simp
    rw [this, h' 0 (by omega), h' 1 (by omega), h' 3 (by omega), h' 4 (by omega), h' 5 (by omega)]
    rfl

@[simp] theorem FpFlags.bits_none : FpFlags.none.bits = 0#32 := by decide

@[simp] theorem orFlags_none (m : Word32) : orFlags m FpFlags.none = m := by
  simp [orFlags]

/-- A flag stays or is set; everything but bits 0, 1, 3, 4, 5 is unchanged. -/
theorem orFlags_getLsbD (m : Word32) (f : FpFlags) (i : Nat) :
    (orFlags m f).getLsbD i =
      (m.getLsbD i || ((i == 0 && f.ie) || (i == 1 && f.de) || (i == 3 && f.oe) || (i == 4 && f.ue)
        || (i == 5 && f.pe))) := by
  rw [orFlags, BitVec.getLsbD_or, FpFlags.bits_getLsbD]

/-- After a trap: old flags stay, the trapping flag is set, a drawn subset of the others, never ZE and
nothing from bit 6 on. -/
theorem trapFlags_getLsbD (m : Word32) (c : FpException) (drawn : BitVec 6) (i : Nat) :
    (trapFlags m c drawn).getLsbD i =
      (m.getLsbD i || decide (i = c.flagBit)
        || (drawn.getLsbD i && decide (i < 6) && decide (i ≠ 2))) := by
  have hd : ((drawn &&& 0b111011#6).setWidth 32).getLsbD i
      = (drawn.getLsbD i && decide (i < 6) && decide (i ≠ 2)) := by
    by_cases h : i < 6
    · interval_cases i <;> simp
    · simp only [BitVec.getLsbD_setWidth]
      rw [BitVec.getLsbD_of_ge _ i (by omega)]
      simp [h]
  have hc : (BitVec.twoPow 32 c.flagBit).getLsbD i = decide (i = c.flagBit) := by
    rw [BitVec.getLsbD_twoPow]
    by_cases h : i = c.flagBit
    · subst h
      cases c <;> rfl
    · simp [h, Ne.symm h]
  rw [trapFlags, BitVec.getLsbD_or, BitVec.getLsbD_or, hd, hc]

/-- What `firstUnmasked` answers is a detected and unmasked exception. -/
theorem firstUnmasked_some {m : Word32} {f : FpFlags} {c : FpException}
    (h : firstUnmasked m f = some c) : f.has c = true ∧ masked m c = false := by
  unfold firstUnmasked at h
  simp only [Bool.and_eq_true, Bool.not_eq_true'] at h
  split at h
  · cases h; assumption
  split at h
  · cases h; assumption
  split at h
  · cases h; assumption
  split at h
  · cases h; assumption
  split at h
  · cases h; assumption
  · cases h

/-- `firstUnmasked` answers nothing exactly when every detected exception is masked. -/
theorem firstUnmasked_none {m : Word32} {f : FpFlags} :
    firstUnmasked m f = none ↔ ∀ c, f.has c = true → masked m c = true := by
  constructor
  · intro h c hc
    unfold firstUnmasked at h
    simp only [Bool.and_eq_true, Bool.not_eq_true'] at h
    split at h
    · cases h
    split at h
    · cases h
    split at h
    · cases h
    split at h
    · cases h
    split at h
    · cases h
    cases c <;> simp_all [FpFlags.has]
  · intro h
    have h1 := h .invalid
    have h2 := h .denormal
    have h3 := h .overflow
    have h4 := h .underflow
    have h5 := h .precision
    simp only [FpFlags.has] at h1 h2 h3 h4 h5
    unfold firstUnmasked
    simp only [Bool.and_eq_true, Bool.not_eq_true']
    split
    · simp_all
    split
    · simp_all
    split
    · simp_all
    split
    · simp_all
    split
    · simp_all
    rfl

theorem allMasked_masked {m : Word32} (h : allMasked m = true) (c : FpException) :
    masked m c = true := by
  simp only [allMasked, Bool.and_eq_true] at h
  cases c <;> simp_all

/-- Every case of the response (R119, R120, R121). -/
theorem respond_cases (m : Word32) (sae : Bool) (p : Word32 × FpFlags) :
    (sae = true ∧ respond m sae p = .result p.1 FpFlags.none) ∨
    (sae = false ∧ (∀ c, p.2.has c = true → masked m c = true) ∧
      respond m sae p = .result p.1 p.2) ∨
    (sae = false ∧ ∃ c, p.2.has c = true ∧ masked m c = false ∧
      firstUnmasked m p.2 = some c ∧ respond m sae p = .trap c) := by
  unfold respond
  cases sae
  · simp only [Bool.false_eq_true, if_false, false_and, false_or, true_and]
    cases h : firstUnmasked m p.2 with
    | none => exact .inl ⟨firstUnmasked_none.1 h, rfl⟩
    | some c => exact .inr ⟨c, (firstUnmasked_some h).1, (firstUnmasked_some h).2, rfl, rfl⟩
  · exact .inl ⟨rfl, rfl⟩

/-! ### DAZ (R107) -/

/-- The zero of a sign has fraction 0. -/
theorem fraction_signBit (w : Word32) : fraction (w &&& 0x80000000#32) = 0#23 := by
  apply BitVec.eq_of_getLsbD_eq
  intro i hi
  have hz : ∀ j, j < 23 → (0x80000000#32).getLsbD j = false := by decide
  simp only [fraction, BitVec.getLsbD_extractLsb', BitVec.getLsbD_and, Nat.zero_add, hz i hi,
    Bool.and_false, BitVec.getLsbD_zero]

/-- The zero of a sign has biased exponent 0. -/
theorem biasedExp_signBit (w : Word32) : biasedExp (w &&& 0x80000000#32) = 0#8 := by
  apply BitVec.eq_of_getLsbD_eq
  intro i hi
  have hz : ∀ j, j < 8 → (0x80000000#32).getLsbD (23 + j) = false := by decide
  simp only [biasedExp, BitVec.getLsbD_extractLsb', BitVec.getLsbD_and, hz i hi, Bool.and_false,
    BitVec.getLsbD_zero]

theorem isDenormal_signBit (w : Word32) : isDenormal (w &&& 0x80000000#32) = false := by
  simp only [isDenormal, fraction_signBit, bne_self_eq_false, Bool.and_false]

theorem isNaN_signBit (w : Word32) : isNaN (w &&& 0x80000000#32) = false := by
  simp only [isNaN, fraction_signBit, bne_self_eq_false, Bool.and_false]

/-- With DAZ no operand is a denormal. -/
theorem isDenormal_dazOperand (w : Word32) : isDenormal (dazOperand true w) = false := by
  unfold dazOperand
  cases h : isDenormal w
  · exact h
  · exact isDenormal_signBit w

/-- DAZ changes no operand but a denormal. -/
theorem dazOperand_of_not_denormal {w : Word32} (h : isDenormal w = false) (d : Bool) :
    dazOperand d w = w := by
  rw [dazOperand, h, Bool.and_false]
  rfl

/-- DAZ makes and removes no NaN. -/
theorem isNaN_dazOperand (d : Bool) (w : Word32) : isNaN (dazOperand d w) = isNaN w := by
  cases h : isDenormal w
  · rw [dazOperand_of_not_denormal h]
  · have hn : isNaN w = false := by
      simp only [isDenormal, Bool.and_eq_true, beq_iff_eq] at h
      rw [isNaN, h.1]
      rfl
    cases d
    · rfl
    · rw [dazOperand, h, hn]
      exact isNaN_signBit w

/-- A NaN is unchanged by DAZ. -/
theorem dazOperand_of_isNaN {w : Word32} (h : isNaN w = true) (d : Bool) : dazOperand d w = w := by
  apply dazOperand_of_not_denormal
  simp only [isNaN, Bool.and_eq_true, beq_iff_eq] at h
  rw [isDenormal, h.1]
  rfl

/-- The parameter `fmsub32` at its default (R8). -/
@[simp] theorem arithmetic_reference : arithmetic .reference = fmsub32 := rfl

/-- `fmsub32` is the response to what the core reports on the operands after DAZ (R104, R124). -/
theorem fmsub32_eq (x y z : Word32) (rm : RoundMode) (m : Word32) (sae : Bool) :
    fmsub32 x y z rm m sae =
      respond m sae (fmsubCore (dazOperand (daz m) x) (dazOperand (daz m) y) (dazOperand (daz m) z) rm
        (ftz m) (masked m .underflow || sae)) := rfl

/-! ### The core, case by case (R108 to R118) -/

/-- Step 2: a NaN operand (R108, R109). -/
theorem fmsubCore_of_nan {x y z : Word32} (rm : RoundMode) (ftz um : Bool)
    (h : (isNaN x || isNaN y || isNaN z) = true) :
    fmsubCore x y z rm ftz um =
      (quiet (firstNaN x y z), { ie := isSNaN x || isSNaN y || isSNaN z }) := by
  rw [fmsubCore, if_pos h]

/-- A finite value is neither a NaN nor an infinity. -/
theorem isFinite_not_nan_inf {w : Word32} (h : isFinite w = true) :
    isNaN w = false ∧ isInf w = false := by
  simp only [isFinite, bne_iff_ne, ne_eq] at h
  simp only [isNaN, isInf, beq_eq_false_iff_ne.2 h, Bool.false_and, and_self]

/-- Steps 4 and 6 to 8 on finite operands: the exact value is zero, or it is rounded (R112, R114 to
R118). -/
theorem fmsubCore_of_finite {x y z : Word32} (rm : RoundMode) (ftz um : Bool)
    (hx : isFinite x = true) (hy : isFinite y = true) (hz : isFinite z = true) :
    fmsubCore x y z rm ftz um =
      if exactDiff x y z = 0 then
        (if (isZero x || isZero y) && (productSign x y == !(sign z)) then signedZero (productSign x y)
          else cancelledZero rm,
          { de := isDenormal x || isDenormal y || isDenormal z })
      else
        ((roundValue (exactDiff x y z) rm ftz um).1,
          { (roundValue (exactDiff x y z) rm ftz um).2 with
            de := isDenormal x || isDenormal y || isDenormal z }) := by
  obtain ⟨nx, ix⟩ := isFinite_not_nan_inf hx
  obtain ⟨ny, iy⟩ := isFinite_not_nan_inf hy
  obtain ⟨nz, iz⟩ := isFinite_not_nan_inf hz
  simp only [fmsubCore, infTimesZero, productInf, nx, ny, nz, ix, iy, iz, Bool.or_self,
    Bool.false_and, Bool.and_false, Bool.false_eq_true, if_false]
  split
  · split <;> rfl
  · rfl

end Sys2Proof.Machine
end

