-- ==== Sys2Proof/Laws/State.lean ====
section
/-! SUPPORT. What each update of the state does to each field: one lemma per field, so that no proof
unfolds a record update. -/

namespace Sys2Proof.Machine

/-! ### `State.complete`: completing an instruction -/

section
variable (s : State) (d : BitVec 5) (r : Word32) (f : FpFlags) (len : Nat)

@[simp] theorem State.complete_cfg :
    (s.complete d r f len).cfg = s.cfg := rfl

@[simp] theorem State.complete_v :
    (s.complete d r f len).v = s.v.set d.toNat (writeLow32 s.cfg.maxvl (s.vreg d) r) d.isLt := rfl

@[simp] theorem State.complete_k :
    (s.complete d r f len).k = s.k := rfl

@[simp] theorem State.complete_mxcsr :
    (s.complete d r f len).mxcsr = orFlags s.mxcsr f := rfl

@[simp] theorem State.complete_gpr :
    (s.complete d r f len).gpr = s.gpr := rfl

@[simp] theorem State.complete_pc :
    (s.complete d r f len).pc = s.pc + BitVec.ofNat 64 len := rfl

@[simp] theorem State.complete_eflags :
    (s.complete d r f len).eflags = s.eflags := rfl

@[simp] theorem State.complete_cr0 :
    (s.complete d r f len).cr0 = s.cr0 := rfl

@[simp] theorem State.complete_cr2 :
    (s.complete d r f len).cr2 = s.cr2 := rfl

@[simp] theorem State.complete_cr4 :
    (s.complete d r f len).cr4 = s.cr4 := rfl

@[simp] theorem State.complete_xcr0 :
    (s.complete d r f len).xcr0 = s.xcr0 := rfl

@[simp] theorem State.complete_efer :
    (s.complete d r f len).efer = s.efer := rfl

@[simp] theorem State.complete_cpl :
    (s.complete d r f len).cpl = s.cpl := rfl

@[simp] theorem State.complete_csL :
    (s.complete d r f len).csL = s.csL := rfl

@[simp] theorem State.complete_csBase :
    (s.complete d r f len).csBase = s.csBase := rfl

@[simp] theorem State.complete_fsBase :
    (s.complete d r f len).fsBase = s.fsBase := rfl

@[simp] theorem State.complete_gsBase :
    (s.complete d r f len).gsBase = s.gsBase := rfl

@[simp] theorem State.complete_mem :
    (s.complete d r f len).mem = s.mem := rfl

@[simp] theorem State.complete_readable :
    (s.complete d r f len).readable = s.readable := rfl

@[simp] theorem State.complete_code :
    (s.complete d r f len).code = s.code := rfl

@[simp] theorem State.complete_draws :
    (s.complete d r f len).draws = s.draws + 1 := rfl

end

/-! ### `State.withTrapFlags`: what a SIMD exception leaves -/

section
variable (s : State) (cause : FpException)

@[simp] theorem State.withTrapFlags_cfg :
    (s.withTrapFlags cause).cfg = s.cfg := rfl

@[simp] theorem State.withTrapFlags_v :
    (s.withTrapFlags cause).v = s.v := rfl

@[simp] theorem State.withTrapFlags_k :
    (s.withTrapFlags cause).k = s.k := rfl

@[simp] theorem State.withTrapFlags_mxcsr :
    (s.withTrapFlags cause).mxcsr = trapFlags s.mxcsr cause (Config.freeTrapFlags s.draws) := rfl

@[simp] theorem State.withTrapFlags_gpr :
    (s.withTrapFlags cause).gpr = s.gpr := rfl

@[simp] theorem State.withTrapFlags_pc :
    (s.withTrapFlags cause).pc = s.pc := rfl

@[simp] theorem State.withTrapFlags_eflags :
    (s.withTrapFlags cause).eflags = s.eflags := rfl

@[simp] theorem State.withTrapFlags_cr0 :
    (s.withTrapFlags cause).cr0 = s.cr0 := rfl

@[simp] theorem State.withTrapFlags_cr2 :
    (s.withTrapFlags cause).cr2 = s.cr2 := rfl

@[simp] theorem State.withTrapFlags_cr4 :
    (s.withTrapFlags cause).cr4 = s.cr4 := rfl

@[simp] theorem State.withTrapFlags_xcr0 :
    (s.withTrapFlags cause).xcr0 = s.xcr0 := rfl

@[simp] theorem State.withTrapFlags_efer :
    (s.withTrapFlags cause).efer = s.efer := rfl

@[simp] theorem State.withTrapFlags_cpl :
    (s.withTrapFlags cause).cpl = s.cpl := rfl

@[simp] theorem State.withTrapFlags_csL :
    (s.withTrapFlags cause).csL = s.csL := rfl

@[simp] theorem State.withTrapFlags_csBase :
    (s.withTrapFlags cause).csBase = s.csBase := rfl

@[simp] theorem State.withTrapFlags_fsBase :
    (s.withTrapFlags cause).fsBase = s.fsBase := rfl

@[simp] theorem State.withTrapFlags_gsBase :
    (s.withTrapFlags cause).gsBase = s.gsBase := rfl

@[simp] theorem State.withTrapFlags_mem :
    (s.withTrapFlags cause).mem = s.mem := rfl

@[simp] theorem State.withTrapFlags_readable :
    (s.withTrapFlags cause).readable = s.readable := rfl

@[simp] theorem State.withTrapFlags_code :
    (s.withTrapFlags cause).code = s.code := rfl

@[simp] theorem State.withTrapFlags_draws :
    (s.withTrapFlags cause).draws = s.draws := rfl

end

/-! ### `State.launch` and `State.launchWith` -/

section
variable (s : State) (bs : List Byte)

@[simp] theorem State.launch_cfg : s.launch.cfg = s.cfg := rfl

@[simp] theorem State.launch_v : s.launch.v = s.v := rfl

@[simp] theorem State.launch_k : s.launch.k = s.k := rfl

@[simp] theorem State.launch_mxcsr : s.launch.mxcsr = s.mxcsr := rfl

@[simp] theorem State.launch_gpr : s.launch.gpr = s.gpr := rfl

@[simp] theorem State.launch_pc : s.launch.pc = s.pc := rfl

@[simp] theorem State.launch_eflags : s.launch.eflags = s.eflags &&& ~~~ BitVec.twoPow 32 17 := rfl

@[simp] theorem State.launch_cr0 : s.launch.cr0 = (s.cr0 ||| BitVec.twoPow 64 0) &&& ~~~ BitVec.twoPow 64 3 := rfl

@[simp] theorem State.launch_cr2 : s.launch.cr2 = s.cr2 := rfl

@[simp] theorem State.launch_cr4 : s.launch.cr4 = s.cr4 ||| BitVec.twoPow 64 18 := rfl

@[simp] theorem State.launch_xcr0 : s.launch.xcr0 = s.xcr0 ||| 0xE6#64 := rfl

@[simp] theorem State.launch_efer : s.launch.efer = s.efer ||| BitVec.twoPow 64 10 := rfl

@[simp] theorem State.launch_cpl : s.launch.cpl = s.cpl := rfl

@[simp] theorem State.launch_csL : s.launch.csL = true := rfl

@[simp] theorem State.launch_csBase : s.launch.csBase = s.csBase := rfl

@[simp] theorem State.launch_fsBase : s.launch.fsBase = s.fsBase := rfl

@[simp] theorem State.launch_gsBase : s.launch.gsBase = s.gsBase := rfl

@[simp] theorem State.launch_mem : s.launch.mem = s.mem := rfl

@[simp] theorem State.launch_readable : s.launch.readable = s.readable := rfl

@[simp] theorem State.launch_code : s.launch.code = s.code := rfl

@[simp] theorem State.launch_draws : s.launch.draws = s.draws := rfl

@[simp] theorem State.launchWith_cfg :
    (s.launchWith bs).cfg = s.launch.cfg := rfl

@[simp] theorem State.launchWith_v :
    (s.launchWith bs).v = s.launch.v := rfl

@[simp] theorem State.launchWith_k :
    (s.launchWith bs).k = s.launch.k := rfl

@[simp] theorem State.launchWith_mxcsr :
    (s.launchWith bs).mxcsr = s.launch.mxcsr := rfl

@[simp] theorem State.launchWith_gpr :
    (s.launchWith bs).gpr = s.launch.gpr := rfl

@[simp] theorem State.launchWith_pc :
    (s.launchWith bs).pc = s.launch.pc := rfl

@[simp] theorem State.launchWith_eflags :
    (s.launchWith bs).eflags = s.launch.eflags := rfl

@[simp] theorem State.launchWith_cr0 :
    (s.launchWith bs).cr0 = s.launch.cr0 := rfl

@[simp] theorem State.launchWith_cr2 :
    (s.launchWith bs).cr2 = s.launch.cr2 := rfl

@[simp] theorem State.launchWith_cr4 :
    (s.launchWith bs).cr4 = s.launch.cr4 := rfl

@[simp] theorem State.launchWith_xcr0 :
    (s.launchWith bs).xcr0 = s.launch.xcr0 := rfl

@[simp] theorem State.launchWith_efer :
    (s.launchWith bs).efer = s.launch.efer := rfl

@[simp] theorem State.launchWith_cpl :
    (s.launchWith bs).cpl = s.launch.cpl := rfl

@[simp] theorem State.launchWith_csL :
    (s.launchWith bs).csL = s.launch.csL := rfl

@[simp] theorem State.launchWith_csBase :
    (s.launchWith bs).csBase = s.launch.csBase := rfl

@[simp] theorem State.launchWith_fsBase :
    (s.launchWith bs).fsBase = s.launch.fsBase := rfl

@[simp] theorem State.launchWith_gsBase :
    (s.launchWith bs).gsBase = s.launch.gsBase := rfl

@[simp] theorem State.launchWith_mem :
    (s.launchWith bs).mem = s.launch.mem := rfl

@[simp] theorem State.launchWith_readable :
    (s.launchWith bs).readable = s.launch.readable := rfl

@[simp] theorem State.launchWith_code :
    (s.launchWith bs).code = placeCode s.code s.launch.fetchAddress bs := rfl

@[simp] theorem State.launchWith_draws :
    (s.launchWith bs).draws = s.launch.draws := rfl

end

/-! ### `State.afterInit` -/

section
variable (s : State)

@[simp] theorem State.afterInit_cfg : s.afterInit.cfg = s.cfg := rfl

@[simp] theorem State.afterInit_v : s.afterInit.v = s.v := rfl

@[simp] theorem State.afterInit_k : s.afterInit.k = s.k := rfl

@[simp] theorem State.afterInit_mxcsr : s.afterInit.mxcsr = s.mxcsr := rfl

@[simp] theorem State.afterInit_gpr : s.afterInit.gpr = (State.powerUp s.cfg).gpr := rfl

@[simp] theorem State.afterInit_pc : s.afterInit.pc = (State.powerUp s.cfg).pc := rfl

@[simp] theorem State.afterInit_eflags : s.afterInit.eflags = (State.powerUp s.cfg).eflags := rfl

@[simp] theorem State.afterInit_cr0 : s.afterInit.cr0 = (State.powerUp s.cfg).cr0 := rfl

@[simp] theorem State.afterInit_cr2 : s.afterInit.cr2 = (State.powerUp s.cfg).cr2 := rfl

@[simp] theorem State.afterInit_cr4 : s.afterInit.cr4 = (State.powerUp s.cfg).cr4 := rfl

@[simp] theorem State.afterInit_xcr0 : s.afterInit.xcr0 = s.xcr0 := rfl

@[simp] theorem State.afterInit_efer : s.afterInit.efer = (State.powerUp s.cfg).efer := rfl

@[simp] theorem State.afterInit_cpl : s.afterInit.cpl = (State.powerUp s.cfg).cpl := rfl

@[simp] theorem State.afterInit_csL : s.afterInit.csL = (State.powerUp s.cfg).csL := rfl

@[simp] theorem State.afterInit_csBase : s.afterInit.csBase = (State.powerUp s.cfg).csBase := rfl

@[simp] theorem State.afterInit_fsBase : s.afterInit.fsBase = (State.powerUp s.cfg).fsBase := rfl

@[simp] theorem State.afterInit_gsBase : s.afterInit.gsBase = (State.powerUp s.cfg).gsBase := rfl

@[simp] theorem State.afterInit_mem : s.afterInit.mem = s.mem := rfl

@[simp] theorem State.afterInit_readable : s.afterInit.readable = s.readable := rfl

@[simp] theorem State.afterInit_code : s.afterInit.code = s.code := rfl

@[simp] theorem State.afterInit_draws : s.afterInit.draws = s.draws := rfl

end

end Sys2Proof.Machine
end

