-- ==== Sys2Proof/Laws/Exec.lean ====
section
/-! SUPPORT. What each shared operation of execution can do, once: the destination write, raising,
delivering, reading operand 3, and the two frames. -/

namespace Sys2Proof.Machine

/-! ### The destination write (R21) -/

/-- Every bit of a written register. -/
theorem writeLow32_getLsbD (w : VectorWidth) (old : VWord) (r : Word32) (i : Nat) :
    (writeLow32 w old r).getLsbD i =
      if i < 32 then r.getLsbD i
      else if i < 128 then old.getLsbD i
      else if i < w.bits then false
      else old.getLsbD i := by
  have hge : 512 ≤ i → old.getLsbD i = false := fun h => BitVec.getLsbD_of_ge _ _ h
  cases w <;> simp only [writeLow32, VectorWidth.bits, BitVec.getLsbD_append]
  · by_cases h1 : i < 32
    · simp [h1]
    · by_cases h2 : i < 128
      · have : i - 32 < 96 := by omega
        simp [h1, h2, this, show 32 + (i - 32) = i by omega]
      · have : ¬ i - 32 < 96 := by omega
        simp only [h1, h2, this, if_false, BitVec.getLsbD_extractLsb', show 128 + (i - 32 - 96) = i by omega]
        by_cases h3 : i < 512
        · simp [show i - 32 - 96 < 384 by omega]
        · simp [hge (by omega)]
  · by_cases h1 : i < 32
    · simp [h1]
    · by_cases h2 : i < 128
      · have : i - 32 < 96 := by omega
        simp [h1, h2, this, show 32 + (i - 32) = i by omega]
      · have h3 : ¬ i - 32 < 96 := by omega
        by_cases h4 : i < 256
        · simp [h1, h2, h3, h4, show i - 32 - 96 < 128 by omega]
        · simp only [h1, h2, h3, h4, if_false, show ¬ i - 32 - 96 < 128 by omega, BitVec.getLsbD_extractLsb',
            show 256 + (i - 32 - 96 - 128) = i by omega]
          by_cases h5 : i < 512
          · simp [show i - 32 - 96 - 128 < 256 by omega]
          · simp [hge (by omega)]
  · by_cases h1 : i < 32
    · simp [h1]
    · by_cases h2 : i < 128
      · have : i - 32 < 96 := by omega
        simp [h1, h2, this, show 32 + (i - 32) = i by omega]
      · have h3 : ¬ i - 32 < 96 := by omega
        by_cases h4 : i < 512
        · simp [h1, h2, h3, h4]
        · simp [h1, h2, h3, h4, hge (by omega)]

/-- Bits 31:0 of a written register. -/
theorem writeLow32_low (w : VectorWidth) (old : VWord) (r : Word32) :
    (writeLow32 w old r).extractLsb' 0 32 = r := by
  apply BitVec.eq_of_getLsbD_eq
  intro i hi
  rw [BitVec.getLsbD_extractLsb', writeLow32_getLsbD]
  simp [hi]

/-! ### The vector registers after a completion -/

theorem State.vreg_complete_self (s : State) (d : BitVec 5) (r : Word32) (f : FpFlags) (len : Nat) :
    (s.complete d r f len).vreg d = writeLow32 s.cfg.maxvl (s.vreg d) r := by
  simp [State.vreg]

theorem State.vreg_complete_ne (s : State) {d j : BitVec 5} (h : j ≠ d) (r : Word32) (f : FpFlags)
    (len : Nat) : (s.complete d r f len).vreg j = s.vreg j := by
  have : d.toNat ≠ j.toNat := fun e => h (BitVec.eq_of_toNat_eq e.symm)
  simp only [State.vreg, State.complete_v]
  exact Vector.getElem_set_ne d.isLt j.isLt this

theorem sameOutsideResult_complete (s : State) (d : BitVec 5) (r : Word32) (f : FpFlags) (len : Nat) :
    sameOutsideResult s (s.complete d r f len) := by
  simp [sameOutsideResult]

/-! ### Raising and delivering -/

theorem raise_ne_next (e : ExceptionName) (s t : State) : raise e s ≠ .next t := by
  simp [raise]

/-- `deliver` answers a next state exactly for a result. -/
theorem deliver_next {d : BitVec 5} {len : Nat} {out : FmsubOut} {s t : State} :
    deliver d len out s = .next t ↔ ∃ r f, out = .result r f ∧ t = s.complete d r f len := by
  cases out with
  | result r f =>
    constructor
    · intro h
      cases h
      exact ⟨r, f, rfl, rfl⟩
    · rintro ⟨r', f', h, rfl⟩
      cases h
      rfl
  | trap c => simp [deliver, raiseSimd, raise]

/-- `deliver` faults exactly for a trap, with the exception of R146 and the flags of R147. -/
theorem deliver_fault {d : BitVec 5} {len : Nat} {out : FmsubOut} {s : State} {x : Fault} :
    deliver d len out s = .fault x ↔
      ∃ c, out = .trap c ∧ x = .raised (if s.osXmmExcpt then .xm else .ud) (s.withTrapFlags c) := by
  cases out with
  | result r f => simp [deliver]
  | trap c =>
    constructor
    · intro h
      cases h
      exact ⟨c, rfl, rfl⟩
    · rintro ⟨c', h, rfl⟩
      cases h
      rfl

theorem deliver_refused {d : BitVec 5} {len : Nat} {out : FmsubOut} {s : State} {x : Refusal} :
    deliver d len out s ≠ .refused x := by
  cases out <;> simp [deliver, raiseSimd, raise]

/-! ### Operand 3 -/

/-- Reading the memory operand: what it answers and when (R154, R155, R156). -/
theorem State.loadOperand_cases (s : State) (p : List LegacyPrefix) (n8 : Nat) (nx : Word64)
    (m : MemOperand) :
    (s.canRead (s.linearAddress p n8 nx m) 4 = false ∧
      s.loadOperand p n8 nx m = .error (.memFault (s.linearAddress p n8 nx m))) ∨
    (s.canRead (s.linearAddress p n8 nx m) 4 = true ∧ s.acEnabled = true ∧
      (s.effectiveAddress p n8 nx m).extractLsb' 0 2 ≠ 0#2 ∧ s.loadOperand p n8 nx m = .error .ac) ∨
    (s.canRead (s.linearAddress p n8 nx m) 4 = true ∧
      (s.acEnabled = false ∨ (s.effectiveAddress p n8 nx m).extractLsb' 0 2 = 0#2) ∧
      s.loadOperand p n8 nx m = .ok (s.dwordAt (s.linearAddress p n8 nx m))) := by
  unfold State.loadOperand State.memRead4
  cases h : s.canRead (s.linearAddress p n8 nx m) 4
  · simp
  · by_cases ha : s.acEnabled = true <;>
      by_cases he : (s.effectiveAddress p n8 nx m).extractLsb' 0 2 = 0#2 <;> simp [ha, he]

/-- An exception on reading operand 3 is MemFault or `#AC`. -/
theorem State.loadOperand_error {s : State} {p : List LegacyPrefix} {n8 : Nat} {nx : Word64}
    {m : MemOperand} {e : ExceptionName} (h : s.loadOperand p n8 nx m = .error e) :
    (e = .memFault (s.linearAddress p n8 nx m)) ∨ (e = .ac ∧ s.acEnabled = true) := by
  rcases s.loadOperand_cases p n8 nx m with ⟨_, h'⟩ | ⟨_, ha, _, h'⟩ | ⟨_, _, h'⟩ <;>
    rw [h'] at h <;> cases h
  · exact .inl rfl
  · exact .inr ⟨rfl, ha⟩

theorem State.vexSrc3_error {s : State} {o : VexOperands} {e : ExceptionName}
    (h : s.vexSrc3 o = .error e) : (∃ a, e = .memFault a) ∨ (e = .ac ∧ s.acEnabled = true) := by
  unfold State.vexSrc3 at h
  cases hs : o.src3 with
  | reg x n => simp [hs] at h
  | mem m =>
    rw [hs] at h
    exact (State.loadOperand_error h).imp (fun h => ⟨_, h⟩) id

theorem State.evexSrc3_error {s : State} {o : EvexOperands} {e : ExceptionName}
    (h : s.evexSrc3 o = .error e) : (∃ a, e = .memFault a) ∨ (e = .ac ∧ s.acEnabled = true) := by
  unfold State.evexSrc3 at h
  cases hs : o.src3 with
  | reg n => simp [hs] at h
  | mem m =>
    rw [hs] at h
    exact (State.loadOperand_error h).imp (fun h => ⟨_, h⟩) id

/-! ### The frames -/

/-- In the enabled state the mode is 64-bit mode. -/
theorem State.vexEnabled_mode {s : State} (h : s.vexEnabled = true) : s.mode = .bits64 := by
  simp only [State.vexEnabled, Bool.and_eq_true, beq_iff_eq] at h
  exact h.2

theorem State.evexEnabled_mode {s : State} (h : s.evexEnabled = true) : s.mode = .bits64 := by
  simp only [State.evexEnabled, Bool.and_eq_true, beq_iff_eq] at h
  exact h.2

/-- Everything the frame of a VEX encoded version can do (R126). -/
theorem vexFrame_cases (choose : Word32 → Word32 → Word32 → Factors) (o : VexOperands) (s : State) :
    (s.mode = .bits32 ∧ vexFrame choose o s = .refused .mode32) ∨
    (s.mode ≠ .bits32 ∧ s.vexEnabled = false ∧ vexFrame choose o s = raise .ud s) ∨
    (s.vexEnabled = true ∧ s.taskSwitched = true ∧ vexFrame choose o s = raise .nm s) ∨
    (s.vexReady = true ∧ ∃ e, s.vexSrc3 o = .error e ∧ vexFrame choose o s = raise e s) ∨
    (s.vexReady = true ∧ ∃ s3, s.vexSrc3 o = .ok s3 ∧
      vexFrame choose o s = deliver (vexReg o.d) o.length
        (vexArith (choose (s.low32 (vexReg o.d)) (s.low32 (vexReg o.s2)) s3) s) s) := by
  unfold vexFrame
  by_cases hm : s.mode = .bits32
  · exact .inl ⟨hm, by rw [if_pos hm]⟩
  rw [if_neg hm]
  cases he : s.vexEnabled
  · exact .inr (.inl ⟨hm, rfl, by simp⟩)
  cases ht : s.taskSwitched
  · simp only [Bool.not_true, Bool.false_eq_true, if_false, State.vexReady, he, ht]
    cases hs : s.vexSrc3 o with
    | error e => exact .inr (.inr (.inr (.inl ⟨rfl, e, rfl, rfl⟩)))
    | ok s3 => exact .inr (.inr (.inr (.inr ⟨rfl, s3, rfl, rfl⟩)))
  · exact .inr (.inr (.inl ⟨rfl, rfl, by simp⟩))

/-- Everything the active branch of an EVEX encoded version can do (R132 step 4). -/
theorem evexActive_cases (choose : Word32 → Word32 → Word32 → Factors) (o : EvexOperands) (s : State) :
    (∃ e, s.evexSrc3 o = .error e ∧ evexActive choose o s = raise e s) ∨
    (∃ s3, s.evexSrc3 o = .ok s3 ∧ evexActive choose o s = deliver o.d o.length
        (evexArith o (choose (s.low32 o.d) (s.low32 o.s2) s3) s) s) := by
  unfold evexActive
  cases hs : s.evexSrc3 o with
  | error e => exact .inl ⟨e, rfl, rfl⟩
  | ok s3 => exact .inr ⟨s3, rfl, rfl⟩

/-- Everything a masked-off element can do (R133, R140). -/
theorem evexMaskedOff_cases (o : EvexOperands) (s : State) :
    (∃ a, s.maskedMemFault o = some a ∧ evexMaskedOff o s = raise (.memFault a) s) ∨
    (s.maskedMemFault o = none ∧
      evexMaskedOff o s = .next (s.complete o.d (s.maskedResult o) FpFlags.none o.length)) := by
  unfold evexMaskedOff
  cases h : s.maskedMemFault o with
  | some a => exact .inl ⟨a, rfl, rfl⟩
  | none => exact .inr ⟨rfl, rfl⟩

/-- Everything the frame of an EVEX encoded version can do (R132). -/
theorem evexFrame_cases (choose : Word32 → Word32 → Word32 → Factors) (o : EvexOperands) (s : State) :
    (s.mode = .bits32 ∧ evexFrame choose o s = .refused .mode32) ∨
    (s.mode ≠ .bits32 ∧ (s.evexEnabled = false ∨ o.illegal = true) ∧
      evexFrame choose o s = raise .ud s) ∨
    (s.evexEnabled = true ∧ o.illegal = false ∧ s.taskSwitched = true ∧
      evexFrame choose o s = raise .nm s) ∨
    (s.evexReady = true ∧ o.illegal = false ∧ s.elementOn o.aaa = true ∧
      evexFrame choose o s = evexActive choose o s) ∨
    (s.evexReady = true ∧ o.illegal = false ∧ s.elementOn o.aaa = false ∧
      evexFrame choose o s = evexMaskedOff o s) := by
  unfold evexFrame
  by_cases hm : s.mode = .bits32
  · exact .inl ⟨hm, by rw [if_pos hm]⟩
  rw [if_neg hm]
  cases he : s.evexEnabled
  · exact .inr (.inl ⟨hm, .inl rfl, by simp⟩)
  cases hi : o.illegal
  · cases ht : s.taskSwitched
    · cases hon : s.elementOn o.aaa
      · exact .inr (.inr (.inr (.inr ⟨by simp [State.evexReady, he, ht], rfl, rfl, by simp⟩)))
      · exact .inr (.inr (.inr (.inl ⟨by simp [State.evexReady, he, ht], rfl, rfl, by simp⟩)))
    · exact .inr (.inr (.inl ⟨rfl, rfl, rfl, by simp⟩))
  · exact .inr (.inl ⟨hm, .inr rfl, by simp⟩)

/-- Everything that makes the frame of a VEX encoded version raise an exception, and what it leaves (R126,
R146, R157). -/
theorem vexFrame_raised {choose : Word32 → Word32 → Word32 → Factors} {o : VexOperands} {s after : State}
    {e : ExceptionName} (h : vexFrame choose o s = .fault (.raised e after)) :
    (s.mode ≠ .bits32 ∧ s.vexEnabled = false ∧ e = .ud ∧ after = s) ∨
    (s.vexEnabled = true ∧ s.taskSwitched = true ∧ e = .nm ∧ after = s) ∨
    (s.vexReady = true ∧ s.vexSrc3 o = .error e ∧ after = s) ∨
    (s.vexReady = true ∧ ∃ s3 c, s.vexSrc3 o = .ok s3 ∧
      vexArith (choose (s.low32 (vexReg o.d)) (s.low32 (vexReg o.s2)) s3) s = .trap c ∧
      e = (if s.osXmmExcpt then .xm else .ud) ∧ after = s.withTrapFlags c) := by
  rcases vexFrame_cases choose o s with
    ⟨_, x⟩ | ⟨a, b, x⟩ | ⟨a, b, x⟩ | ⟨a, e', b, x⟩ | ⟨a, s3, b, x⟩ <;> rw [x] at h
  · cases h
  · cases h
    exact .inl ⟨a, b, rfl, rfl⟩
  · cases h
    exact .inr (.inl ⟨a, b, rfl, rfl⟩)
  · cases h
    exact .inr (.inr (.inl ⟨a, b, rfl⟩))
  · obtain ⟨c, hc, hx⟩ := deliver_fault.1 h
    cases hx
    exact .inr (.inr (.inr ⟨a, s3, c, b, hc, rfl, rfl⟩))

/-- Everything that makes the frame of an EVEX encoded version raise an exception, and what it leaves (R132,
R140, R146, R157). -/
theorem evexFrame_raised {choose : Word32 → Word32 → Word32 → Factors} {o : EvexOperands}
    {s after : State} {e : ExceptionName} (h : evexFrame choose o s = .fault (.raised e after)) :
    (s.mode ≠ .bits32 ∧ (s.evexEnabled = false ∨ o.illegal = true) ∧ e = .ud ∧ after = s) ∨
    (s.evexEnabled = true ∧ o.illegal = false ∧ s.taskSwitched = true ∧ e = .nm ∧ after = s) ∨
    (s.evexReady = true ∧ o.illegal = false ∧ s.elementOn o.aaa = true ∧ s.evexSrc3 o = .error e ∧
      after = s) ∨
    (s.evexReady = true ∧ o.illegal = false ∧ s.elementOn o.aaa = false ∧ (∃ a, e = .memFault a) ∧
      after = s) ∨
    (s.evexReady = true ∧ o.illegal = false ∧ s.elementOn o.aaa = true ∧ ∃ s3 c,
      s.evexSrc3 o = .ok s3 ∧ evexArith o (choose (s.low32 o.d) (s.low32 o.s2) s3) s = .trap c ∧
      e = (if s.osXmmExcpt then .xm else .ud) ∧ after = s.withTrapFlags c) := by
  rcases evexFrame_cases choose o s with
    ⟨_, x⟩ | ⟨a, b, x⟩ | ⟨a, b, c, x⟩ | ⟨a, b, on, x⟩ | ⟨a, b, on, x⟩ <;> rw [x] at h
  · cases h
  · cases h
    exact .inl ⟨a, b, rfl, rfl⟩
  · cases h
    exact .inr (.inl ⟨a, b, c, rfl, rfl⟩)
  · rcases evexActive_cases choose o s with ⟨e', h3, x⟩ | ⟨s3, h3, x⟩ <;> rw [x] at h
    · cases h
      exact .inr (.inr (.inl ⟨a, b, on, h3, rfl⟩))
    · obtain ⟨c, hc, hx⟩ := deliver_fault.1 h
      cases hx
      exact .inr (.inr (.inr (.inr ⟨a, b, on, s3, c, h3, hc, rfl, rfl⟩)))
  · rcases evexMaskedOff_cases o s with ⟨a', _, x⟩ | ⟨_, x⟩ <;> rw [x] at h
    · cases h
      exact .inr (.inr (.inr (.inl ⟨a, b, on, ⟨_, rfl⟩, rfl⟩)))
    · cases h

/-! ### The instructions, as frames -/

/-- Every VEX encoded version is the frame with the factors its digits name. -/
theorem exec_vex (form : Form) (o : VexOperands) (s : State) :
    exec (form.vex o) s = vexFrame (factorsOf form) o s := by
  cases form <;> rfl

/-- Every EVEX encoded version is the frame with the factors its digits name. -/
theorem exec_evex (form : Form) (o : EvexOperands) (s : State) :
    exec (form.evex o) s = evexFrame (factorsOf form) o s := by
  cases form <;> rfl

/-- Every instruction is a VEX or an EVEX encoded version of a form. -/
theorem instr_cases (i : Instr) : (∃ form o, i = Form.vex form o) ∨ (∃ form o, i = Form.evex form o) := by
  cases i with
  | vfmsub132ssVex o => exact .inl ⟨.f132, o, rfl⟩
  | vfmsub213ssVex o => exact .inl ⟨.f213, o, rfl⟩
  | vfmsub231ssVex o => exact .inl ⟨.f231, o, rfl⟩
  | vfmsub132ssEvex o => exact .inr ⟨.f132, o, rfl⟩
  | vfmsub213ssEvex o => exact .inr ⟨.f213, o, rfl⟩
  | vfmsub231ssEvex o => exact .inr ⟨.f231, o, rfl⟩

@[simp] theorem length_vex (form : Form) (o : VexOperands) : (form.vex o).length = o.length := by
  cases form <;> rfl

@[simp] theorem length_evex (form : Form) (o : EvexOperands) : (form.evex o).length = o.length := by
  cases form <;> rfl

@[simp] theorem destination_vex (form : Form) (o : VexOperands) :
    destination (form.vex o) = vexReg o.d := by
  cases form <;> rfl

@[simp] theorem destination_evex (form : Form) (o : EvexOperands) :
    destination (form.evex o) = o.d := by
  cases form <;> rfl

/-- A next state is a completion: the destination written as R21 says, flags ORed in, `pc` advanced. -/
theorem exec_next {i : Instr} {s t : State} (h : exec i s = .next t) :
    ∃ r f, t = s.complete (destination i) r f i.length := by
  rcases instr_cases i with ⟨form, o, rfl⟩ | ⟨form, o, rfl⟩
  · rw [exec_vex] at h
    rcases vexFrame_cases (factorsOf form) o s with ⟨_, e⟩ | ⟨_, _, e⟩ | ⟨_, _, e⟩ | ⟨_, _, _, e⟩ | ⟨_, _, _, e⟩ <;>
      rw [e] at h
    · cases h
    · exact absurd h (raise_ne_next _ _ _)
    · exact absurd h (raise_ne_next _ _ _)
    · exact absurd h (raise_ne_next _ _ _)
    · obtain ⟨r, f, -, rfl⟩ := deliver_next.1 h
      exact ⟨r, f, by simp⟩
  · rw [exec_evex] at h
    rcases evexFrame_cases (factorsOf form) o s with ⟨_, e⟩ | ⟨_, _, e⟩ | ⟨_, _, _, e⟩ | ⟨_, _, _, e⟩ | ⟨_, _, _, e⟩ <;>
      rw [e] at h
    · cases h
    · exact absurd h (raise_ne_next _ _ _)
    · exact absurd h (raise_ne_next _ _ _)
    · rcases evexActive_cases (factorsOf form) o s with ⟨_, _, e⟩ | ⟨_, _, e⟩ <;> rw [e] at h
      · exact absurd h (raise_ne_next _ _ _)
      · obtain ⟨r, f, -, rfl⟩ := deliver_next.1 h
        exact ⟨r, f, by simp⟩
    · rcases evexMaskedOff_cases o s with ⟨_, _, e⟩ | ⟨_, e⟩ <;> rw [e] at h
      · exact absurd h (raise_ne_next _ _ _)
      · cases h
        exact ⟨s.maskedResult o, FpFlags.none, by simp⟩

end Sys2Proof.Machine
end

