-- ==== Sys2Proof/Laws/Memory.lean ====
section
/-! SUPPORT. The laws of memory and of the program map: a read after a write, and that every memory
operation keeps the canonical form. -/

namespace Sys2Proof.Machine

/-! ### Canonical form -/

theorem risingFrom_mono {lo lo' : Nat} (h : lo' ≤ lo) {cs : List Host.Cell}
    (hr : risingFrom lo cs = true) : risingFrom lo' cs = true := by
  cases cs with
  | nil => rfl
  | cons c cs =>
    simp only [risingFrom, Bool.and_eq_true, decide_eq_true_eq] at hr ⊢
    exact ⟨by omega, hr.2⟩

theorem putCell_rising {lo : Nat} {cs : List Host.Cell} {a : Nat} {x : Byte}
    (hr : risingFrom lo cs = true) (ha : lo ≤ a) : risingFrom lo (putCell cs a x) = true := by
  induction cs generalizing lo with
  | nil => simp [putCell, risingFrom, ha]
  | cons c cs ih =>
    obtain ⟨b, y⟩ := c
    simp only [risingFrom, Bool.and_eq_true, decide_eq_true_eq] at hr
    simp only [putCell]
    split
    · simp only [risingFrom, Bool.and_eq_true, decide_eq_true_eq]
      exact ⟨ha, by omega, hr.2⟩
    · split
      · subst_vars
        simp only [risingFrom, Bool.and_eq_true, decide_eq_true_eq]
        exact ⟨ha, hr.2⟩
      · simp only [risingFrom, Bool.and_eq_true, decide_eq_true_eq]
        exact ⟨hr.1, ih hr.2 (by omega)⟩

theorem dropCell_rising {lo : Nat} {cs : List Host.Cell} {a : Nat}
    (hr : risingFrom lo cs = true) : risingFrom lo (dropCell cs a) = true := by
  induction cs generalizing lo with
  | nil => rfl
  | cons c cs ih =>
    obtain ⟨b, y⟩ := c
    simp only [risingFrom, Bool.and_eq_true, decide_eq_true_eq] at hr
    simp only [dropCell]
    split
    · exact risingFrom_mono (by omega) hr.2
    · simp only [risingFrom, Bool.and_eq_true, decide_eq_true_eq]
      exact ⟨hr.1, ih hr.2⟩

theorem mem_putCell {cs : List Host.Cell} {a : Nat} {x : Byte} {c : Host.Cell}
    (h : c ∈ putCell cs a x) : c = (a, x) ∨ c ∈ cs := by
  induction cs with
  | nil => simpa [putCell] using h
  | cons d cs ih =>
    obtain ⟨b, y⟩ := d
    simp only [putCell] at h
    split at h
    · simpa using h
    · split at h
      · rcases List.mem_cons.1 h with h | h <;> simp [h]
      · rcases List.mem_cons.1 h with h | h
        · simp [h]
        · rcases ih h with h | h <;> simp [h]

theorem mem_dropCell {cs : List Host.Cell} {a : Nat} {c : Host.Cell} (h : c ∈ dropCell cs a) :
    c ∈ cs := by
  induction cs with
  | nil => simp [dropCell] at h
  | cons d cs ih =>
    obtain ⟨b, y⟩ := d
    simp only [dropCell] at h
    split at h
    · simp [h]
    · rcases List.mem_cons.1 h with h | h
      · simp [h]
      · simp [ih h]

/-- A write keeps the canonical form. -/
theorem Memory.write_wf {m : List Host.Cell} (h : Memory.wf m = true) (a : Nat) (x : Byte) :
    Memory.wf (Memory.write m a x) = true := by
  simp only [Memory.wf, rising, Bool.and_eq_true, List.all_eq_true] at h ⊢
  unfold Memory.write
  split
  · exact ⟨dropCell_rising h.1, fun c hc => h.2 c (mem_dropCell hc)⟩
  · refine ⟨putCell_rising h.1 (Nat.zero_le a), fun c hc => ?_⟩
    rcases mem_putCell hc with rfl | hc
    · simpa using ‹¬ x = unwrittenByte›
    · exact h.2 c hc

theorem placeData_wf {m : List Host.Cell} (h : Memory.wf m = true) (a : Word64) (bs : List Byte) :
    Memory.wf (placeData m a bs) = true := by
  induction bs generalizing m a with
  | nil => exact h
  | cons b bs ih => exact ih (Memory.write_wf h _ _) _

theorem placeCode_rising {code : List Host.Cell} (h : rising code = true) (a : Word64)
    (bs : List Byte) : rising (placeCode code a bs) = true := by
  induction bs generalizing code a with
  | nil => exact h
  | cons b bs ih => exact ih (putCell_rising h (Nat.zero_le _)) _

theorem reset_mem_wf : Memory.wf State.reset.mem = true := rfl

/-! ### Read after write -/

theorem cellAt_of_lt {lo : Nat} {cs : List Host.Cell} {a : Nat} (hr : risingFrom lo cs = true)
    (h : a < lo) : cellAt cs a = none := by
  induction cs generalizing lo with
  | nil => rfl
  | cons c cs ih =>
    obtain ⟨b, y⟩ := c
    simp only [risingFrom, Bool.and_eq_true, decide_eq_true_eq] at hr
    simp only [cellAt]
    rw [if_neg (by omega)]
    exact ih hr.2 (by omega)

theorem cellAt_putCell {cs : List Host.Cell} (a : Nat) (x : Byte) (b : Nat) :
    cellAt (putCell cs a x) b = if a = b then some x else cellAt cs b := by
  induction cs with
  | nil => simp [putCell, cellAt]
  | cons c cs ih =>
    obtain ⟨e, y⟩ := c
    simp only [putCell]
    split
    · simp [cellAt]
    · split
      · subst_vars
        simp only [cellAt]
        split <;> rfl
      · simp only [cellAt, ih]
        split
        · subst_vars
          rw [if_neg ‹_›]
        · rfl

theorem cellAt_dropCell {lo : Nat} {cs : List Host.Cell} (hr : risingFrom lo cs = true) (a b : Nat) :
    cellAt (dropCell cs a) b = if a = b then none else cellAt cs b := by
  induction cs generalizing lo with
  | nil => simp [dropCell, cellAt]
  | cons c cs ih =>
    obtain ⟨e, y⟩ := c
    simp only [risingFrom, Bool.and_eq_true, decide_eq_true_eq] at hr
    simp only [dropCell]
    split
    · subst_vars
      simp only [cellAt]
      split
      · subst_vars
        exact cellAt_of_lt hr.2 (by omega)
      · rfl
    · simp only [cellAt, ih hr.2]
      split
      · subst_vars
        rw [if_neg (Ne.symm ‹_›)]
      · rfl

/-- Reading any byte after a write: the byte written at its address, and what was there before
elsewhere. -/
theorem Memory.read_write {m : List Host.Cell} (h : Memory.wf m = true) (a : Nat) (x : Byte) (b : Nat) :
    Memory.read (Memory.write m a x) b = if a = b then x else Memory.read m b := by
  simp only [Memory.wf, rising, Bool.and_eq_true] at h
  unfold Memory.read Memory.write
  by_cases hx : x = unwrittenByte
  · rw [if_pos hx, cellAt_dropCell h.1]
    split <;> simp [hx]
  · rw [if_neg hx, cellAt_putCell]
    split <;> rfl

end Sys2Proof.Machine
end

