-- ==== Sys2Proof/Laws/PerInstr.lean ====
section
/-! SUPPORT. Statements made for all instructions, one lemma per constructor. -/

namespace Sys2Proof.Laws.EncodeLength

open Sys2Proof

/-- The encoder writes as many bytes as the instruction is long (R84). -/
def Statement (i : Instr) : Prop := (encode i).length = i.length

theorem fields_tail (m : MemOperand) : m.fields.tail.length = m.tailLength := by
  cases m <;>
    simp [MemOperand.fields, MemOperand.tailLength, Disp.bytes_length, word32Bytes, Nat.add_comm]

theorem encodeVex_length (f : Form) (o : VexOperands) : (encodeVex f o).length = o.length := by
  have h : o.src3.fields.tail.length = o.src3.tailLength := by
    cases o.src3 with
    | reg x n => rfl
    | mem m => exact fields_tail m
  simp only [encodeVex, List.length_append, List.length_map, List.length_cons, h,
    VexOperands.length]
  omega

theorem encodeEvex_length (f : Form) (o : EvexOperands) : (encodeEvex f o).length = o.length := by
  have h : o.src3.fields.tail.length = o.src3.tailLength := by
    cases o.src3 with
    | reg n => rfl
    | mem m => exact fields_tail m
  simp only [encodeEvex, List.length_append, List.length_map, List.length_cons, h,
    EvexOperands.length]
  omega

theorem vfmsub132ssVex (o : VexOperands) : Statement (.vfmsub132ssVex o) := encodeVex_length _ o
theorem vfmsub213ssVex (o : VexOperands) : Statement (.vfmsub213ssVex o) := encodeVex_length _ o
theorem vfmsub231ssVex (o : VexOperands) : Statement (.vfmsub231ssVex o) := encodeVex_length _ o
theorem vfmsub132ssEvex (o : EvexOperands) : Statement (.vfmsub132ssEvex o) := encodeEvex_length _ o
theorem vfmsub213ssEvex (o : EvexOperands) : Statement (.vfmsub213ssEvex o) := encodeEvex_length _ o
theorem vfmsub231ssEvex (o : EvexOperands) : Statement (.vfmsub231ssEvex o) := encodeEvex_length _ o

end Sys2Proof.Laws.EncodeLength
end

