-- ==== Sys2Proof/Tests/Slice0.lean ====
section
/-! SUPPORT. The tests: ill-formed terms the checks refuse, words written out bit by bit, single steps from
`95_test_vectors.md`, and a witness for the hypotheses of every statement. -/

namespace Sys2Proof.Tests

open Sys2Proof Sys2Proof.Machine

set_option Elab.async false

/-! ### States and operands for the tests -/

/-- A launched machine with an MXCSR value and the low doublewords of XMM1, XMM2, XMM3. -/
def machine (mxcsr d s2 s3 : Word32) : State :=
  { State.reset.launch with
    mxcsr := mxcsr
    v := (((Vector.replicate 32 0#512).set 1 (d.setWidth 512)).set 2 (s2.setWidth 512)).set 3
      (s3.setWidth 512) }

/-- The same with a value in every opmask register. -/
def maskedMachine (mxcsr d s2 s3 : Word32) (mask : Word64) : State :=
  { machine mxcsr d s2 s3 with k := Vector.replicate 8 mask }

/-- The machine of V1: 2, 1, 3, everything masked. -/
def machine1 : State := machine 0x1F80#32 0x40000000#32 0x3F800000#32 0x40400000#32

/-- XMM1, XMM2, XMM3. -/
def vexRegs : VexOperands := ⟨[], 1#4, 2#4, .reg 0#1 3#4, 0#1⟩

/-- XMM1, XMM2, `[RAX]`. -/
def vexMem : VexOperands := ⟨[], 1#4, 2#4, .mem (.base 0#1 0#4 .none), 0#1⟩

/-- XMM1, XMM2, XMM3, no writemask. -/
def evexRegs : EvexOperands := ⟨[], 1#5, 2#5, .reg 3#5, 0#3, false, false, 0#2⟩

/-- XMM1, XMM2, `[RAX]`, no writemask. -/
def evexMem : EvexOperands := ⟨[], 1#5, 2#5, .mem (.base 0#1 0#4 .none), 0#3, false, false, 0#2⟩

/-- XMM1 under k1, XMM2, XMM3. -/
def evexMasked : EvexOperands := { evexRegs with aaa := 1#3 }

/-- XMM1, XMM2, XMM3, embedded rounding to nearest. -/
def evexRounded : EvexOperands := { evexRegs with b := true }

/-- What a step leaves in the low doubleword of a register and in MXCSR. -/
def lowAndMxcsr (out : Host.Outcome State Fault Refusal) (r : BitVec 5) : Option (Word32 × Word32) :=
  match out with
  | .next t => some (t.low32 r, t.mxcsr)
  | .fault _ => none
  | .refused _ => none

/-- The exception an outcome raises. -/
def raisedBy (out : Host.Outcome State Fault Refusal) : Option ExceptionName :=
  match out with
  | .next _ => none
  | .fault (.raised e _) => some e
  | .fault (.stuck _) => none
  | .refused _ => none

/-! ### Ill-formed terms are refused -/

/-- R78: rm = 100b is the SIB escape, so it is no base register without SIB. -/
theorem test_wf_base_is_sib_escape :
    (Instr.vfmsub132ssVex { vexRegs with src3 := .mem (.base 0#1 12#4 .none) }).wf = false := by decide

/-- R78: base RBP or R13 without displacement is another form, without and with SIB. -/
theorem test_wf_base_needs_displacement :
    (Instr.vfmsub132ssVex { vexRegs with src3 := .mem (.base 0#1 5#4 .none) }).wf = false ∧
    (Instr.vfmsub213ssEvex { evexRegs with src3 := .mem (.sib 0#2 0#4 13#4 .none) }).wf = false := by
  decide

/-- R90, R91, R92. -/
theorem test_wf_illegal_fields :
    (Instr.vfmsub132ssEvex { evexRegs with z := true }).wf = false ∧
    (Instr.vfmsub132ssEvex { evexMem with b := true }).wf = false ∧
    (Instr.vfmsub132ssEvex { evexRegs with ll := 3#2 }).wf = false := by decide

/-- R84: 15 bytes are the most. -/
theorem test_wf_too_long :
    (Instr.vfmsub132ssVex { vexRegs with prefixes := List.replicate 11 .ds }).wf = false ∧
    (Instr.vfmsub132ssEvex { evexRegs with prefixes := List.replicate 10 .ds }).wf = false ∧
    (Instr.vfmsub132ssVex { vexRegs with prefixes := List.replicate 10 .ds }).wf = true ∧
    (Instr.vfmsub132ssEvex { evexRegs with prefixes := List.replicate 9 .ds }).wf = true := by decide

/-! ### Words written out bit by bit (R70, R71, R73 to R78) -/

/-- VFMSUB132SS xmm1, xmm2, xmm3: byte 1 is R X B inverted and map 2, byte 2 is W, vvvv inverted, L, pp. -/
theorem test_decode_vfmsub132ss_vex :
    decode .none [0b11000100#8, 0b11100010#8, 0b01101001#8, 0b10011011#8, 0b11001011#8] =
      .ok (.vfmsub132ssVex vexRegs, []) := by decide

/-- VFMSUB213SS xmm9, xmm10, xmm11: R, B and the high bit of vvvv. -/
theorem test_decode_vfmsub213ss_vex :
    decode .none [0b11000100#8, 0b01000010#8, 0b00101001#8, 0b10101011#8, 0b11001011#8] =
      .ok (.vfmsub213ssVex ⟨[], 9#4, 10#4, .reg 0#1 11#4, 0#1⟩, []) := by decide

/-- VFMSUB231SS xmm1, xmm2, `[rax + rcx*8 + 12345678H]`: SIB and a little-endian displacement. -/
theorem test_decode_vfmsub231ss_vex :
    decode .none [0b11000100#8, 0b11100010#8, 0b01101001#8, 0b10111011#8, 0b10001100#8, 0b11001000#8,
        0x78#8, 0x56#8, 0x34#8, 0x12#8] =
      .ok (.vfmsub231ssVex
        ⟨[], 1#4, 2#4, .mem (.sib 3#2 1#4 0#4 (.d32 0x12345678#32)), 0#1⟩, []) := by decide

/-- VFMSUB132SS xmm1 under k1 with zeroing, xmm2, xmm3: P2 is z, L'L, b, V' inverted, aaa. -/
theorem test_decode_vfmsub132ss_evex :
    decode .none [0b01100010#8, 0b11110010#8, 0b01101101#8, 0b10001001#8, 0b10011011#8, 0b11001011#8] =
      .ok (.vfmsub132ssEvex { evexRegs with aaa := 1#3, z := true }, []) := by decide

/-- VFMSUB213SS xmm31 under k7, xmm30, xmm29, round toward zero (the word of E17). -/
theorem test_decode_vfmsub213ss_evex :
    decode .none [0b01100010#8, 0b00000010#8, 0b00001101#8, 0b01110111#8, 0b10101011#8, 0b11111101#8] =
      .ok (.vfmsub213ssEvex ⟨[], 31#5, 30#5, .reg 29#5, 7#3, false, true, 3#2⟩, []) := by decide

/-- VFMSUB231SS xmm1 under k2 with zeroing, xmm2, `[rax + 4]` (the word of E8). -/
theorem test_decode_vfmsub231ss_evex :
    decode .none [0b01100010#8, 0b11110010#8, 0b01101101#8, 0b10001010#8, 0b10111011#8, 0b01001000#8,
        0b00000001#8] =
      .ok (.vfmsub231ssEvex
        ⟨[], 1#5, 2#5, .mem (.base 0#1 0#4 (.d8 1#8)), 2#3, true, false, 0#2⟩, []) := by decide

/-- The illegal encodings I1 to I4 of `95_test_vectors.md`, each by its reason. -/
theorem test_decode_illegal_evex :
    decode .none [0x62#8, 0xF2#8, 0x6D#8, 0x88#8, 0x9B#8, 0xCB#8] =
      .error (.undefinedOpcode .masking) ∧
    decode .none [0x62#8, 0xF2#8, 0x6D#8, 0x18#8, 0x9B#8, 0x08#8] =
      .error (.undefinedOpcode .broadcast) ∧
    decode .none [0x62#8, 0xF2#8, 0x6D#8, 0x68#8, 0x9B#8, 0xCB#8] =
      .error (.undefinedOpcode .vectorLength) ∧
    decode .none [0x62#8, 0xF2#8, 0x69#8, 0x08#8, 0x9B#8, 0xCB#8] =
      .error (.undefinedOpcode .fixedBits) := by decide

/-- The illegal encodings I5 to I8: LOCK, 66H, REX. -/
theorem test_decode_illegal_prefixes :
    decode .none [0xF0#8, 0xC4#8, 0xE2#8, 0x69#8, 0x9B#8, 0xCB#8] =
      .error (.undefinedOpcode .precedingPrefix) ∧
    decode .none [0x66#8, 0xC4#8, 0xE2#8, 0x69#8, 0x9B#8, 0xCB#8] =
      .error (.undefinedOpcode .precedingPrefix) ∧
    decode .none [0x48#8, 0xC4#8, 0xE2#8, 0x69#8, 0x9B#8, 0xCB#8] =
      .error (.undefinedOpcode .precedingPrefix) ∧
    decode .none [0x66#8, 0x62#8, 0xF2#8, 0x6D#8, 0x08#8, 0x9B#8, 0xCB#8] =
      .error (.undefinedOpcode .precedingPrefix) := by decide

/-- R72 and R87: the two-byte VEX prefix and other opcodes are not in scope. -/
theorem test_decode_not_in_scope :
    decode .none [0xC5#8, 0xE9#8, 0x9B#8, 0xCB#8] = .error .notInScope ∧
    decode .none [0xC4#8, 0xE2#8, 0x69#8, 0x9A#8, 0xCB#8] = .error .notInScope := by decide

/-- R87: bytes that end too soon are cut short only while they begin one of the six encodings; a byte that
matches no row is refused as soon as it is read. -/
theorem test_decode_cut_short :
    decode .none [0xC4#8, 0xE1#8, 0x78#8, 0x77#8] = .error .notInScope ∧
    decode .none [0xC4#8, 0xE2#8, 0x69#8, 0x9A#8] = .error .notInScope ∧
    decode .none [0x62#8, 0xF1#8] = .error .notInScope ∧
    decode .none [0x62#8, 0xF6#8] = .error .notInScope ∧
    decode .none [0xC4#8, 0xE2#8] = .error .truncated ∧
    decode .none [0x62#8, 0xF2#8, 0x6D#8, 0x08#8, 0x9B#8] = .error .truncated := by decide

/-- Log 16: an EVEX encoding that is illegal and over 15 bytes is undefined, a legal one is refused. -/
theorem test_decode_too_long :
    decode .segmentAndAddressSize
        (List.replicate 10 0x3E#8 ++ [0x62#8, 0xF2#8, 0x6D#8, 0x88#8, 0x9B#8, 0xCB#8]) =
      .error (.undefinedOpcode .masking) ∧
    decode .segmentAndAddressSize
        (List.replicate 10 0x3E#8 ++ [0x62#8, 0xF2#8, 0x6D#8, 0x08#8, 0x9B#8, 0xCB#8]) =
      .error .tooLong := by decide

/-! ### The table of exceptions (R148) -/

theorem test_exception_rows :
    [ExceptionName.ud, .nm, .memFault 0#64, .ac, .xm].map ExceptionName.vectors =
      [[6], [7], [12, 13, 14], [17], [19]] ∧
    ExceptionName.ac.rows.map (fun r => (r.errorCode.admits (some 0#32), r.errorCode.admits none)) =
      [(true, false)] ∧
    ExceptionName.ud.rows.map (fun r => (r.errorCode.admits (some 0#32), r.errorCode.admits none)) =
      [(false, true)] ∧
    (ErrorCode.pageFault.admits (some 5#32) = true ∧ ErrorCode.pageFault.admits (some 2#32) = false) := by
  decide

/-! ### Single steps, from `95_test_vectors.md` sections 2 and 3 -/

/-- V1: 2*3 - 1 = 5, fetched and executed from its bytes. -/
theorem test_step_vfmsub132ss_vex :
    lowAndMxcsr (step (machine1.launchWith [0xC4#8, 0xE2#8, 0x69#8, 0x9B#8, 0xCB#8])) 1#5 =
      some (0x40A00000#32, 0x1F80#32) := by decide +kernel

/-- V9: inexact, rounded up, PE set. -/
theorem test_exec_vfmsub132ss_vex_rounds_up :
    lowAndMxcsr (exec (.vfmsub132ssVex vexRegs)
      (machine 0x5F80#32 0x3F800001#32 0#32 0x3F800001#32)) 1#5 =
      some (0x3F800003#32, 0x5FA0#32) := by decide +kernel

/-- V2: 1*2 - 3 = -1. -/
theorem test_exec_vfmsub213ss_vex :
    lowAndMxcsr (exec (.vfmsub213ssVex vexRegs) machine1) 1#5 =
      some (0xBF800000#32, 0x1F80#32) := by decide +kernel

/-- V25: the NaN of the multiplicand, which is operand 2 here, is the one returned. -/
theorem test_exec_vfmsub213ss_vex_nan :
    lowAndMxcsr (exec (.vfmsub213ssVex vexRegs)
      (machine 0x1F80#32 0x7FC00001#32 0x7FC00002#32 0x7FC00003#32)) 1#5 =
      some (0x7FC00002#32, 0x1F80#32) := by decide +kernel

/-- V3: 1*3 - 2 = 1. -/
theorem test_exec_vfmsub231ss_vex :
    lowAndMxcsr (exec (.vfmsub231ssVex vexRegs) machine1) 1#5 =
      some (0x3F800000#32, 0x1F80#32) := by decide +kernel

/-- V6: a single rounding; an unfused product would give 0. -/
theorem test_exec_vfmsub231ss_vex_fused :
    lowAndMxcsr (exec (.vfmsub231ssVex vexRegs)
      (machine 0x1F80#32 0x3F800002#32 0x3F800001#32 0x3F800001#32)) 1#5 =
      some (0x28800000#32, 0x1F80#32) := by decide +kernel

/-- E7: masked off, with a SNaN and everything unmasked: unchanged, no flag, no trap. -/
theorem test_exec_vfmsub132ss_evex_masked_off :
    lowAndMxcsr (exec (.vfmsub132ssEvex evexMasked)
      (machine 0#32 0x7F800001#32 0x3F800000#32 1#32)) 1#5 =
      some (0x7F800001#32, 0#32) := by decide +kernel

/-- E9: embedded rounding overrides MXCSR and writes no flag. -/
theorem test_exec_vfmsub132ss_evex_embedded :
    lowAndMxcsr (exec (.vfmsub132ssEvex evexRounded)
      (machine 0x5F80#32 0x3F800001#32 0#32 0x3F800001#32)) 1#5 =
      some (0x3F800002#32, 0x5F80#32) := by decide +kernel

/-- E4: zeroing-masking. -/
theorem test_exec_vfmsub213ss_evex_zeroed :
    lowAndMxcsr (exec (.vfmsub213ssEvex { evexMasked with z := true }) machine1) 1#5 =
      some (0#32, 0x1F80#32) := by decide +kernel

/-- E5: the same with the mask bit set. -/
theorem test_exec_vfmsub213ss_evex_active :
    lowAndMxcsr (exec (.vfmsub213ssEvex { evexMasked with z := true })
      (maskedMachine 0x1F80#32 0x40000000#32 0x3F800000#32 0x40400000#32 1#64)) 1#5 =
      some (0xBF800000#32, 0x1F80#32) := by decide +kernel

/-- E8: the memory form, whose 8-bit displacement 1 stands for 4. -/
theorem test_exec_vfmsub231ss_evex_memory :
    lowAndMxcsr (exec
      (.vfmsub231ssEvex ⟨[], 1#5, 2#5, .mem (.base 0#1 0#4 (.d8 1#8)), 2#3, true, false, 0#2⟩)
      { maskedMachine 0x1F80#32 0x3F800000#32 0x40000000#32 0#32 1#64 with
        mem := placeData [] 4#64 [0x00#8, 0x00#8, 0x40#8, 0x40#8] }) 1#5 =
      some (0x40A00000#32, 0x1F80#32) := by decide +kernel

/-- E19 with X13: without embedded rounding an EVEX form traps, as `#XM` or `#UD` by CR4.OSXMMEXCPT. -/
theorem test_exec_vfmsub231ss_evex_traps :
    raisedBy (exec (.vfmsub231ssEvex evexRegs)
      (machine 0x1F00#32 0x7FC00001#32 0x7F800001#32 0x3F800000#32)) = some .ud ∧
    raisedBy (exec (.vfmsub231ssEvex evexRegs)
      { machine 0x1F00#32 0x7FC00001#32 0x7F800001#32 0x3F800000#32 with cr4 := 0x40400#64 }) =
      some .xm := by decide +kernel

/-- A word of the opcode table, whose free bits are 0: it decodes, and from RESET it runs once launched. -/
theorem test_table_word :
    decodeTableWord 32 0x9B0102C4 =
      some (.vfmsub132ssVex ⟨[], 8#4, 15#4, .mem (.base 1#1 8#4 .none), 0#1⟩) ∧
    (lowAndMxcsr (step (State.reset.withFetchWord 32 0x9B0102C4)) 8#5).isSome = true := by
  decide +kernel

/-- Section 4 of `95_test_vectors.md`, row 29: in the EVEX version `[r8 + r9*4 + 256]` has the 8-bit
displacement 40H. -/
theorem test_assemble_scales_displacement :
    encode (assemble ⟨.vfmsub231ss, true, 16#5, 2#5, .mem (.sum (some 8#4) (some (9#4, 2#2)) 256#32),
      0#3, false, none⟩) =
      [0x62#8, 0x82#8, 0x6D#8, 0x08#8, 0xBB#8, 0x44#8, 0x88#8, 0x40#8] := by decide +kernel

/-! ### Witnesses: every statement's hypotheses can be met -/

theorem witness_DecodeOfEncode :
    (Instr.vfmsub231ssEvex { evexMem with prefixes := List.replicate 9 .gs }).wf = true := by decide

theorem witness_EncodeOfDecode :
    decode .segmentAndAddressSize [0x64#8, 0xC4#8, 0xE2#8, 0x69#8, 0x9B#8, 0xCB#8, 0x90#8] =
      .ok (.vfmsub132ssVex { vexRegs with prefixes := [.fs] }, [0x90#8]) := by decide

theorem witness_PolicyNoneRefusesLegacyPrefixes :
    (Instr.vfmsub213ssVex vexMem).wf = true ∧ (Instr.vfmsub213ssVex vexMem).prefixes = [] ∧
    (Instr.vfmsub213ssVex { vexMem with prefixes := [.gs] }).wf = true ∧
    (Instr.vfmsub213ssVex { vexMem with prefixes := [.gs] }).prefixes ≠ [] := by decide

/-- One illegal combination for each of R90, R91, R92, the first at the longest length and the others without
prefixes, as the policy `none` asks, and a mode that meets the second clause. -/
theorem witness_IllegalEvexFieldsAreUndefined :
    (∀ o ∈ [{ evexRegs with z := true, prefixes := List.replicate 9 .cs },
        { evexMem with b := true }, { evexMem with ll := 3#2 }, { evexRegs with ll := 3#2 }],
      ((o.z = true ∧ o.aaa = 0#3) ∨ (o.b = true ∧ o.src3.isReg = false) ∨
        (o.ll = 3#2 ∧ ¬ (o.b = true ∧ o.src3.isReg = true))) ∧
      o.src3.wf = true ∧ o.length ≤ 15) ∧
    ({ evexMem with b := true } : EvexOperands).prefixes = [] ∧
    ({ evexRegs with ll := 3#2 } : EvexOperands).prefixes = [] ∧
    machine1.mode ≠ .bits32 := by decide

/-- `P0[3:2]` = 01b, 10b, 11b with legal `P1`, and `P1[2]` = 0 with legal `P0`. -/
theorem witness_EvexFixedBitsAreChecked :
    (∀ p0 ∈ [0xF6#8, 0xFA#8, 0xFE#8, 0xF2#8], (p0 : Byte).extractLsb' 0 2 = 2#2) ∧
    (∀ p1 ∈ [0x6D#8, 0x69#8], (p1 : Byte).extractLsb' 7 1 = 0#1 ∧ p1.extractLsb' 0 2 = 1#2) ∧
    (0xCB#8).extractLsb' 6 2 = 3#2 ∧ (0xF6#8).extractLsb' 2 2 = 1#2 ∧
    (0xFA#8).extractLsb' 2 2 = 2#2 ∧ (0xFE#8).extractLsb' 2 2 = 3#2 ∧
    (0xF2#8).extractLsb' 2 2 = 0#2 ∧ (0x69#8).extractLsb' 2 1 = 0#1 := by decide

theorem witness_IllegalPrecedingPrefixIsUndefined :
    (∀ b ∈ [0x66#8, 0xF2#8, 0xF3#8, 0xF0#8, 0x40#8, 0x4F#8],
      b = 0x66#8 ∨ b = 0xF2#8 ∨ b = 0xF3#8 ∨ b = 0xF0#8 ∨ (b : Byte).extractLsb' 4 4 = 4#4) ∧
    (Instr.vfmsub132ssEvex { evexRegs with prefixes := List.replicate 8 .ds }).wf = true ∧
    (Instr.vfmsub132ssEvex { evexRegs with prefixes := List.replicate 8 .ds }).length + 1 ≤ 15 := by
  decide

/-- Both ends of the range of bytes with `W` = 1. -/
theorem witness_WOneIsNotInScope :
    (0x80#8).extractLsb' 7 1 = 1#1 ∧ (0xFF#8).extractLsb' 7 1 = 1#1 := by decide

theorem witness_VectorLengthIsIgnored :
    (evexRegs.b && evexRegs.src3.isReg) = false ∧ evexRegs.ll ≠ 3#2 ∧ (2#2) ≠ 3#2 := by decide

/-- Both ends of the memory forms' range of lengths are reached. -/
theorem witness_EncodedLengths :
    (encode (Form.f132.vex vexMem)).length = 5 ∧
    (encode (Form.f132.vex { vexMem with src3 := .mem (.sib 0#2 0#4 0#4 (.d32 1#32)) })).length = 10 ∧
    (encode (Form.f132.evex evexMem)).length = 6 ∧
    (encode (Form.f132.evex { evexMem with src3 := .mem (.sib 0#2 0#4 0#4 (.d32 1#32)) })).length = 11 ∧
    decode .segmentAndAddressSize (encode (Form.f132.vex { vexRegs with prefixes := List.replicate 10 .es })) =
      .ok (Form.f132.vex { vexRegs with prefixes := List.replicate 10 .es }, []) := by
  decide +kernel

/-- A text for the VEX version in a complementary spelling. -/
def vexText : AsmText :=
  ⟨.vfmsub321ss, false, 1#5, 2#5, .mem (.sum (some 5#4) (some (12#4, 3#2)) 0#32), 0#3, false, none⟩

/-- A text for the EVEX version, with a writemask, zeroing, a rounding control and registers above 15. -/
def evexText : AsmText :=
  ⟨.vfmsub213ss, false, 31#5, 30#5, .reg 29#5, 7#3, true, some .towardZero⟩

theorem witness_AssembledTextDecodes :
    vexText.legal = true ∧ evexText.legal = true ∧ (12#4) ≠ 4#4 ∧
    [(vexText.mnemonic, Form.f231), (evexText.mnemonic, .f213)] =
      [(.vfmsub321ss, .f231), (.vfmsub213ss, .f213)] ∧
    (vexText.evex = false ∧ vexText.d.toNat < 16 ∧ vexText.s2.toNat < 16 ∧ vexText.mask = 0#3 ∧
      vexText.zeroing = false ∧ vexText.rounding = none) ∧
    16 ≤ evexText.d.toNat ∧ evexText.mask ≠ 0#3 := by decide

theorem witness_StepRunsDecodedInstruction :
    (machine1.launchWith (encode (.vfmsub231ssVex vexMem))).mode ≠ .bits32 ∧
    decode (machine1.launchWith (encode (.vfmsub231ssVex vexMem))).cfg.prefixes
      (fetchBytes (machine1.launchWith (encode (.vfmsub231ssVex vexMem))).code fetchWindow
        (machine1.launchWith (encode (.vfmsub231ssVex vexMem))).fetchAddress) =
      .ok (.vfmsub231ssVex vexMem, []) := by decide +kernel

/-- The bytes the program map holds in this witness. -/
theorem witness_StepExecutesThePlacedEncoding :
    (machine1.launchWith (encode (.vfmsub231ssVex vexMem))).mode = .bits64 ∧
    (Instr.vfmsub231ssVex vexMem).wf = true ∧ (Instr.vfmsub231ssVex vexMem).prefixes = [] ∧
    (∀ k (h : k < (encode (.vfmsub231ssVex vexMem)).length),
      cellAt (machine1.launchWith (encode (.vfmsub231ssVex vexMem))).code
        ((machine1.launchWith (encode (.vfmsub231ssVex vexMem))).pc + BitVec.ofNat 64 k).toNat =
        some ((encode (.vfmsub231ssVex vexMem))[k])) := by
  decide +kernel

theorem witness_LaunchedInstructionRunsNext :
    (Instr.vfmsub132ssEvex evexRegs).wf = true ∧ (Instr.vfmsub132ssEvex evexRegs).prefixes = [] ∧
    State.reset.hasFma = true ∧ State.reset.hasAvx512f = true ∧
    (encode (.vfmsub132ssEvex evexRegs) ++ List.replicate 19 0#8).length ≤ 25 := by decide

theorem witness_StuckWithoutInstruction :
    State.reset.mode ≠ .bits32 ∧ cellAt State.reset.code State.reset.fetchAddress.toNat = none ∧
    machine1.mode ≠ .bits32 ∧ cellAt machine1.code machine1.fetchAddress.toNat = none := by
  decide +kernel

theorem witness_StepRaisesUdOnIllegalForm :
    (machine1.launchWith [0x62#8, 0xF2#8, 0x6D#8, 0x88#8, 0x9B#8, 0xCB#8]).mode ≠ .bits32 ∧
    decode (machine1.launchWith [0x62#8, 0xF2#8, 0x6D#8, 0x88#8, 0x9B#8, 0xCB#8]).cfg.prefixes
      (fetchBytes (machine1.launchWith [0x62#8, 0xF2#8, 0x6D#8, 0x88#8, 0x9B#8, 0xCB#8]).code
        fetchWindow
        (machine1.launchWith [0x62#8, 0xF2#8, 0x6D#8, 0x88#8, 0x9B#8, 0xCB#8]).fetchAddress) =
      .error (.undefinedOpcode .masking) := by decide +kernel

theorem witness_Vfmsub132ssVexCompletes :
    machine1.cfg.fmsub32 = .reference ∧ machine1.vexReady = true ∧ allMasked machine1.mxcsr = true ∧
    machine1.vexSrc3 vexRegs = .ok 0x40400000#32 := by decide +kernel

theorem witness_Vfmsub213ssVexCompletes :
    machine1.cfg.fmsub32 = .reference ∧ machine1.vexReady = true ∧ allMasked machine1.mxcsr = true ∧
    machine1.vexSrc3 vexMem = .ok 0#32 := by decide +kernel

theorem witness_Vfmsub231ssVexCompletes :
    machine1.cfg.fmsub32 = .reference ∧ machine1.vexReady = true ∧ allMasked machine1.mxcsr = true ∧
    machine1.vexSrc3 { vexRegs with src3 := .reg 1#1 15#4 } = .ok 0#32 := by decide +kernel

/-- No writemask, MXCSR masks. -/
theorem witness_Vfmsub132ssEvexCompletes :
    machine1.cfg.fmsub32 = .reference ∧
    machine1.evexReady = true ∧ evexRegs.illegal = false ∧ evexRegs.aaa = 0#3 ∧
    allMasked machine1.mxcsr = true ∧ machine1.evexSrc3 evexRegs = .ok 0x40400000#32 := by
  decide +kernel

/-- A writemask whose bit 0 is set, and the memory form. -/
theorem witness_Vfmsub213ssEvexCompletes :
    (maskedMachine 0x1F80#32 0#32 0#32 0#32 1#64).cfg.fmsub32 = .reference ∧
    (maskedMachine 0x1F80#32 0#32 0#32 0#32 1#64).evexReady = true ∧
    ({ evexMem with aaa := 7#3 } : EvexOperands).illegal = false ∧
    ((maskedMachine 0x1F80#32 0#32 0#32 0#32 1#64).opmask 7#3).getLsbD 0 = true ∧
    allMasked (maskedMachine 0x1F80#32 0#32 0#32 0#32 1#64).mxcsr = true ∧
    (maskedMachine 0x1F80#32 0#32 0#32 0#32 1#64).evexSrc3 { evexMem with aaa := 7#3 } = .ok 0#32 := by
  decide +kernel

/-- Everything unmasked, under an embedded rounding control. -/
theorem witness_Vfmsub231ssEvexCompletes :
    (machine 0#32 0#32 0#32 1#32).cfg.fmsub32 = .reference ∧
    (machine 0#32 0#32 0#32 1#32).evexReady = true ∧ evexRounded.illegal = false ∧
    evexRounded.aaa = 0#3 ∧ (evexRounded.b = true ∧ evexRounded.src3.isReg = true) ∧
    (machine 0#32 0#32 0#32 1#32).evexSrc3 evexRounded = .ok 1#32 := by decide +kernel

/-- Both clauses of both versions: a result, and with Invalid unmasked a trap. -/
theorem witness_ArithmeticDecidesTheOutcome :
    machine1.vexReady = true ∧ machine1.vexSrc3 vexRegs = .ok 0x40400000#32 ∧
    machine1.evexReady = true ∧ evexRegs.illegal = false ∧ machine1.elementOn evexRegs.aaa = true ∧
    machine1.evexSrc3 evexRegs = .ok 0x40400000#32 ∧
    factorsOf .f132 0x40000000#32 0x3F800000#32 0x40400000#32 =
      ⟨0x40000000#32, 0x40400000#32, 0x3F800000#32⟩ ∧
    fmsub32 0x40000000#32 0x40400000#32 0x3F800000#32 .nearestEven 0x1F80#32 false =
      .result 0x40A00000#32 {} ∧
    fmsub32 0x7F800001#32 0x3F800000#32 0x3F800000#32 .nearestEven 0x1F00#32 false = .trap .invalid := by
  decide +kernel

/-- A register operand, and a readable memory operand. -/
theorem witness_MaskedOffCompletes :
    machine1.evexReady = true ∧ evexMasked.illegal = false ∧ evexMasked.aaa ≠ 0#3 ∧
    (machine1.opmask evexMasked.aaa).getLsbD 0 = false ∧
    machine1.canRead (machine1.linearAddress [] 4
      (machine1.pc + BitVec.ofNat 64 evexMem.length) (.base 0#1 0#4 .none)) 4 = true := by
  decide +kernel

/-- A machine in which nothing is readable, under either policy of masked-off faults. -/
def unreadable (p : MaskedFaults) : State :=
  { machine1 with readable := [], cfg := { machine1.cfg with maskedFaults := p } }

theorem witness_MaskedOffUnreadableOperand :
    ∀ p ∈ [MaskedFaults.suppressed, MaskedFaults.mayFault],
      (unreadable p).evexReady = true ∧ ({ evexMem with aaa := 1#3 } : EvexOperands).illegal = false ∧
      (unreadable p).elementOn 1#3 = false ∧
      (unreadable p).canRead ((unreadable p).linearAddress [] 4
        ((unreadable p).pc + BitVec.ofNat 64 evexMem.length) (.base 0#1 0#4 .none)) 4 = false ∧
      (unreadable p).cfg.maskedFaults = p := by decide +kernel

theorem witness_EmbeddedRoundingSuppressesExceptions :
    (machine 0#32 0x7F800001#32 0#32 1#32).cfg.fmsub32 = .reference ∧
    (machine 0#32 0x7F800001#32 0#32 1#32).evexReady = true ∧ evexRounded.illegal = false ∧
    evexRounded.b = true ∧ evexRounded.src3 = .reg 3#5 := by decide +kernel

theorem witness_EvexAgreesWithVex :
    machine1.vexEnabled = true ∧ machine1.evexEnabled = true ∧ evexRegs.illegal = false ∧
    evexRegs.d = vexReg vexRegs.d ∧ evexRegs.s2 = vexReg vexRegs.s2 ∧ evexRegs.aaa = 0#3 ∧
    evexRegs.b = false ∧ machine1.evexSrc3 evexRegs = machine1.vexSrc3 vexRegs ∧
    machine1.evexSrc3 evexMem = machine1.vexSrc3 vexMem := by decide +kernel

/-- The instruction of V1 gives a next state; one whose destination is also its source does too. -/
theorem witness_InstructionFrame :
    (lowAndMxcsr (exec (.vfmsub132ssVex vexRegs) machine1) 1#5).isSome = true ∧
    (lowAndMxcsr (exec (.vfmsub231ssEvex { evexMem with d := 31#5, s2 := 31#5 }) machine1) 31#5).isSome
      = true := by decide +kernel

/-- A step that gives a next state, from a state that meets the invariant (also for the statements on
sticky flags and on the straight line). -/
theorem witness_StepKeepsInvariant :
    (machine1.launchWith (encode (.vfmsub213ssVex vexRegs))).Inv = true ∧
    (lowAndMxcsr (step (machine1.launchWith (encode (.vfmsub213ssVex vexRegs)))) 1#5).isSome = true := by
  decide +kernel

theorem witness_MxcsrFlagsAreSticky :
    lowAndMxcsr (step ((machine 0x1F81#32 0x3F800001#32 0#32 0x3F800001#32).launchWith
      (encode (.vfmsub132ssVex vexRegs)))) 1#5 = some (0x3F800002#32, 0x1FA1#32) := by decide +kernel

theorem witness_StepAdvancesPcAndStoresNothing :
    (lowAndMxcsr (step (machine1.launchWith (encode (.vfmsub213ssEvex evexMem)))) 1#5).isSome = true := by
  decide +kernel

/-- Each condition of the statement alone, in a machine otherwise launched, and outside the 32-bit modes. -/
theorem witness_UndefinedWhereNotEnabled :
    (∀ s ∈ [{ machine1 with cfg := { machine1.cfg with cpuid1Ecx := 0#32, cpuid7Ebx := 0#32 } },
        { machine1 with cr4 := 0#64 }, { machine1 with xcr0 := 0xE3#64 },
        { machine1 with xcr0 := 7#64 }, { machine1 with cr0 := 0#64 },
        { machine1 with eflags := 0x20000#32 }], s.mode ≠ .bits32) ∧
    (0xE3#64).extractLsb' 1 2 ≠ 3#2 ∧ (7#64).extractLsb' 5 3 ≠ 7#3 ∧
    (0x20000#32).getLsbD 17 = true := by decide +kernel

/-- CR0.TS = 1 in a machine otherwise launched. -/
theorem witness_DeviceNotAvailable :
    ({ machine1 with cr0 := 9#64 } : State).cr0.getLsbD 3 = true ∧
    ({ machine1 with cr0 := 9#64 } : State).vexEnabled = true ∧
    ({ machine1 with cr0 := 9#64 } : State).evexEnabled = true ∧ evexRegs.illegal = false := by
  decide +kernel

/-- The last byte of the operand is the first address above the lower canonical half. -/
theorem witness_UnreadableOperandFaults :
    machine1.vexReady = true ∧ machine1.evexReady = true ∧ evexMem.illegal = false ∧
    machine1.elementOn evexMem.aaa = true ∧ machine1.canRead 0x00007FFFFFFFFFFD#64 4 = false ∧
    machine1.canRead 0x00007FFFFFFFFFFC#64 4 = true ∧ machine1.canRead 0xFFFF800000000000#64 4 = true ∧
    (∀ s ∈ [unreadable .mayFault], s.vexReady = true ∧ s.evexReady = true ∧
      s.canRead (s.linearAddress [] 1 (s.pc + BitVec.ofNat 64 vexMem.length) (.base 0#1 0#4 .none)) 4
        = false ∧
      s.canRead (s.linearAddress [] 4 (s.pc + BitVec.ofNat 64 evexMem.length) (.base 0#1 0#4 .none)) 4
        = false) := by decide +kernel

/-- A machine that checks alignment, with RAX = 1. -/
def alignmentMachine : State :=
  { machine1 with cr0 := 0x40001#64, eflags := 0x40000#32, cpl := 3#2, gpr := Vector.replicate 16 1#64 }

/-- Readable, in force and misaligned; and in force and aligned. -/
theorem witness_AlignmentCheck :
    alignmentMachine.vexReady = true ∧ alignmentMachine.evexReady = true ∧ evexMem.illegal = false ∧
    alignmentMachine.elementOn evexMem.aaa = true ∧
    (alignmentMachine.cr0.getLsbD 18 = true ∧ alignmentMachine.eflags.getLsbD 18 = true ∧
      alignmentMachine.cpl = 3#2) ∧
    (∀ n8 ∈ [1, 4], (alignmentMachine.effectiveAddress [] n8 5#64 (.base 0#1 0#4 .none)).toNat % 4 = 1 ∧
      (alignmentMachine.effectiveAddress [] n8 5#64 (.base 0#1 0#4 (.d32 3#32))).toNat % 4 = 0 ∧
      alignmentMachine.canRead
        (alignmentMachine.linearAddress [] n8 5#64 (.base 0#1 0#4 .none)) 4 = true ∧
      alignmentMachine.canRead
        (alignmentMachine.linearAddress [] n8 5#64 (.base 0#1 0#4 (.d32 3#32))) 4 = true) ∧
    raisedBy (exec (.vfmsub132ssVex vexMem) alignmentMachine) = some .ac := by decide +kernel

/-- A machine with Invalid unmasked and a signalling NaN in XMM1, and `CR4.OSXMMEXCPT` by `cr4`. -/
def trapping (cr4 : Word64) : State :=
  { machine 0x1F00#32 0x7F800001#32 0#32 0#32 with cr4 := cr4 }

/-- Steps that raise `#UD` by decoding and `#NM`, `#UD` by R41, and the SIMD exception of both versions as
`#XM` and as `#UD`, where operand 3 is available. -/
theorem witness_FaultsArePrecise :
    raisedBy (step (machine1.launchWith [0x62#8, 0xF2#8, 0x6D#8, 0x88#8, 0x9B#8, 0xCB#8])) = some .ud ∧
    raisedBy (step { machine1.launchWith (encode (.vfmsub132ssVex vexRegs)) with cr0 := 9#64 }) =
      some .nm ∧
    raisedBy (exec (.vfmsub132ssVex vexRegs) State.reset) = some .ud ∧
    (∀ p ∈ [(0x40400#64, ExceptionName.xm), (0x40000#64, .ud)],
      raisedBy (exec (.vfmsub132ssVex vexRegs) (trapping p.1)) = some p.2 ∧
      raisedBy (exec (.vfmsub132ssEvex evexRegs) (trapping p.1)) = some p.2) := by decide +kernel

/-- Each kind of exception is raised by some instruction; the SIMD one, in its two names, also by a memory
form of an enabled and legal instruction. -/
theorem witness_ExceptionPriority :
    raisedBy (exec (.vfmsub132ssVex vexMem) (unreadable .mayFault)) =
      some (.memFault 0#64) ∧
    raisedBy (exec (.vfmsub132ssEvex evexMem) alignmentMachine) = some .ac ∧
    raisedBy (exec (.vfmsub132ssEvex evexRegs) { machine1 with cr0 := 9#64 }) = some .nm ∧
    raisedBy (exec (.vfmsub132ssEvex { evexRegs with z := true }) machine1) = some .ud ∧
    (∀ p ∈ [(0x40400#64, ExceptionName.xm), (0x40000#64, .ud)],
      raisedBy (exec (.vfmsub132ssVex vexMem) (trapping p.1)) = some p.2 ∧
      raisedBy (exec (.vfmsub132ssEvex evexMem) (trapping p.1)) = some p.2 ∧
      (trapping p.1).vexEnabled = true ∧ (trapping p.1).evexEnabled = true) ∧
    evexMem.illegal = false := by
  decide +kernel

theorem witness_OnlyCompletionOrMemFault :
    machine1.cfg.fmsub32 = .reference ∧
    machine1.ready (.vfmsub132ssVex vexMem) = true ∧ machine1.ready (.vfmsub132ssEvex evexMem) = true ∧
    allMasked machine1.mxcsr = true ∧ machine1.acEnabled = false := by decide +kernel

/-- Each of the three alternatives. -/
theorem witness_PrivilegeLevelDoesNotMatter :
    machine1.cr0.getLsbD 18 = false ∧ machine1.eflags.getLsbD 18 = false ∧
    (machine1.cpl ≠ 3#2 ∧ (2#2) ≠ 3#2) := by decide +kernel

theorem witness_LittleEndianDoubleword :
    Memory.wf machine1.mem = true ∧
    ({ machine1 with mem := placeData [] 0xFFFFFFFFFFFFFFFE#64 [1#8, 0#8, 3#8, 4#8] } : State).dwordAt
      0xFFFFFFFFFFFFFFFE#64 = 0x04030001#32 := by decide +kernel

theorem witness_EffectiveAddressForms :
    LegacyPrefix.addressSize ∉ [LegacyPrefix.fs] ∧ (12#4) ≠ 4#4 ∧ (0#4) ≠ 4#4 := by decide

/-- Every clause: 67H, neither override, one, the other, both. -/
theorem witness_SegmentAndAddressSize :
    LegacyPrefix.addressSize ∈ [LegacyPrefix.addressSize] ∧
    (LegacyPrefix.fs ∉ [LegacyPrefix.addressSize] ∧ LegacyPrefix.gs ∉ [LegacyPrefix.addressSize]) ∧
    (LegacyPrefix.fs ∈ [LegacyPrefix.fs] ∧ LegacyPrefix.gs ∉ [LegacyPrefix.fs]) ∧
    (LegacyPrefix.fs ∉ [LegacyPrefix.gs] ∧ LegacyPrefix.gs ∈ [LegacyPrefix.gs]) ∧
    (LegacyPrefix.fs ∈ [LegacyPrefix.fs, .gs] ∧ LegacyPrefix.gs ∈ [LegacyPrefix.fs, .gs]) := by decide

/-- The smallest denormal, the largest finite value, and the negative zero. -/
theorem witness_ScaledIsTheValue :
    isFinite 1#32 = true ∧ scaled 1#32 = 1 ∧ isFinite 0x7F7FFFFF#32 = true ∧
    isFinite 0x80000000#32 = true ∧ scaled 0x80000000#32 = 0 := by decide +kernel

theorem witness_NanOperands :
    isNaN 0x7F800001#32 = true ∧ isSNaN 0x7F800001#32 = true ∧ isNaN 0xFFFFFFFF#32 = true ∧
    isSNaN 0xFFFFFFFF#32 = false := by decide

/-- A witness for each clause: infinity times zero, infinity minus infinity, an infinite product, an
infinite subtrahend. -/
theorem witness_InfiniteOperands :
    ([0x7F800000#32, 0xFF800000#32, 0x80000000#32, 1#32].all fun w => !(isNaN w)) = true ∧
    (isInf 0x7F800000#32 = true ∧ isZero 0x80000000#32 = true) ∧
    (¬ (isInf 0xFF800000#32 = true ∧ isZero 1#32 = true ∨ isZero 0xFF800000#32 = true ∧ isInf 1#32 = true) ∧
      isInf 0xFF800000#32 = true ∧ (sign 0xFF800000#32 ^^ sign 1#32) = sign 0xFF800000#32 ∧
      (sign 0xFF800000#32 ^^ sign 1#32) ≠ sign 0x7F800000#32) ∧
    (isInf 1#32 = false ∧ isInf 0x80000000#32 = false ∧ isInf 0x7F800000#32 = true) := by decide +kernel

/-- Two zero terms, and a cancellation of 2*3 and 6. -/
theorem witness_ExactZero :
    scaled 0x80000000#32 * scaled 1#32 = scaled 0#32 * 2 ^ 149 ∧
    scaled 0x40000000#32 * scaled 0x40400000#32 = scaled 0x40C00000#32 * 2 ^ 149 ∧
    [0x80000000#32, 1#32, 0#32, 0x40000000#32, 0x40400000#32, 0x40C00000#32].all isFinite = true := by
  decide +kernel

/-- The least magnitude that overflows: 2^128, in units of 2^-298. -/
theorem witness_OverflowResults :
    ((2 : Int) ^ 426) ≠ 0 ∧ 127 < (round24 ((2 : Int) ^ 426).natAbs .towardZero false).e := by
  decide +kernel

/-- The smallest normal number times a half is tiny (V37), and times one is not. -/
theorem witness_FlushToZero :
    [0x00800000#32, 0x3F000000#32, 0x3F800000#32, 0#32].all isFinite = true ∧
    exactDiff 0x00800000#32 0x3F000000#32 0#32 ≠ 0 ∧
    (round24 (exactDiff 0x00800000#32 0x3F000000#32 0#32).natAbs .nearestEven false).e = -127 ∧
    exactDiff 0x00800000#32 0x3F800000#32 0#32 ≠ 0 ∧
    (round24 (exactDiff 0x00800000#32 0x3F800000#32 0#32).natAbs .nearestEven false).e = -126 := by
  decide +kernel

/-- DAZ set and clear. -/
theorem witness_DenormalsAreZeros :
    (0x1FC0#32).getLsbD 6 = true ∧ (0x1F80#32).getLsbD 6 = false ∧ isDenormal 1#32 = true := by decide

/-- All masked with PE detected, and Precision unmasked. -/
theorem witness_MasksDecideTheResponse :
    (0x3F800002#32, ({ pe := true } : FpFlags)) =
      fmsubCore (dazOperand false 0x3F800001#32) (dazOperand false 0x3F800001#32)
        (dazOperand false 0#32) .nearestEven false true ∧
    (∀ c ∈ [FpException.invalid, .denormal, .overflow, .underflow, .precision],
      (0x1F80#32).getLsbD (c.flagBit + 7) = true) ∧
    ({ pe := true } : FpFlags).has .precision = true ∧ (0x0F80#32).getLsbD 11 = true ∧
    (0x0F80#32).getLsbD (FpException.flagBit .precision + 7) = false ∧ daz 0x0F80#32 = false ∧
    ftz 0x0F80#32 = false := by decide +kernel

theorem witness_RoundsDown :
    fmsub32 0x3F800001#32 0x3F800001#32 0#32 .down 0x1F80#32 false =
      .result 0x3F800002#32 { pe := true } ∧ isFinite 0x3F800001#32 = true ∧ isFinite 0#32 = true ∧
    isFinite 0x3F800002#32 = true ∧ ftz 0x1F80#32 = false := by decide +kernel

theorem witness_RoundsUp :
    fmsub32 0x3F800001#32 0x3F800001#32 0#32 .up 0x1F80#32 false =
      .result 0x3F800003#32 { pe := true } ∧ isFinite 0x3F800001#32 = true ∧ isFinite 0#32 = true ∧
    isFinite 0x3F800003#32 = true ∧ ftz 0x1F80#32 = false := by decide +kernel

theorem witness_RoundsTowardZero :
    fmsub32 0x7F7FFFFF#32 0x40000000#32 0#32 .towardZero 0x1F80#32 false =
      .result 0x7F7FFFFF#32 { oe := true, pe := true } ∧ isFinite 0x7F7FFFFF#32 = true ∧
    isFinite 0x40000000#32 = true ∧ isFinite 0#32 = true ∧ ftz 0x1F80#32 = false := by decide +kernel

/-- A tie: (1 + 2^-23) * 1.5, whose neighbours differ in the last bit. -/
theorem witness_RoundsToNearestEven :
    fmsub32 0x3F800001#32 0x3FC00000#32 0#32 .nearestEven 0x1F80#32 false =
      .result 0x3FC00002#32 { pe := true } ∧ isFinite 0x3FC00002#32 = true ∧
    isFinite 0x3FC00000#32 = true ∧ isFinite 0x3F800001#32 = true ∧ isFinite 0#32 = true ∧
    ftz 0x1F80#32 = false := by decide +kernel

/-- Both an exact and an inexact result. -/
theorem witness_PrecisionFlagMeansInexact :
    fmsub32 0x40000000#32 0x40400000#32 0x3F800000#32 .nearestEven 0x1F80#32 false =
      .result 0x40A00000#32 {} ∧
    fmsub32 0x3F800001#32 0x3F800001#32 0#32 .nearestEven 0x1F80#32 false =
      .result 0x3F800002#32 { pe := true } ∧
    [0x40000000#32, 0x40400000#32, 0x3F800000#32, 0x3F800001#32, 0#32, 0x40A00000#32,
      0x3F800002#32].all isFinite = true ∧ ftz 0x1F80#32 = false := by decide +kernel

/-- Registers at the ends of the second clause of the reset values. -/
theorem witness_ResetValues :
    (0#4) ≠ 2#4 ∧ State.reset.gprAt 15#4 = 0#64 ∧ State.reset.fetchAddress = 0xFFFFFFF0#64 := by
  decide +kernel

end Sys2Proof.Tests
end

namespace Sys2Proof.Machine

/-! ### What a step can do -/

/-- A step that gives a next state fetched an instruction the decoder accepts and completed it. -/
theorem step_next {s t : State} (h : step s = .next t) :
    ∃ i rest, decode s.cfg.prefixes s.window = .ok (i, rest) ∧ exec i s = .next t := by
  unfold step State.fetch at h
  by_cases hm : s.mode = .bits32
  · simp [hm] at h
  · cases hd : decode s.cfg.prefixes s.window with
    | ok p => exact ⟨p.1, p.2, rfl, by simpa [hm, hd] using h⟩
    | error r => cases r <;> simp [hm, hd, rejected, raise] at h

/-- A step that gives a next state completes some instruction. -/
theorem step_next_complete {s t : State} (h : step s = .next t) :
    ∃ d r f len, t = s.complete d r f len := by
  obtain ⟨i, -, -, hi⟩ := step_next h
  obtain ⟨r, f, rfl⟩ := exec_next hi
  exact ⟨_, r, f, _, rfl⟩

/-! ### The destination write (R21) -/

/-- Bits 127:32 of a written register stay. -/
theorem writeLow32_mid (w : VectorWidth) (old : VWord) (r : Word32) :
    (writeLow32 w old r).extractLsb' 32 96 = old.extractLsb' 32 96 := by
  apply BitVec.eq_of_getLsbD_eq
  intro i hi
  simp [writeLow32_getLsbD, show 32 + i < 128 by omega]

/-- Bits MAXVL-1:128 of a written register are 0. -/
theorem writeLow32_high (w : VectorWidth) (old : VWord) (r : Word32) {j : Nat} (hj : 128 ≤ j)
    (hw : j < w.bits) : (writeLow32 w old r).getLsbD j = false := by
  simp [writeLow32_getLsbD, hw, show ¬ j < 32 by omega, show ¬ j < 128 by omega]

/-- The bits from MAXVL on, which do not exist, are as they were. -/
theorem writeLow32_beyond (w : VectorWidth) (old : VWord) (r : Word32) :
    writeLow32 w old r >>> w.bits = old >>> w.bits := by
  apply BitVec.eq_of_getLsbD_eq
  intro i _
  have hw : 128 ≤ w.bits := by cases w <;> decide
  simp [writeLow32_getLsbD, show ¬ w.bits + i < 32 by omega, show ¬ w.bits + i < 128 by omega]

/-- Settles O28: the written register bit by bit, the others by `State.vreg_complete_ne`. -/
theorem destinationWrite : Obligations.DestinationWrite := by
  intro s d r f len
  rw [State.vreg_complete_self]
  exact ⟨writeLow32_low _ _ _, writeLow32_mid _ _ _, fun _ h h' => writeLow32_high _ _ _ h h',
    fun _ hj => State.vreg_complete_ne s hj r f len⟩

/-! ### MXCSR after a completion (R27) -/

/-- ORing flags into MXCSR changes no bit but IE, DE, OE, UE and PE. -/
theorem orFlags_getLsbD_other (m : Word32) (f : FpFlags) {j : Nat} (hj : j ∉ [0, 1, 3, 4, 5]) :
    (orFlags m f).getLsbD j = m.getLsbD j := by
  simp only [List.mem_cons, List.not_mem_nil, or_false, not_or] at hj
  simp [orFlags_getLsbD, hj]

/-- The reserved bits MXCSR[31:16] are not touched by flags. -/
theorem orFlags_extract_reserved (m : Word32) (f : FpFlags) :
    (orFlags m f).extractLsb' 16 16 = m.extractLsb' 16 16 := by
  apply BitVec.eq_of_getLsbD_eq
  intro i _
  have hi : 16 + i ∉ [0, 1, 3, 4, 5] := by
    simp only [List.mem_cons, List.not_mem_nil, or_false]
    omega
  simp only [BitVec.getLsbD_extractLsb', orFlags_getLsbD_other m f hi]

/-- Settles O30: the only write to MXCSR on a completing step is the OR of R27. -/
theorem mxcsrFlagsAreSticky : Obligations.MxcsrFlagsAreSticky := by
  intro s t h j
  obtain ⟨d, r, f, len, rfl⟩ := step_next_complete h
  rw [State.complete_mxcsr]
  refine ⟨fun hs => by simp [orFlags_getLsbD, hs], fun ht => ?_⟩
  by_cases hj : j ∈ [0, 1, 3, 4, 5]
  · exact .inr hj
  · exact .inl (orFlags_getLsbD_other _ f hj ▸ ht)

/-- Settles O29: a next state is a completion (`exec_next`), field by field. -/
theorem instructionFrame : Obligations.InstructionFrame := by
  intro i s t h
  obtain ⟨r, f, rfl⟩ := exec_next h
  obtain ⟨-, hmid, hhigh, hother⟩ := destinationWrite s (destination i) r f i.length
  exact ⟨sameOutsideResult_complete .., hother, hmid, hhigh,
    fun j hj => orFlags_getLsbD_other _ f hj, fun _ => rfl, rfl⟩

/-! ### The invariant -/

/-- A completion leaves no vector register with bits beyond MAXVL. -/
theorem State.complete_vectorsFit {s : State} (h : s.vectorsFit = true) (d : BitVec 5) (r : Word32)
    (f : FpFlags) (len : Nat) : (s.complete d r f len).vectorsFit = true := by
  simp only [State.vectorsFit, List.all_eq_true, beq_iff_eq, Vector.mem_toList_iff,
    State.complete_cfg, State.complete_v] at h ⊢
  intro x hx
  rcases Vector.mem_or_eq_of_mem_set hx with hx | rfl
  · exact h x hx
  · rw [writeLow32_beyond]
    exact h _ (Vector.getElem_mem d.isLt)

/-- A completion keeps the invariant: it writes one vector register and the flags of MXCSR. -/
theorem State.complete_inv {s : State} (h : s.Inv = true) (d : BitVec 5) (r : Word32) (f : FpFlags)
    (len : Nat) : (s.complete d r f len).Inv = true := by
  simp only [State.Inv, Bool.and_eq_true] at h ⊢
  obtain ⟨⟨⟨⟨hmem, hcode⟩, hmxcsr⟩, hv⟩, hk⟩ := h
  refine ⟨⟨⟨⟨hmem, hcode⟩, ?_⟩, complete_vectorsFit hv d r f len⟩, hk⟩
  rwa [State.mxcsrFits, State.complete_mxcsr, orFlags_extract_reserved]

/-- Settles O31: a step's next state is a completion, and completions keep the invariant. -/
theorem stepKeepsInvariant : Obligations.StepKeepsInvariant := by
  intro s t hs h
  obtain ⟨d, r, f, len, rfl⟩ := step_next_complete h
  exact State.complete_inv hs d r f len

/-! ### Reset (R40, R41) -/

/-- Settles O32: no memory, no program, every vector and opmask register 0, and MXCSR 1F80H. -/
theorem resetMeetsInvariant : Obligations.ResetMeetsInvariant := by
  unfold Obligations.ResetMeetsInvariant
  decide +kernel

/-- The general registers after RESET: RDX holds the processor signature, the others 0. -/
theorem State.powerUp_gprAt (cfg : Config) (i : BitVec 4) :
    (State.powerUp cfg).gprAt i = if i = 2#4 then cfg.signature.setWidth 64 else 0#64 := by
  by_cases hi : i = 2#4
  · subst hi
    rfl
  · have : 2 ≠ i.toNat := fun e => hi (BitVec.eq_of_toNat_eq e.symm)
    simp [State.gprAt, State.powerUp, hi, Vector.getElem_set_ne _ _ this]

/-- After RESET the machine is in real-address mode. -/
theorem State.powerUp_mode (cfg : Config) : (State.powerUp cfg).mode = .real := by
  simp [State.mode, State.powerUp]

/-- The first fetch after RESET is at the base of CS plus the reset value of `pc`. -/
theorem State.powerUp_fetchAddress (cfg : Config) :
    (State.powerUp cfg).fetchAddress = 0xFFFFFFF0#64 := by
  have hbase : (State.powerUp cfg).csBase = 0xFFFF0000#64 := rfl
  have hpc : (State.powerUp cfg).pc = 0x0000FFF0#64 := rfl
  rw [State.fetchAddress, State.powerUp_mode, if_neg (by decide), hbase, hpc]
  decide

/-- Settles O59: the rows of R40, each read off `State.powerUp` or `State.afterInit`. -/
theorem resetValues : Obligations.ResetValues := by
  refine ⟨fun cfg => ⟨?_, ?_, rfl, rfl, rfl, rfl, rfl, rfl, rfl, ?_, ?_, ?_, rfl⟩, rfl,
    fun _ => ⟨rfl, rfl, rfl, rfl⟩⟩
  · intro i
    simp [State.vreg, State.powerUp]
  · intro i
    simp [State.opmask, State.powerUp]
  · exact State.powerUp_fetchAddress cfg
  · simp [State.powerUp_gprAt]
  · intro i hi
    simp [State.powerUp_gprAt, hi]

/-- Settles O60: the reset state is in real-address mode, so both frames stop at their first `#UD`. -/
theorem everyEncodingUndefinedAfterReset : Obligations.EveryEncodingUndefinedAfterReset := by
  intro i
  have hmode : State.reset.mode = .real := State.powerUp_mode _
  rcases instr_cases i with ⟨form, o, rfl⟩ | ⟨form, o, rfl⟩
  · have henabled : State.reset.vexEnabled = false := by simp [State.vexEnabled, hmode]
    simp [exec_vex, vexFrame, hmode, henabled, raise]
  · have henabled : State.reset.evexEnabled = false := by simp [State.evexEnabled, hmode]
    simp [exec_evex, evexFrame, hmode, henabled, raise]

end Sys2Proof.Machine

namespace Sys2Proof

/-! ### Decoding what the encoder wrote (R68 to R78) -/

/-- The `mod` of a displacement is never the register form's. -/
theorem Disp.mod_ne_three (d : Disp) : d.mod ≠ 3#2 := by
  cases d <;> simp [Disp.mod]

/-- A displacement announced by mod = 00b is no displacement. -/
theorem Disp.mod_eq_zero {d : Disp} : d.mod = 0#2 ↔ d = .none := by
  cases d <;> simp [Disp.mod]

/-- The `mod` of a memory operand is never the register form's. -/
theorem MemOperand.fields_mod_ne_three (m : MemOperand) : m.fields.mod ≠ 3#2 := by
  cases m <;> simp [MemOperand.fields, Disp.mod_ne_three]

/-- A well-formed memory operand is parsed back from its own fields. -/
theorem parseMem_fields {m : MemOperand} (h : m.wf = true) (rest : List Byte) :
    parseMem m.fields.x m.fields.b m.fields.mod m.fields.rm (m.fields.tail ++ rest) =
      some (m, rest) := by
  cases m with
  | ripRel x b d => simp [parseMem, MemOperand.fields]
  | base x reg d =>
    simp only [MemOperand.wf, baseHasDisp, Bool.and_eq_true, Bool.or_eq_true, bne_iff_ne] at h
    obtain ⟨hsib, hdisp⟩ := h
    have hform : ¬ (d.mod = 0#2 ∧ low3 reg = 5#3) := fun ⟨h0, h5⟩ =>
      hdisp.elim (· h5) (· (Disp.mod_eq_zero.1 h0))
    simp [parseMem, MemOperand.fields, hsib, hform]
  | sib scale index breg d =>
    simp only [MemOperand.wf, baseHasDisp, Bool.or_eq_true, bne_iff_ne] at h
    have hform : ¬ (d.mod = 0#2 ∧ low3 breg = 5#3) := fun ⟨h0, h5⟩ =>
      h.elim (· h5) (· (Disp.mod_eq_zero.1 h0))
    simp [parseMem, MemOperand.fields, modrmByte_fields, hform]
  | sibNoBase scale index b d => simp [parseMem, MemOperand.fields, modrmByte_fields]

/-- Operand 3 of a VEX encoded version is parsed back from its own fields. -/
theorem parseVexSrc3_fields {src : VexSrc3} (h : src.wf = true) (reg : BitVec 3) (rest : List Byte) :
    parseVexSrc3 src.fields.x src.fields.b (modrmByte src.fields.mod reg src.fields.rm)
      (src.fields.tail ++ rest) = some (src, rest) := by
  cases src with
  | reg x n => simp [parseVexSrc3, VexSrc3.fields, modrmByte_fields]
  | mem m =>
    simp [parseVexSrc3, VexSrc3.fields, modrmByte_fields, m.fields_mod_ne_three, parseMem_fields h]

/-- Operand 3 of an EVEX encoded version is parsed back from its own fields. -/
theorem parseEvexSrc3_fields {src : EvexSrc3} (h : src.wf = true) (reg : BitVec 3)
    (rest : List Byte) :
    parseEvexSrc3 src.fields.x src.fields.b (modrmByte src.fields.mod reg src.fields.rm)
      (src.fields.tail ++ rest) = some (src, rest) := by
  cases src with
  | reg n => simp [parseEvexSrc3, EvexSrc3.fields, modrmByte_fields, reg5_parts]
  | mem m =>
    simp [parseEvexSrc3, EvexSrc3.fields, modrmByte_fields, m.fields_mod_ne_three, parseMem_fields h]

/-- The bytes of an encoding after its legacy prefixes. -/
def encodeCore (i : Instr) : List Byte := (encode i).drop i.prefixes.length

/-- An encoding is its legacy prefixes and then the VEX or EVEX encoding. -/
theorem encode_eq_prefixes_append (i : Instr) :
    encode i = i.prefixes.map LegacyPrefix.byte ++ encodeCore i := by
  cases i <;> simp [encodeCore, encode, encodeVex, encodeEvex, Instr.prefixes]

theorem encodeCore_vex (form : Form) (o : VexOperands) :
    encodeCore (form.vex o) =
      0xC4#8 :: vexByte1 (high1 o.d) o.src3.fields.x o.src3.fields.b :: vexByte2 o.s2 o.l
        :: form.opcode :: modrmByte o.src3.fields.mod (low3 o.d) o.src3.fields.rm
        :: o.src3.fields.tail := by
  cases form <;> simp [encodeCore, Form.vex, encode, encodeVex, Instr.prefixes]

theorem encodeCore_evex (form : Form) (o : EvexOperands) :
    encodeCore (form.evex o) =
      0x62#8 :: evexP0 (o.d.extractLsb' 3 1) o.src3.fields.x o.src3.fields.b (o.d.extractLsb' 4 1)
        :: evexP1 (o.s2.extractLsb' 0 4)
        :: evexP2 (Bit.ofBool o.z) o.ll (Bit.ofBool o.b) (o.s2.extractLsb' 4 1) o.aaa
        :: form.opcode :: modrmByte o.src3.fields.mod (o.d.extractLsb' 0 3) o.src3.fields.rm
        :: o.src3.fields.tail := by
  cases form <;> simp [encodeCore, Form.evex, encode, encodeEvex, Instr.prefixes]

/-- The VEX encoding after the prefixes decodes to its operands. -/
theorem decodeCore_vex (form : Form) {o : VexOperands} (h : o.src3.wf = true) (rest : List Byte) :
    decodeCore o.prefixes (encodeCore (form.vex o) ++ rest) = .ok (form.vex o, rest) := by
  simp [encodeCore_vex, decodeCore, decodeVex, vexInstr, vexByte1_fields, vexByte2_fields,
    modrmByte_fields, parseVexSrc3_fields h]

/-- Legal EVEX fields name no illegal form (R90 to R92). -/
theorem EvexOperands.illegalForm_of_legal {o : EvexOperands} (h : o.illegal = false) :
    o.illegalForm true = none := by
  simp only [EvexOperands.illegal, Bool.or_eq_false_iff] at h
  obtain ⟨⟨hmask, hbroadcast⟩, hlength⟩ := h
  simp [EvexOperands.illegalForm, hmask, hbroadcast, hlength]

/-- The EVEX encoding after the prefixes decodes to its operands, where they are legal. -/
theorem decodeCore_evex (form : Form) {o : EvexOperands} (h : o.src3.wf = true)
    (hlegal : o.illegal = false) (rest : List Byte) :
    decodeCore o.prefixes (encodeCore (form.evex o) ++ rest) = .ok (form.evex o, rest) := by
  have hnone := o.illegalForm_of_legal hlegal
  simp [encodeCore_evex, decodeCore, decodeEvex, evexInstr, evexP0_fields, evexP1_fields,
    evexP2_fields, modrmByte_fields, parseEvexSrc3_fields h, reg5_parts, vreg5_parts, hnone]

@[simp] theorem prefixes_vex (form : Form) (o : VexOperands) :
    (form.vex o).prefixes = o.prefixes := by
  cases form <;> rfl

@[simp] theorem prefixes_evex (form : Form) (o : EvexOperands) :
    (form.evex o).prefixes = o.prefixes := by
  cases form <;> rfl

@[simp] theorem wf_vex (form : Form) (o : VexOperands) : (form.vex o).wf = o.wf := by
  cases form <;> rfl

@[simp] theorem wf_evex (form : Form) (o : EvexOperands) : (form.evex o).wf = o.wf := by
  cases form <;> rfl

/-- The VEX or EVEX encoding of a well-formed instruction decodes to it. -/
theorem decodeCore_encodeCore {i : Instr} (h : i.wf = true) (rest : List Byte) :
    decodeCore i.prefixes (encodeCore i ++ rest) = .ok (i, rest) := by
  rcases Machine.instr_cases i with ⟨form, o, rfl⟩ | ⟨form, o, rfl⟩
  · simp only [wf_vex, VexOperands.wf, Bool.and_eq_true] at h
    rw [prefixes_vex, decodeCore_vex form h.1]
  · simp only [wf_evex, EvexOperands.wf, Bool.and_eq_true, Bool.not_eq_true'] at h
    rw [prefixes_evex, decodeCore_evex form h.1.1 h.1.2]

/-- A well-formed instruction is longer than its prefixes, and at most 15 bytes long (R84). -/
theorem Instr.wf_length {i : Instr} (h : i.wf = true) :
    i.prefixes.length < i.length ∧ i.length ≤ maxLength := by
  rcases Machine.instr_cases i with ⟨form, o, rfl⟩ | ⟨form, o, rfl⟩
  · simp only [wf_vex, VexOperands.wf, Bool.and_eq_true, decide_eq_true_eq] at h
    simp only [prefixes_vex, Machine.length_vex]
    exact ⟨by simp only [VexOperands.length]; omega, h.2⟩
  · simp only [wf_evex, EvexOperands.wf, Bool.and_eq_true, decide_eq_true_eq] at h
    simp only [prefixes_evex, Machine.length_evex]
    exact ⟨by simp only [EvexOperands.length]; omega, h.2⟩

/-- The scan for legacy prefixes stops at the VEX or EVEX byte. -/
theorem scanPrefixes_encodeCore (i : Instr) (rest : List Byte) :
    scanPrefixes (encodeCore i ++ rest) = ⟨0, [], false, encodeCore i ++ rest⟩ := by
  rcases Machine.instr_cases i with ⟨form, o, rfl⟩ | ⟨form, o, rfl⟩
  · rw [encodeCore_vex]
    exact scanPrefixes_stop (by decide) (by decide) _
  · rw [encodeCore_evex]
    exact scanPrefixes_stop (by decide) (by decide) _

/-- The VEX or EVEX byte is none of the legacy prefixes. -/
theorem beginsWithLegacyPrefix_encodeCore (i : Instr) (rest : List Byte) :
    beginsWithLegacyPrefix (encodeCore i ++ rest) = false := by
  rcases Machine.instr_cases i with ⟨form, o, rfl⟩ | ⟨form, o, rfl⟩
  · rw [encodeCore_vex]
    rfl
  · rw [encodeCore_evex]
    rfl

/-- The scan of an encoding finds its legacy prefixes, none of them illegal. -/
theorem scanPrefixes_encode (i : Instr) (rest : List Byte) :
    scanPrefixes (encode i ++ rest) =
      ⟨i.prefixes.length, i.prefixes, false, encodeCore i ++ rest⟩ := by
  rw [encode_eq_prefixes_append, List.append_assoc, scanPrefixes_append, scanPrefixes_encodeCore]
  simp

/-- DECODE OF ENCODE, under either policy: a well-formed instruction whose legacy prefixes the policy
admits decodes to itself, whatever follows it (R68 to R78). -/
theorem decode_encode {policy : PrefixPolicy} {i : Instr} (h : i.wf = true)
    (hp : policy = .none → i.prefixes = []) (rest : List Byte) :
    decode policy (encode i ++ rest) = .ok (i, rest) := by
  have hadmitted : ¬ (policy = .none ∧ beginsWithLegacyPrefix (encode i ++ rest) = true) := by
    rintro ⟨hnone, hb⟩
    rw [encode_eq_prefixes_append, hp hnone, List.map_nil, List.nil_append,
      beginsWithLegacyPrefix_encodeCore] at hb
    cases hb
  obtain ⟨hlt, hmax⟩ := Instr.wf_length h
  have hcount : ¬ maxLength ≤ i.prefixes.length := by omega
  have hlength : ¬ maxLength < i.prefixes.length + (i.length - i.prefixes.length) := by omega
  simp only [decode, if_neg hadmitted, scanPrefixes_encode, if_neg hcount,
    decodeCore_encodeCore h rest, if_neg hlength, Bool.false_eq_true, if_false]

end Sys2Proof

namespace Sys2Proof.Machine

/-! ### The fetch of placed bytes (R47) -/

/-- Where the program map holds a sequence of bytes at an address, the fetch reads them first. -/
theorem fetchBytes_of_cellAt {code : List Host.Cell} {bs : List Byte} {n : Nat} {a : Word64}
    (hn : bs.length ≤ n)
    (h : ∀ k (hk : k < bs.length), cellAt code (a + BitVec.ofNat 64 k).toNat = some bs[k]) :
    fetchBytes code n a =
      bs ++ fetchBytes code (n - bs.length) (a + BitVec.ofNat 64 bs.length) := by
  induction bs generalizing n a with
  | nil => simp
  | cons b bs ih =>
    obtain ⟨n, rfl⟩ : ∃ m, n = m + 1 := ⟨n - 1, by simp at hn; omega⟩
    have hfirst : cellAt code (a + 0#64).toNat = some b := h 0 (Nat.succ_pos _)
    rw [BitVec.add_zero] at hfirst
    have hshift (k : Nat) : a + 1#64 + BitVec.ofNat 64 k = a + BitVec.ofNat 64 (k + 1) := by
      rw [BitVec.add_assoc, Nat.add_comm k 1, BitVec.ofNat_add]
    have hrest := ih (n := n) (a := a + 1#64) (by simpa using hn) fun k hk => by
      rw [hshift]
      exact h (k + 1) (by simpa using hk)
    simp only [fetchBytes, hfirst, hrest, List.cons_append, List.length_cons, hshift,
      Nat.add_sub_add_right]

/-- The program map after bytes are placed: at an address within the first `bs.length` from `a` on the
byte placed there, elsewhere what was there before. -/
theorem cellAt_placeCode (code : List Host.Cell) (a : Word64) {bs : List Byte}
    (hbs : bs.length ≤ 2 ^ 64) (c : Word64) :
    cellAt (placeCode code a bs) c.toNat = (bs[(c - a).toNat]?).or (cellAt code c.toNat) := by
  induction bs generalizing code a with
  | nil => simp [placeCode]
  | cons b bs ih =>
    rw [List.length_cons] at hbs
    rw [placeCode, ih _ _ (by omega), cellAt_putCell]
    by_cases hc : c = a
    · subst hc
      have hwrap : (c - (c + 1#64)).toNat = 2 ^ 64 - 1 := by bv_omega
      rw [hwrap, List.getElem?_eq_none (by omega)]
      simp
    · have hne : ¬ a.toNat = c.toNat := fun e => hc (BitVec.eq_of_toNat_eq e.symm)
      have hsucc : (c - a).toNat = (c - (a + 1#64)).toNat + 1 := by bv_omega
      rw [if_neg hne, hsucc, List.getElem?_cons_succ]

/-- The fetch reads bytes placed at its address before anything else. -/
theorem fetchBytes_placeCode (code : List Host.Cell) (a : Word64) {bs : List Byte} {n : Nat}
    (hbs : bs.length ≤ n) (hn : n ≤ 2 ^ 64) :
    ∃ more, fetchBytes (placeCode code a bs) n a = bs ++ more := by
  refine ⟨_, fetchBytes_of_cellAt hbs fun k hk => ?_⟩
  have hoffset : (a + BitVec.ofNat 64 k - a).toNat = k := by bv_omega
  rw [cellAt_placeCode _ _ (by omega), hoffset, List.getElem?_eq_getElem hk, Option.some_or]

/-! ### Launch (R42, R167, R168) -/

/-- Launch leaves 64-bit mode, whatever the state. -/
theorem State.launch_mode (s : State) : s.launch.mode = .bits64 := by
  simp [State.mode]

theorem State.launch_fetchAddress (s : State) : s.launch.fetchAddress = s.pc := by
  simp [State.fetchAddress, State.launch_mode]

/-- Placing bytes changes no control register, so the mode is that of launch. -/
theorem State.launchWith_mode (s : State) (bs : List Byte) : (s.launchWith bs).mode = .bits64 :=
  s.launch_mode

/-- Launch enables the AVX state: CR4.OSXSAVE and XCR0[2:1] (R36). -/
theorem State.launch_osAvxEnabled (s : State) : s.launch.osAvxEnabled = true := by
  have hxcr0 : s.launch.xcr0.extractLsb' 1 2 = 3#2 := by
    rw [State.launch_xcr0, BitVec.extractLsb'_or]
    exact BitVec.or_allOnes
  rw [State.osAvxEnabled, hxcr0]
  simp

/-- Launch enables the AVX-512 state too: XCR0[7:5] (R36). -/
theorem State.launch_osAvx512Enabled (s : State) : s.launch.osAvx512Enabled = true := by
  have hxcr0 : s.launch.xcr0.extractLsb' 5 3 = 7#3 := by
    rw [State.launch_xcr0, BitVec.extractLsb'_or]
    exact BitVec.or_allOnes
  rw [State.osAvx512Enabled, hxcr0]
  simp [State.launch_osAvxEnabled]

/-- Launch clears CR0.TS (R42). -/
theorem State.launch_taskSwitched (s : State) : s.launch.taskSwitched = false := by
  simp [State.taskSwitched]

/-- The launched machine meets the premises of a VEX encoded version that its features allow (R168). -/
theorem State.launch_vexReady {s : State} (h : s.hasFma = true) : s.launch.vexReady = true := by
  have hfma : s.launch.hasFma = true := h
  simp [State.vexReady, State.vexEnabled, hfma, State.launch_mode, s.launch_osAvxEnabled,
    s.launch_taskSwitched]

/-- The launched machine meets the premises of an EVEX encoded version that its features allow (R168). -/
theorem State.launch_evexReady {s : State} (h : s.hasAvx512f = true) : s.launch.evexReady = true := by
  have havx512f : s.launch.hasAvx512f = true := h
  simp [State.evexReady, State.evexEnabled, havx512f, State.launch_mode,
    s.launch_osAvx512Enabled, s.launch_taskSwitched]

/-- A launched machine with both features meets the launch premises of every well-formed instruction,
wherever bytes are placed. -/
theorem State.launchWith_ready {s : State} (hfma : s.hasFma = true) (havx512f : s.hasAvx512f = true)
    (bs : List Byte) {i : Instr} (h : i.wf = true) : (s.launchWith bs).ready i = true := by
  have hvex : (s.launchWith bs).vexReady = true := s.launch_vexReady hfma
  have hevex : (s.launchWith bs).evexReady = true := s.launch_evexReady havx512f
  rcases instr_cases i with ⟨form, o, rfl⟩ | ⟨form, o, rfl⟩
  · cases form <;> exact hvex
  · simp only [wf_evex, EvexOperands.wf, Bool.and_eq_true] at h
    cases form <;> simp [Form.evex, State.ready, hevex, h.1.2]

/-- A step runs the instruction that the bytes at `pc` decode to (R47). -/
theorem step_of_decode {s : State} {i : Instr} {rest : List Byte} (hm : s.mode ≠ .bits32)
    (h : decode s.cfg.prefixes s.window = .ok (i, rest)) : step s = exec i s := by
  simp [step, State.fetch, hm, h]

/-- Settles O14: the fetch window of the launched state begins with the placed encoding, which decodes
to the instruction. -/
theorem launchedInstructionRunsNext : Obligations.LaunchedInstructionRunsNext := by
  intro s i rest hwf hprefixes hfma havx512f hlen
  refine ⟨State.launchWith_ready hfma havx512f _ hwf, ?_⟩
  have hmode := s.launchWith_mode (encode i ++ rest)
  obtain ⟨more, hmore⟩ := fetchBytes_placeCode s.code s.pc hlen (by decide)
  have hwindow : (s.launchWith (encode i ++ rest)).window = encode i ++ (rest ++ more) := by
    rw [State.window, State.fetchAddress, if_pos hmode, State.launchWith_code,
      State.launch_fetchAddress]
    simpa [fetchWindow] using hmore
  apply step_of_decode (by simp [hmode])
  rw [hwindow]
  exact decode_encode hwf (fun _ => hprefixes) _

end Sys2Proof.Machine

namespace Sys2Proof.Machine

/-! ### Rounding a quotient to an integer (R115) -/

/-- The mode drops the fraction of a value of sign `s`. -/
def truncates (rm : RoundMode) (s : Bool) : Bool :=
  match rm with
  | .nearestEven => false
  | .down => !s
  | .up => s
  | .towardZero => true

/-- The mode rounds the magnitude of an inexact value of sign `s` up. -/
def augments (rm : RoundMode) (s : Bool) : Bool :=
  match rm with
  | .nearestEven => false
  | .down => s
  | .up => !s
  | .towardZero => false

theorem roundMode_cases (rm : RoundMode) (s : Bool) :
    truncates rm s = true ∨ augments rm s = true ∨ rm = .nearestEven := by
  cases rm <;> cases s <;> simp [truncates, augments]

/-- A truncating mode gives the floor of the quotient. -/
theorem rint_of_truncates {rm : RoundMode} {s : Bool} (h : truncates rm s = true) (n : Nat) {d : Nat}
    (hd : 0 < d) : rint n d rm s * d ≤ n ∧ n < rint n d rm s * d + d := by
  have hrint : rint n d rm s = n / d := by
    cases rm <;> cases s <;> simp_all [rint, truncates]
  have hdiv := Nat.div_add_mod' n d
  have hmod := Nat.mod_lt n hd
  rw [hrint]
  omega

/-- An augmenting mode gives the ceiling of the quotient. -/
theorem rint_of_augments {rm : RoundMode} {s : Bool} (h : augments rm s = true) (n : Nat) {d : Nat}
    (hd : 0 < d) : n ≤ rint n d rm s * d ∧ rint n d rm s * d < n + d := by
  have hrint : rint n d rm s = if n % d = 0 then n / d else n / d + 1 := by
    cases rm <;> cases s <;> simp_all [rint, augments]
  have hdiv := Nat.div_add_mod' n d
  have hmod := Nat.mod_lt n hd
  rw [hrint]
  split
  · omega
  · rw [Nat.add_one_mul (n / d)]
    omega

/-- Rounding to nearest leaves an error of at most half a unit, and of half a unit only on an even
result. -/
theorem rint_nearestEven (n : Nat) {d : Nat} (hd : 0 < d) (s : Bool) :
    2 * n ≤ 2 * (rint n d .nearestEven s * d) + d ∧
    2 * (rint n d .nearestEven s * d) ≤ 2 * n + d ∧
    (2 * n = 2 * (rint n d .nearestEven s * d) + d ∨
        2 * (rint n d .nearestEven s * d) = 2 * n + d →
      rint n d .nearestEven s % 2 = 0) := by
  have hdiv := Nat.div_add_mod' n d
  have hmod := Nat.mod_lt n hd
  simp only [rint]
  split
  · omega
  · split
    · rw [Nat.add_one_mul (n / d)]
      omega
    · omega

/-- Rounding to nearest: no other multiple is nearer, and one as near only where the result is even. -/
theorem rint_nearestEven_nearest (n c : Nat) {d : Nat} (hd : 0 < d) (s : Bool) :
    ((rint n d .nearestEven s * d : Nat) - n : Int).natAbs ≤ ((c * d : Nat) - n : Int).natAbs ∧
    (((rint n d .nearestEven s * d : Nat) - n : Int).natAbs = ((c * d : Nat) - n : Int).natAbs →
      c ≠ rint n d .nearestEven s → rint n d .nearestEven s % 2 = 0) := by
  obtain ⟨hlow, hhigh, htie⟩ := rint_nearestEven n hd s
  rcases Nat.lt_trichotomy c (rint n d .nearestEven s) with hlt | rfl | hgt
  · have := Nat.mul_le_mul_right d hlt
    rw [Nat.succ_mul] at this
    omega
  · exact ⟨le_rfl, fun _ h => absurd rfl h⟩
  · have := Nat.mul_le_mul_right d hgt
    rw [Nat.succ_mul] at this
    omega

/-- In every mode the error is less than a unit. -/
theorem rint_error (n : Nat) {d : Nat} (hd : 0 < d) (rm : RoundMode) (s : Bool) :
    n < rint n d rm s * d + d ∧ rint n d rm s * d < n + d := by
  rcases roundMode_cases rm s with h | h | rfl
  · have := rint_of_truncates h n hd
    omega
  · have := rint_of_augments h n hd
    omega
  · have := rint_nearestEven n hd s
    omega

theorem rint_le {n c d : Nat} (h : n ≤ c * d) (hd : 0 < d) (rm : RoundMode) (s : Bool) :
    rint n d rm s ≤ c := by
  have herr := (rint_error n hd rm s).2
  have : rint n d rm s * d < (c + 1) * d := by
    rw [Nat.add_one_mul c]
    omega
  exact Nat.lt_succ_iff.1 (Nat.lt_of_mul_lt_mul_right this)

theorem le_rint {n c d : Nat} (h : c * d ≤ n) (hd : 0 < d) (rm : RoundMode) (s : Bool) :
    c ≤ rint n d rm s := by
  have herr := (rint_error n hd rm s).1
  have : c * d < (rint n d rm s + 1) * d := by
    rw [Nat.add_one_mul (rint n d rm s)]
    omega
  exact Nat.lt_succ_iff.1 (Nat.lt_of_mul_lt_mul_right this)

/-- Numerator and denominator may be scaled together. -/
theorem rint_mul_right (n d : Nat) {k : Nat} (hk : 0 < k) (rm : RoundMode) (s : Bool) :
    rint (n * k) (d * k) rm s = rint n d rm s := by
  have hdiv : n * k / (d * k) = n / d := Nat.mul_div_mul_right n d hk
  have hmod : n * k % (d * k) = n % d * k := Nat.mul_mod_mul_right k n d
  have hzero : n % d * k = 0 ↔ n % d = 0 := by simp [hk.ne']
  have hlt : d * k < 2 * (n % d * k) ↔ d < 2 * (n % d) := by
    rw [← Nat.mul_assoc, Nat.mul_lt_mul_right hk]
  have heq : 2 * (n % d * k) = d * k ↔ 2 * (n % d) = d := by
    rw [← Nat.mul_assoc, Nat.mul_left_inj hk.ne']
  simp only [rint, hdiv, hmod, hzero, hlt, heq]

/-- Rounding 24 bits up to the smallest normal value and rounding to a multiple of 2^-149 agree: with
`a` below 2^-126, no double rounding shows where the first rounding reaches it (R115, R117). -/
theorem rint_min_normal {a : Nat} (ha : a < 2 ^ 172) {rm : RoundMode} {s : Bool}
    (h : rint a (2 ^ 148) rm s = 2 ^ 24) : rint a (2 ^ 149) rm s = 2 ^ 23 := by
  rcases roundMode_cases rm s with hm | hm | rfl
  · have hfine := rint_of_truncates hm a (d := 2 ^ 148) (by decide)
    omega
  · have hfine := rint_of_augments hm a (d := 2 ^ 148) (by decide)
    have hcoarse := rint_of_augments hm a (d := 2 ^ 149) (by decide)
    omega
  · have hfine := rint_nearestEven a (d := 2 ^ 148) (by decide) s
    have hcoarse := rint_nearestEven a (d := 2 ^ 149) (by decide) s
    omega

/-! ### Words by sign and code (R105) -/

/-- The word with a sign and, in bits 30:0, a code: 2^23 times the biased exponent plus the fraction. -/
def signedWord (s : Bool) (code : Nat) : Word32 := Bit.ofBool s ++ BitVec.ofNat 31 code

/-- Fields put side by side, as numbers. -/
theorem toNat_append_add {m n : Nat} (x : BitVec m) (y : BitVec n) :
    (x ++ y).toNat = x.toNat * 2 ^ n + y.toNat := by
  rw [BitVec.toNat_append, ← Nat.shiftLeft_add_eq_or_of_lt y.isLt, Nat.shiftLeft_eq]

theorem Bit.ofBool_toNat (s : Bool) : (Bit.ofBool s).toNat = s.toNat := by
  cases s <;> rfl

theorem signedWord_toNat (s : Bool) {code : Nat} (h : code < 2 ^ 31) :
    (signedWord s code).toNat = s.toNat * 2 ^ 31 + code := by
  rw [signedWord, toNat_append_add, Bit.ofBool_toNat, BitVec.toNat_ofNat, Nat.mod_eq_of_lt h]

@[simp] theorem sign_signedWord (s : Bool) (code : Nat) : sign (signedWord s code) = s := by
  rw [sign, signedWord, BitVec.getLsbD_append]
  cases s <;> rfl

theorem signedWord_lsb (s : Bool) (code : Nat) :
    (signedWord s code).getLsbD 0 = decide (code % 2 = 1) := by
  rw [signedWord, BitVec.getLsbD_append, if_pos (by decide), BitVec.getLsbD_ofNat]
  simp [Nat.testBit_zero]

theorem biasedExp_toNat (w : Word32) : (biasedExp w).toNat = w.toNat / 2 ^ 23 % 2 ^ 8 := by
  simp [biasedExp, Nat.shiftRight_eq_div_pow]

theorem fraction_toNat (w : Word32) : (fraction w).toNat = w.toNat % 2 ^ 23 := by
  simp [fraction]

theorem biasedExp_signedWord (s : Bool) {code : Nat} (h : code < 2 ^ 31) :
    (biasedExp (signedWord s code)).toNat = code / 2 ^ 23 := by
  rw [biasedExp_toNat, signedWord_toNat s h]
  cases s <;> simp only [Bool.toNat_true, Bool.toNat_false] <;> omega

theorem fraction_signedWord (s : Bool) {code : Nat} (h : code < 2 ^ 31) :
    (fraction (signedWord s code)).toNat = code % 2 ^ 23 := by
  rw [fraction_toNat, signedWord_toNat s h]
  cases s <;> simp only [Bool.toNat_true, Bool.toNat_false] <;> omega

theorem isFinite_iff (w : Word32) : isFinite w = true ↔ (biasedExp w).toNat ≤ 254 := by
  have hlt := (biasedExp w).isLt
  rw [isFinite, bne_iff_ne, ne_eq, ← BitVec.toNat_inj, BitVec.toNat_ofNat]
  omega

/-- A code below that of infinity is a finite value. -/
theorem isFinite_signedWord (s : Bool) {code : Nat} (h : code < 255 * 2 ^ 23) :
    isFinite (signedWord s code) = true := by
  rw [isFinite_iff, biasedExp_signedWord s (by omega)]
  omega

/-- The magnitude by biased exponent and fraction as numbers (R105). -/
theorem magnitude_eq (w : Word32) :
    magnitude w = if (biasedExp w).toNat = 0 then (fraction w).toNat
      else (2 ^ 23 + (fraction w).toNat) * 2 ^ ((biasedExp w).toNat - 1) := by
  have hzero : biasedExp w = 0#8 ↔ (biasedExp w).toNat = 0 := by
    rw [← BitVec.toNat_inj]
    rfl
  simp only [magnitude, hzero]

/-- The code of `m * 2^g` is `g * 2^23 + m`, whether `m` is a fraction, a 24-bit significand or has just
been rounded up to 2^24. -/
theorem magnitude_signedWord (s : Bool) {g m : Nat} (hm : m ≤ 2 ^ 24) (hg : g = 0 ∨ 2 ^ 23 ≤ m)
    (hcode : g * 2 ^ 23 + m < 2 ^ 31) :
    magnitude (signedWord s (g * 2 ^ 23 + m)) = m * 2 ^ g := by
  rw [magnitude_eq, biasedExp_signedWord s hcode, fraction_signedWord s hcode]
  rcases Nat.lt_or_ge m (2 ^ 23) with hlt | hge
  · have : g = 0 := by omega
    subst this
    rw [if_pos (by omega)]
    omega
  rcases Nat.lt_or_ge m (2 ^ 24) with hlt | heq
  · have hexp : (g * 2 ^ 23 + m) / 2 ^ 23 = g + 1 := by omega
    have hfrac : 2 ^ 23 + (g * 2 ^ 23 + m) % 2 ^ 23 = m := by omega
    rw [hexp, hfrac, if_neg (Nat.succ_ne_zero g), Nat.add_sub_cancel]
  · have hexp : (g * 2 ^ 23 + m) / 2 ^ 23 = g + 2 := by omega
    have hfrac : (g * 2 ^ 23 + m) % 2 ^ 23 = 0 := by omega
    rw [hexp, hfrac, if_neg (by omega), show g + 2 - 1 = g + 1 by omega, show m = 2 ^ 24 by omega]
    ring

/-- The largest finite magnitude: 24 ones at the greatest exponent. -/
def maxMagnitude : Nat := (2 ^ 24 - 1) * 2 ^ 253

theorem signedMax_eq (s : Bool) : signedMax s = signedWord s (253 * 2 ^ 23 + (2 ^ 24 - 1)) := rfl

theorem magnitude_signedMax (s : Bool) : magnitude (signedMax s) = maxMagnitude := by
  rw [signedMax_eq, maxMagnitude]
  exact magnitude_signedWord s (by omega) (by omega) (by omega)

theorem magnitude_le_max {w : Word32} (h : isFinite w = true) : magnitude w ≤ maxMagnitude := by
  have hexp := (isFinite_iff w).1 h
  have hfrac := (fraction w).isLt
  rw [magnitude_eq, maxMagnitude]
  split
  · calc (fraction w).toNat ≤ 2 ^ 24 - 1 := by omega
      _ ≤ (2 ^ 24 - 1) * 2 ^ 253 := Nat.le_mul_of_pos_right _ (by decide)
  · exact Nat.mul_le_mul (by omega) (Nat.pow_le_pow_right (by decide) (by omega))

/-- The grid of single precision: a magnitude is a multiple of 2^g, or below the 24-bit multiples
of it. -/
theorem magnitude_grid (w : Word32) (g : Nat) :
    (∃ c, magnitude w = c * 2 ^ g) ∨ (0 < g ∧ magnitude w < 2 ^ 23 * 2 ^ g) := by
  have hfrac := (fraction w).isLt
  rcases Nat.eq_zero_or_pos g with rfl | hg
  · exact .inl ⟨magnitude w, by simp⟩
  rw [magnitude_eq]
  split
  · exact .inr ⟨hg, Nat.lt_of_lt_of_le hfrac (Nat.le_mul_of_pos_right _ (Nat.two_pow_pos g))⟩
  · rcases Nat.lt_or_ge ((biasedExp w).toNat - 1) g with hlt | hge
    · right
      refine ⟨hg, ?_⟩
      calc (2 ^ 23 + (fraction w).toNat) * 2 ^ ((biasedExp w).toNat - 1)
          < 2 ^ 24 * 2 ^ ((biasedExp w).toNat - 1) :=
            Nat.mul_lt_mul_of_pos_right (by omega) (Nat.two_pow_pos _)
        _ = 2 ^ 23 * 2 ^ ((biasedExp w).toNat - 1 + 1) := by ring
        _ ≤ 2 ^ 23 * 2 ^ g := Nat.mul_le_mul_left _ (Nat.pow_le_pow_right (by decide) hlt)
    · left
      refine ⟨(2 ^ 23 + (fraction w).toNat) * 2 ^ ((biasedExp w).toNat - 1 - g), ?_⟩
      rw [Nat.mul_assoc, ← Nat.pow_add, Nat.sub_add_cancel hge]

end Sys2Proof.Machine

namespace Sys2Proof.Machine

/-! ### The rounded word (R115 to R117) -/

/-- The spacing of single precision around a magnitude `a`, held in units of 2^-298, is 2^gridExp in units
of 2^-149: 0 up to the smallest normal binade, then one more for each binade. -/
def gridExp (a : Nat) : Nat := Nat.log2 a - 172

/-- The magnitude `a` rounded to a multiple of the spacing, as that multiple. -/
def gridQuotient (a : Nat) (rm : RoundMode) (s : Bool) : Nat := rint a (2 ^ (149 + gridExp a)) rm s

/-- The code of the rounded magnitude; from 255 * 2^23 on it is an overflow. -/
def roundedCode (a : Nat) (rm : RoundMode) (s : Bool) : Nat :=
  gridExp a * 2 ^ 23 + gridQuotient a rm s

theorem log2_le_gridExp (a : Nat) : Nat.log2 a ≤ 172 + gridExp a := by
  unfold gridExp
  omega

theorem log2_eq_gridExp {a : Nat} (h : 172 ≤ Nat.log2 a) : Nat.log2 a = 172 + gridExp a := by
  unfold gridExp
  omega

theorem log2_of_gridExp_pos {a : Nat} (h : 0 < gridExp a) : 172 ≤ Nat.log2 a := by
  unfold gridExp at h
  omega

theorem gridExp_eq_zero {a : Nat} (h : Nat.log2 a < 172) : gridExp a = 0 := by
  unfold gridExp
  omega

/-- A magnitude is below the 24-bit multiples of its spacing. -/
theorem lt_gridExp (a : Nat) : a < 2 ^ 24 * 2 ^ (149 + gridExp a) := by
  have hlog := log2_le_gridExp a
  rw [← Nat.pow_add]
  exact Nat.lt_of_lt_of_le Nat.lt_log2_self (Nat.pow_le_pow_right (by decide) (by omega))

/-- From the second binade on a magnitude has 24 bits over its spacing. -/
theorem gridExp_le {a : Nat} (h : 172 ≤ Nat.log2 a) : 2 ^ 23 * 2 ^ (149 + gridExp a) ≤ a := by
  have hlog := log2_eq_gridExp h
  have ha : a ≠ 0 := fun ha => by
    rw [ha, Nat.log2_zero] at h
    omega
  have hsum : 23 + (149 + gridExp a) = Nat.log2 a := by omega
  rw [← Nat.pow_add, hsum]
  exact Nat.log2_self_le ha

theorem gridQuotient_le (a : Nat) (rm : RoundMode) (s : Bool) : gridQuotient a rm s ≤ 2 ^ 24 :=
  rint_le (lt_gridExp a).le (Nat.two_pow_pos _) rm s

theorem le_gridQuotient {a : Nat} (h : 172 ≤ Nat.log2 a) (rm : RoundMode) (s : Bool) :
    2 ^ 23 ≤ gridQuotient a rm s :=
  le_rint (gridExp_le h) (Nat.two_pow_pos _) rm s

/-- R115, by whether the 24-bit rounding is renormalised. -/
theorem round24_eq (a : Nat) (rm : RoundMode) (s : Bool) :
    round24 a rm s =
      if rint (a * 2 ^ 23) (2 ^ Nat.log2 a) rm s = 2 ^ 24 then ⟨2 ^ 23, exponentOf a + 1⟩
      else ⟨rint (a * 2 ^ 23) (2 ^ Nat.log2 a) rm s, exponentOf a⟩ := by
  simp only [round24]

/-- From the second binade on, the 24-bit significand of R115 is the multiple of the spacing. -/
theorem round24_of_normal {a : Nat} (h : 172 ≤ Nat.log2 a) (rm : RoundMode) (s : Bool) :
    round24 a rm s = if gridQuotient a rm s = 2 ^ 24 then ⟨2 ^ 23, gridExp a - 125⟩
      else ⟨gridQuotient a rm s, gridExp a - 126⟩ := by
  have hlog := log2_eq_gridExp h
  have hsum : Nat.log2 a = 149 + gridExp a + 23 := by omega
  have hm : rint (a * 2 ^ 23) (2 ^ Nat.log2 a) rm s = gridQuotient a rm s := by
    rw [hsum, Nat.pow_add, rint_mul_right _ _ (Nat.two_pow_pos 23), gridQuotient]
  have he : exponentOf a = gridExp a - 126 := by
    unfold exponentOf
    omega
  have he' : (gridExp a : Int) - 126 + 1 = gridExp a - 125 := by omega
  rw [round24_eq, hm, he, he']

/-- Below it, the 24-bit rounding is tiny, or it reached the smallest normal value. -/
theorem round24_of_tiny {a : Nat} (h : Nat.log2 a < 172) (rm : RoundMode) (s : Bool) :
    (round24 a rm s).e < -126 ∨
      round24 a rm s = ⟨2 ^ 23, -126⟩ ∧ gridQuotient a rm s = 2 ^ 23 := by
  have he : exponentOf a < -126 := by
    unfold exponentOf
    omega
  by_cases hm : rint (a * 2 ^ 23) (2 ^ Nat.log2 a) rm s = 2 ^ 24
  · rw [round24_eq, if_pos hm]
    rcases Nat.lt_or_ge (Nat.log2 a) 171 with hlt | hge
    · left
      simp only [exponentOf]
      omega
    · right
      have hlog : Nat.log2 a = 171 := by omega
      have hfine : rint a (2 ^ 148) rm s = 2 ^ 24 := by
        rw [← hm, hlog, ← rint_mul_right a (2 ^ 148) (Nat.two_pow_pos 23), ← Nat.pow_add]
      have ha : a < 2 ^ (Nat.log2 a + 1) := Nat.lt_log2_self
      rw [hlog] at ha
      refine ⟨by rw [exponentOf, hlog]; norm_num, ?_⟩
      rw [gridQuotient, gridExp_eq_zero h]
      exact rint_min_normal ha hfine
  · rw [round24_eq, if_neg hm]
    exact .inl he

theorem normalResult_eq (s : Bool) (m : Nat) {e : Int} {b : Nat} (he : e + 127 = b)
    (hb : b < 2 ^ 8) : normalResult ⟨m, e⟩ s = signedWord s (b * 2 ^ 23 + m % 2 ^ 23) := by
  apply BitVec.eq_of_toNat_eq
  rw [signedWord_toNat s (by omega), normalResult, he, Int.toNat_natCast, toNat_append_add,
    toNat_append_add, Bit.ofBool_toNat, BitVec.toNat_ofNat, BitVec.toNat_ofNat,
    Nat.mod_eq_of_lt hb]
  dsimp only
  omega

theorem overflowResult_eq (rm : RoundMode) (s : Bool) :
    overflowResult rm s = if truncates rm s then signedMax s else signedInf s := by
  cases rm <;> cases s <;> rfl

/-- The word step 8 gives without flushing (R115 to R117). -/
def roundedWord (a : Nat) (rm : RoundMode) (s : Bool) : Word32 :=
  if 127 < (round24 a rm s).e then overflowResult rm s
  else if (round24 a rm s).e < -126 then denormalResult a rm s
  else normalResult (round24 a rm s) s

theorem roundValue_result (v : Int) (rm : RoundMode) (um : Bool) :
    (roundValue v rm false um).1 = roundedWord v.natAbs rm (decide (v < 0)) := by
  simp only [roundValue, roundedWord, Bool.false_and, Bool.false_eq_true, if_false,
    apply_ite Prod.fst]

/-- The rounded word has the rounded code, unless that is an overflow. -/
theorem roundedWord_eq (a : Nat) (rm : RoundMode) (s : Bool) :
    roundedWord a rm s =
      if 255 * 2 ^ 23 ≤ roundedCode a rm s then overflowResult rm s
      else signedWord s (roundedCode a rm s) := by
  have hle := gridQuotient_le a rm s
  unfold roundedWord
  rcases Nat.lt_or_ge (Nat.log2 a) 172 with hlog | hlog
  · have hcode : roundedCode a rm s = gridQuotient a rm s := by
      rw [roundedCode, gridExp_eq_zero hlog, Nat.zero_mul, Nat.zero_add]
    rw [hcode]
    rcases round24_of_tiny hlog rm s with he | ⟨hp, hq⟩
    · rw [if_neg (by omega), if_pos he, if_neg (by omega), gridQuotient, gridExp_eq_zero hlog]
      rfl
    · rw [hp, hq, if_neg (by norm_num), if_neg (by norm_num), if_neg (by norm_num),
        normalResult_eq s _ (b := 1) (by norm_num) (by norm_num)]
      norm_num
  · have hge := le_gridQuotient hlog rm s
    rw [round24_of_normal hlog, roundedCode]
    by_cases hm : gridQuotient a rm s = 2 ^ 24
    · rw [if_pos hm, hm]
      dsimp only
      by_cases hover : 127 < (gridExp a : Int) - 125
      · rw [if_pos hover, if_pos (by omega)]
      · have hcode : (gridExp a + 2) * 2 ^ 23 + 2 ^ 23 % 2 ^ 23 = gridExp a * 2 ^ 23 + 2 ^ 24 := by omega
        rw [if_neg hover, if_neg (by omega), if_neg (by omega),
          normalResult_eq s _ (b := gridExp a + 2) (by omega) (by omega), hcode]
    · rw [if_neg hm]
      dsimp only
      by_cases hover : 127 < (gridExp a : Int) - 126
      · rw [if_pos hover, if_pos (by omega)]
      · have hcode : (gridExp a + 1) * 2 ^ 23 + gridQuotient a rm s % 2 ^ 23 =
            gridExp a * 2 ^ 23 + gridQuotient a rm s := by omega
        rw [if_neg hover, if_neg (by omega), if_neg (by omega),
          normalResult_eq s _ (b := gridExp a + 1) (by omega) (by omega), hcode]

/-! ### The rounded magnitude against every finite value (R30, R101, R115) -/

/-- Below the overflow code, the magnitude of the rounded word is the rounded multiple of the spacing. -/
theorem magnitude_rounded {a : Nat} {rm : RoundMode} (s : Bool)
    (h : roundedCode a rm s < 255 * 2 ^ 23) :
    magnitude (signedWord s (roundedCode a rm s)) = gridQuotient a rm s * 2 ^ gridExp a := by
  refine magnitude_signedWord s (gridQuotient_le a rm s) ?_ (by unfold roundedCode at h; omega)
  rcases Nat.eq_zero_or_pos (gridExp a) with hg | hg
  · exact .inl hg
  · exact .inr (le_gridQuotient (log2_of_gridExp_pos hg) rm s)

/-- From the overflow code on, the rounded multiple of the spacing is 2^128 or more. -/
theorem overflow_le {a : Nat} {rm : RoundMode} {s : Bool} (h : 255 * 2 ^ 23 ≤ roundedCode a rm s) :
    2 ^ 24 * 2 ^ 253 ≤ gridQuotient a rm s * 2 ^ gridExp a := by
  have hle := gridQuotient_le a rm s
  unfold roundedCode at h
  rcases Nat.lt_or_ge (gridExp a) 254 with hlt | hge
  · have hg : gridExp a = 253 := by omega
    rw [hg]
    exact Nat.mul_le_mul_right _ (by omega)
  · have hlarge := le_gridQuotient (log2_of_gridExp_pos (by omega : 0 < gridExp a)) rm s
    have hpow : 2 ^ 254 ≤ 2 ^ gridExp a := Nat.pow_le_pow_right (Nat.succ_pos 1) hge
    have hmul := Nat.mul_le_mul hlarge hpow
    omega

/-- `m` is the greatest finite magnitude not above `a`, which is in units of 2^-298. -/
def IsFloorMagnitude (a m : Nat) : Prop :=
  m * 2 ^ 149 ≤ a ∧ ∀ w, isFinite w = true → magnitude w * 2 ^ 149 ≤ a → magnitude w ≤ m

/-- `m` is the least finite magnitude not below `a`. -/
def IsCeilMagnitude (a m : Nat) : Prop :=
  a ≤ m * 2 ^ 149 ∧ ∀ w, isFinite w = true → a ≤ magnitude w * 2 ^ 149 → m ≤ magnitude w

/-- In units of 2^-298. -/
theorem gridExp_units (a c : Nat) :
    c * 2 ^ gridExp a * 2 ^ 149 = c * 2 ^ (149 + gridExp a) := by
  rw [Nat.mul_assoc, ← Nat.pow_add, Nat.add_comm 149]

/-- A magnitude that is no multiple of the spacing around `a` is below 2^23 times it, and so is below
`a`. -/
theorem magnitude_gridExp (w : Word32) (a : Nat) :
    (∃ c, magnitude w = c * 2 ^ gridExp a) ∨
    (magnitude w < 2 ^ 23 * 2 ^ gridExp a ∧ 2 ^ 23 * 2 ^ (149 + gridExp a) ≤ a) := by
  rcases magnitude_grid w (gridExp a) with h | ⟨hg, hlt⟩
  · exact .inl h
  · exact .inr ⟨hlt, gridExp_le (log2_of_gridExp_pos hg)⟩

/-- The floor on the grid is the greatest finite magnitude not above. -/
theorem gridQuotient_floor {rm : RoundMode} {s : Bool} (h : truncates rm s = true) (a : Nat) :
    IsFloorMagnitude a (gridQuotient a rm s * 2 ^ gridExp a) := by
  obtain ⟨hle, hlt⟩ := rint_of_truncates h a (Nat.two_pow_pos (149 + gridExp a))
  refine ⟨(gridExp_units a _).le.trans hle, fun w _ hw => ?_⟩
  rcases magnitude_gridExp w a with ⟨c, hc⟩ | ⟨hsmall, hbig⟩
  · rw [hc, gridExp_units] at hw
    rw [hc]
    exact Nat.mul_le_mul_right _ (le_rint hw (Nat.two_pow_pos _) rm s)
  · exact hsmall.le.trans (Nat.mul_le_mul_right _ (le_rint hbig (Nat.two_pow_pos _) rm s))

/-- The ceiling on the grid is the least finite magnitude not below. -/
theorem gridQuotient_ceil {rm : RoundMode} {s : Bool} (h : augments rm s = true) (a : Nat) :
    IsCeilMagnitude a (gridQuotient a rm s * 2 ^ gridExp a) := by
  obtain ⟨hle, hlt⟩ := rint_of_augments h a (Nat.two_pow_pos (149 + gridExp a))
  refine ⟨hle.trans (gridExp_units a _).ge, fun w _ hw => ?_⟩
  rcases magnitude_gridExp w a with ⟨c, hc⟩ | ⟨hsmall, hbig⟩
  · rw [hc, gridExp_units] at hw
    rw [hc]
    exact Nat.mul_le_mul_right _ (rint_le hw (Nat.two_pow_pos _) rm s)
  · have := Nat.mul_lt_mul_of_pos_right hsmall (Nat.two_pow_pos 149)
    rw [gridExp_units] at this
    omega

/-- No magnitude is nearer to `a` than `m`, and one as near only where `even` holds. -/
def IsNearestMagnitude (a m : Nat) (even : Prop) : Prop :=
  ∀ w, ((m * 2 ^ 149 : Nat) - a : Int).natAbs ≤ ((magnitude w * 2 ^ 149 : Nat) - a : Int).natAbs ∧
    (((m * 2 ^ 149 : Nat) - a : Int).natAbs = ((magnitude w * 2 ^ 149 : Nat) - a : Int).natAbs →
      magnitude w ≠ m → even)

/-- Rounding to nearest on the grid gives the nearest finite magnitude, ties going to even multiples. -/
theorem gridQuotient_nearest (a : Nat) (s : Bool) :
    IsNearestMagnitude a (gridQuotient a .nearestEven s * 2 ^ gridExp a)
      (gridQuotient a .nearestEven s % 2 = 0) := by
  intro w
  rw [gridExp_units]
  rcases magnitude_gridExp w a with ⟨c, hc⟩ | ⟨hsmall, hbig⟩
  · rw [hc, gridExp_units]
    refine (rint_nearestEven_nearest a c (Nat.two_pow_pos _) s).imp_right fun htie heq hne => ?_
    exact htie heq fun h => hne (h ▸ rfl)
  · have hgrid := (rint_nearestEven_nearest a (2 ^ 23) (Nat.two_pow_pos (149 + gridExp a)) s).1
    have hw := Nat.mul_lt_mul_of_pos_right hsmall (Nat.two_pow_pos 149)
    rw [gridExp_units] at hw
    rw [← gridQuotient] at hgrid
    omega

end Sys2Proof.Machine

namespace Sys2Proof.Machine

/-! ### The rounded word, by mode -/

theorem isFinite_signedInf (s : Bool) : isFinite (signedInf s) = false := by
  cases s <;> decide

theorem isFinite_signedMax (s : Bool) : isFinite (signedMax s) = true := by
  cases s <;> decide

/-- A truncating mode gives a finite word of the sign with the greatest finite magnitude not above. -/
theorem roundedWord_of_truncates {rm : RoundMode} {s : Bool} (h : truncates rm s = true) (a : Nat) :
    isFinite (roundedWord a rm s) = true ∧ sign (roundedWord a rm s) = s ∧
      IsFloorMagnitude a (magnitude (roundedWord a rm s)) := by
  have hfloor := gridQuotient_floor h a
  rw [roundedWord_eq]
  split
  case isTrue hover =>
    rw [overflowResult_eq, if_pos h, magnitude_signedMax]
    have hmax : maxMagnitude ≤ gridQuotient a rm s * 2 ^ gridExp a :=
      le_trans (Nat.mul_le_mul_right _ (Nat.sub_le _ _)) (overflow_le hover)
    exact ⟨isFinite_signedMax s, sign_signedWord s _,
      (Nat.mul_le_mul_right _ hmax).trans hfloor.1, fun w hw _ => magnitude_le_max hw⟩
  case isFalse hover =>
    rw [not_le] at hover
    rw [magnitude_rounded s hover]
    exact ⟨isFinite_signedWord s hover, sign_signedWord s _, hfloor⟩

/-- A finite word that is not from a truncating mode is the rounded multiple of the spacing. -/
theorem roundedWord_of_finite {rm : RoundMode} {s : Bool} (h : truncates rm s = false) {a : Nat}
    (hfin : isFinite (roundedWord a rm s) = true) :
    sign (roundedWord a rm s) = s ∧
      magnitude (roundedWord a rm s) = gridQuotient a rm s * 2 ^ gridExp a ∧
      (roundedWord a rm s).getLsbD 0 = decide (roundedCode a rm s % 2 = 1) := by
  rw [roundedWord_eq] at hfin ⊢
  split at hfin
  case isTrue hover =>
    rw [overflowResult_eq, h] at hfin
    simp [isFinite_signedInf] at hfin
  case isFalse hover =>
    rw [if_neg hover]
    exact ⟨sign_signedWord s _, magnitude_rounded s (not_le.1 hover), signedWord_lsb s _⟩

/-- A finite word from an augmenting mode has the least finite magnitude not below. -/
theorem roundedWord_of_augments {rm : RoundMode} {s : Bool} (h : augments rm s = true) {a : Nat}
    (hfin : isFinite (roundedWord a rm s) = true) :
    sign (roundedWord a rm s) = s ∧ IsCeilMagnitude a (magnitude (roundedWord a rm s)) := by
  have htrunc : truncates rm s = false := by cases rm <;> cases s <;> simp_all [truncates, augments]
  obtain ⟨hsign, hmag, -⟩ := roundedWord_of_finite htrunc hfin
  exact ⟨hsign, hmag ▸ gridQuotient_ceil h a⟩

/-- A finite word rounded to nearest has the nearest finite magnitude, on a tie an even word. -/
theorem roundedWord_nearestEven {s : Bool} {a : Nat}
    (hfin : isFinite (roundedWord a .nearestEven s) = true) :
    sign (roundedWord a .nearestEven s) = s ∧
      IsNearestMagnitude a (magnitude (roundedWord a .nearestEven s))
        ((roundedWord a .nearestEven s).getLsbD 0 = false) := by
  obtain ⟨hsign, hmag, hlsb⟩ := roundedWord_of_finite rfl hfin
  refine ⟨hsign, fun w => ?_⟩
  have heven : gridQuotient a .nearestEven s % 2 = 0 →
      (roundedWord a .nearestEven s).getLsbD 0 = false := fun h => by
    rw [hlsb, decide_eq_false_iff_not, roundedCode]
    omega
  rw [hmag]
  exact (gridQuotient_nearest a s w).imp_right fun htie heq hne => heven (htie heq hne)

/-! ### From `fmsub32` to the rounded word -/

theorem isFinite_dazOperand (d : Bool) {w : Word32} (h : isFinite w = true) :
    isFinite (dazOperand d w) = true := by
  unfold dazOperand
  split
  · rw [isFinite, biasedExp_signBit]
    decide
  · exact h

/-- What `fmsub32` returns is the word the core gives. -/
theorem fmsub32_result {x y z r : Word32} {rm : RoundMode} {m : Word32} {sae : Bool} {f : FpFlags}
    (h : fmsub32 x y z rm m sae = .result r f) :
    r = (fmsubCore (dazOperand (daz m) x) (dazOperand (daz m) y) (dazOperand (daz m) z) rm
      (ftz m) (masked m .underflow || sae)).1 := by
  rw [fmsub32_eq] at h
  rcases respond_cases m sae (fmsubCore (dazOperand (daz m) x) (dazOperand (daz m) y)
    (dazOperand (daz m) z) rm (ftz m) (masked m .underflow || sae)) with
    ⟨-, e⟩ | ⟨-, -, e⟩ | ⟨-, c, -, -, -, e⟩ <;> rw [e] at h <;> cases h
  · rfl
  · rfl

theorem magnitude_signedZero (s : Bool) : magnitude (signedZero s) = 0 := by
  cases s <;> decide

theorem isFinite_signedZero (s : Bool) : isFinite (signedZero s) = true := by
  cases s <;> decide

/-- Kept apart so that the kernel never compares the flags, which are large terms. -/
theorem fst_mk_eq {α β : Type} {a c : α} {b : β} (h : a = c) : (a, b).1 = c := h

/-- The core on finite operands with FTZ = 0: a zero for the exact value zero, else the exact value
rounded. -/
theorem fmsubCore_finite_word {x y z : Word32} (rm : RoundMode) (um : Bool)
    (hx : isFinite x = true) (hy : isFinite y = true) (hz : isFinite z = true) :
    (exactDiff x y z = 0 ∧ ∃ s, (fmsubCore x y z rm false um).1 = signedZero s) ∨
    (exactDiff x y z ≠ 0 ∧ (fmsubCore x y z rm false um).1 =
      roundedWord (exactDiff x y z).natAbs rm (decide (exactDiff x y z < 0))) := by
  rw [fmsubCore_of_finite rm false um hx hy hz]
  by_cases hv : exactDiff x y z = 0
  · rw [if_pos hv]
    refine .inl ⟨hv, ?_⟩
    dsimp only
    split
    · exact ⟨productSign x y, rfl⟩
    · exact ⟨rm == .down, rfl⟩
  · rw [if_neg hv]
    exact .inr ⟨hv, fst_mk_eq (roundValue_result _ rm um)⟩

/-- A result on finite operands with FTZ = 0, by the exact value `v` (R104 steps 6 to 8). -/
theorem fmsub32_finite_result {x y z r : Word32} {rm : RoundMode} {m : Word32} {sae : Bool}
    {f : FpFlags} {v : Int} (hx : isFinite x = true) (hy : isFinite y = true)
    (hz : isFinite z = true) (hftz : ftz m = false)
    (hv : v = exactDiff (dazOperand (daz m) x) (dazOperand (daz m) y) (dazOperand (daz m) z))
    (h : fmsub32 x y z rm m sae = .result r f) :
    (v = 0 ∧ ∃ s, r = signedZero s) ∨
    (v ≠ 0 ∧ r = roundedWord v.natAbs rm (decide (v < 0))) := by
  rw [fmsub32_result h, hftz, hv]
  exact fmsubCore_finite_word rm _ (isFinite_dazOperand _ hx) (isFinite_dazOperand _ hy)
    (isFinite_dazOperand _ hz)

end Sys2Proof.Machine

namespace Sys2Proof.Machine

/-! ### Single rounding, mode by mode (R30, R101, R115) -/

/-- The integer of a word is its magnitude with its sign. -/
theorem scaled_cases (w : Word32) :
    (sign w = true ∧ scaled w = -(magnitude w : Int)) ∨ (sign w = false ∧ scaled w = magnitude w) := by
  cases h : sign w <;> simp [scaled, h]

theorem natAbs_scaled (w : Word32) : (scaled w).natAbs = magnitude w := by
  rcases scaled_cases w with ⟨-, h⟩ | ⟨-, h⟩ <;> omega

theorem scaled_signedZero (s : Bool) : scaled (signedZero s) = 0 := by
  have := natAbs_scaled (signedZero s)
  rw [magnitude_signedZero] at this
  omega

/-- No finite value not above `v`, which is in units of 2^-298, is greater than `r`, which is one. -/
def IsGreatestNotAbove (v : Int) (r : Word32) : Prop :=
  scaled r * 2 ^ 149 ≤ v ∧
    ∀ w, isFinite w = true → scaled w * 2 ^ 149 ≤ v → scaled w ≤ scaled r

/-- No finite value not below `v` is less than `r`, which is one. -/
def IsLeastNotBelow (v : Int) (r : Word32) : Prop :=
  v ≤ scaled r * 2 ^ 149 ∧
    ∀ w, isFinite w = true → v ≤ scaled w * 2 ^ 149 → scaled r ≤ scaled w

section
variable {v : Int} {r : Word32}

/-- A word of the sign of a non-negative `v` has its magnitude as integer. -/
theorem scaled_of_nonneg (hv : 0 ≤ v) (hs : sign r = decide (v < 0)) : scaled r = magnitude r := by
  rcases scaled_cases r with ⟨hneg, -⟩ | ⟨-, h⟩
  · exact absurd (of_decide_eq_true (hs ▸ hneg)) (not_lt.2 hv)
  · exact h

/-- A word of the sign of a negative `v` has the negative of its magnitude as integer. -/
theorem scaled_of_neg (hv : v < 0) (hs : sign r = decide (v < 0)) :
    scaled r = -(magnitude r : Int) := by
  rcases scaled_cases r with ⟨-, h⟩ | ⟨hpos, -⟩
  · exact h
  · exact absurd hv (of_decide_eq_false (hs ▸ hpos))

/-- The greatest finite value not above a non-negative `v` is the floor of its magnitude. -/
theorem isGreatestNotAbove_of_floor (hv : 0 ≤ v) (hs : sign r = decide (v < 0))
    (h : IsFloorMagnitude v.natAbs (magnitude r)) :
    IsGreatestNotAbove v r := by
  unfold IsGreatestNotAbove
  rw [scaled_of_nonneg hv hs]
  refine ⟨by have := h.1; omega, fun w hw hle => ?_⟩
  rcases scaled_cases w with ⟨-, e⟩ | ⟨-, e⟩
  · omega
  · have := h.2 w hw (by omega)
    omega

/-- The greatest finite value not above a negative `v` is the ceiling of its magnitude. -/
theorem isGreatestNotAbove_of_ceil (hv : v < 0) (hs : sign r = decide (v < 0))
    (h : IsCeilMagnitude v.natAbs (magnitude r)) :
    IsGreatestNotAbove v r := by
  unfold IsGreatestNotAbove
  rw [scaled_of_neg hv hs]
  refine ⟨by have := h.1; omega, fun w hw hle => ?_⟩
  have := h.2 w hw (by rw [← natAbs_scaled]; omega)
  rw [← natAbs_scaled w] at this
  omega

/-- The least finite value not below a non-negative `v` is the ceiling of its magnitude. -/
theorem isLeastNotBelow_of_ceil (hv : 0 ≤ v) (hs : sign r = decide (v < 0))
    (h : IsCeilMagnitude v.natAbs (magnitude r)) :
    IsLeastNotBelow v r := by
  unfold IsLeastNotBelow
  rw [scaled_of_nonneg hv hs]
  refine ⟨by have := h.1; omega, fun w hw hle => ?_⟩
  have := h.2 w hw (by rw [← natAbs_scaled]; omega)
  rw [← natAbs_scaled w] at this
  omega

/-- The least finite value not below a negative `v` is the floor of its magnitude. -/
theorem isLeastNotBelow_of_floor (hv : v < 0) (hs : sign r = decide (v < 0))
    (h : IsFloorMagnitude v.natAbs (magnitude r)) :
    IsLeastNotBelow v r := by
  unfold IsLeastNotBelow
  rw [scaled_of_neg hv hs]
  refine ⟨by have := h.1; omega, fun w hw hle => ?_⟩
  rcases scaled_cases w with ⟨-, e⟩ | ⟨-, e⟩
  · have := h.2 w hw (by omega)
    omega
  · omega

/-- The error of a word of the sign of `v` is that of its magnitude. -/
theorem natAbs_error_of_sign (hs : sign r = decide (v < 0)) :
    (scaled r * 2 ^ 149 - v).natAbs = ((magnitude r * 2 ^ 149 : Nat) - (v.natAbs : Int)).natAbs := by
  rcases lt_or_ge v 0 with hv | hv
  · rw [scaled_of_neg hv hs]
    omega
  · rw [scaled_of_nonneg hv hs]
    omega

/-- The error of any word, whatever its sign, is at least that of its magnitude. -/
theorem natAbs_error_ge (v : Int) (w : Word32) :
    ((magnitude w * 2 ^ 149 : Nat) - (v.natAbs : Int)).natAbs ≤ (scaled w * 2 ^ 149 - v).natAbs := by
  rcases scaled_cases w with ⟨-, e⟩ | ⟨-, e⟩ <;> omega

/-- The nearest finite value to `v` has the sign of `v` and the nearest magnitude. -/
theorem nearest_of_magnitude {even : Prop} (hv : v ≠ 0) (hs : sign r = decide (v < 0))
    (h : IsNearestMagnitude v.natAbs (magnitude r) even) (w : Word32) :
    (scaled r * 2 ^ 149 - v).natAbs ≤ (scaled w * 2 ^ 149 - v).natAbs ∧
    ((scaled r * 2 ^ 149 - v).natAbs = (scaled w * 2 ^ 149 - v).natAbs → scaled w ≠ scaled r →
      even) := by
  obtain ⟨hle, htie⟩ := h w
  have hge := natAbs_error_ge v w
  rw [natAbs_error_of_sign hs]
  refine ⟨hle.trans hge, fun heq hne => htie (by omega) fun hmag => hne ?_⟩
  rcases lt_or_ge v 0 with hv' | hv'
  · rw [scaled_of_neg hv' hs]
    rcases scaled_cases w with ⟨-, e⟩ | ⟨-, e⟩ <;> omega
  · rw [scaled_of_nonneg hv' hs]
    rcases scaled_cases w with ⟨-, e⟩ | ⟨-, e⟩ <;> omega

end

/-- Settles O54: rounding down is the floor of a positive magnitude and the ceiling of a negative one. -/
theorem roundsDown : Obligations.RoundsDown := by
  intro x y z m sae r f v hx hy hz hftz hv h hfin
  rcases fmsub32_finite_result hx hy hz hftz hv h with ⟨hzero, s, rfl⟩ | ⟨-, rfl⟩
  · rw [scaled_signedZero]
    exact ⟨by omega, fun w _ hw => by omega⟩
  rcases lt_or_ge v 0 with hneg | hpos
  · obtain ⟨hs, hceil⟩ := roundedWord_of_augments (rm := .down) (decide_eq_true hneg) hfin
    exact isGreatestNotAbove_of_ceil hneg hs hceil
  · obtain ⟨-, hs, hfloor⟩ := roundedWord_of_truncates (rm := .down) (s := decide (v < 0))
      (by simp [truncates, hpos]) v.natAbs
    exact isGreatestNotAbove_of_floor hpos hs hfloor

/-- Settles O55: rounding up is the ceiling of a positive magnitude and the floor of a negative one. -/
theorem roundsUp : Obligations.RoundsUp := by
  intro x y z m sae r f v hx hy hz hftz hv h hfin
  rcases fmsub32_finite_result hx hy hz hftz hv h with ⟨hzero, s, rfl⟩ | ⟨-, rfl⟩
  · rw [scaled_signedZero]
    exact ⟨by omega, fun w _ hw => by omega⟩
  rcases lt_or_ge v 0 with hneg | hpos
  · obtain ⟨-, hs, hfloor⟩ := roundedWord_of_truncates (rm := .up) (decide_eq_true hneg) v.natAbs
    exact isLeastNotBelow_of_floor hneg hs hfloor
  · obtain ⟨hs, hceil⟩ := roundedWord_of_augments (rm := .up) (s := decide (v < 0))
      (by simp [augments, hpos]) hfin
    exact isLeastNotBelow_of_ceil hpos hs hceil

/-- Settles O56: rounding toward zero is the floor of the magnitude, which never overflows. -/
theorem roundsTowardZero : Obligations.RoundsTowardZero := by
  intro x y z m sae r f v hx hy hz hftz hv h
  simp only [Int.abs_eq_natAbs, Int.natAbs_mul, natAbs_scaled, Int.ofNat_le]
  rcases fmsub32_finite_result hx hy hz hftz hv h with ⟨rfl, s, rfl⟩ | ⟨-, rfl⟩
  · rw [magnitude_signedZero]
    exact ⟨isFinite_signedZero s, by norm_num, by norm_num, fun w _ hw => by simpa using hw⟩
  obtain ⟨hfin, hs, hle, hgreatest⟩ := roundedWord_of_truncates (rm := .towardZero)
    (s := decide (v < 0)) rfl v.natAbs
  refine ⟨hfin, hle, ?_, hgreatest⟩
  rcases lt_or_ge v 0 with hneg | hpos
  · rw [scaled_of_neg hneg hs]
    exact mul_nonneg_of_nonpos_of_nonpos (by omega) hneg.le
  · rw [scaled_of_nonneg hpos hs]
    exact mul_nonneg (by omega) hpos

/-- Settles O57: the nearest magnitude with the sign of the exact value. -/
theorem roundsToNearestEven : Obligations.RoundsToNearestEven := by
  intro x y z m sae r f v hx hy hz hftz hv h hfin w _
  simp only [Int.abs_eq_natAbs, Int.ofNat_le, Int.ofNat_inj]
  rcases fmsub32_finite_result hx hy hz hftz hv h with ⟨hzero, s, rfl⟩ | ⟨hne, rfl⟩
  · rw [scaled_signedZero]
    exact ⟨by omega, fun htie hdiff => by omega⟩
  · obtain ⟨hs, hnear⟩ := roundedWord_nearestEven hfin
    exact nearest_of_magnitude hne hs hnear w

end Sys2Proof.Machine

namespace Sys2Proof

/-! ### The encoding fits the fetch, the decoded instruction is 5 to 15 bytes long (R84) -/

/-- The encoder writes as many bytes as the instruction is long. -/
theorem encode_length (i : Instr) : (encode i).length = i.length := by
  cases i with
  | vfmsub132ssVex o => exact Laws.EncodeLength.vfmsub132ssVex o
  | vfmsub213ssVex o => exact Laws.EncodeLength.vfmsub213ssVex o
  | vfmsub231ssVex o => exact Laws.EncodeLength.vfmsub231ssVex o
  | vfmsub132ssEvex o => exact Laws.EncodeLength.vfmsub132ssEvex o
  | vfmsub213ssEvex o => exact Laws.EncodeLength.vfmsub213ssEvex o
  | vfmsub231ssEvex o => exact Laws.EncodeLength.vfmsub231ssEvex o

/-- After its legacy prefixes an instruction has at least C4H or 62H with two more bytes, the opcode and
ModRM. -/
theorem Instr.prefixes_add_five_le_length (i : Instr) : i.prefixes.length + 5 ≤ i.length := by
  rcases Machine.instr_cases i with ⟨form, o, rfl⟩ | ⟨form, o, rfl⟩
  · rw [prefixes_vex, Machine.length_vex, VexOperands.length]
    omega
  · rw [prefixes_evex, Machine.length_evex, EvexOperands.length]
    omega

theorem vexInstr_prefixes {ps : List LegacyPrefix} {b1 b2 modrm : Byte} {form : Form}
    {tail rest : List Byte} {i : Instr} (h : vexInstr ps b1 b2 form modrm tail = .ok (i, rest)) :
    i.prefixes = ps := by
  dsimp only [vexInstr] at h
  split at h
  · cases h
  · cases h
    exact prefixes_vex _ _

theorem evexInstr_prefixes {ps : List LegacyPrefix} {p0 p1 p2 modrm : Byte} {form : Form}
    {tail rest : List Byte} {i : Instr}
    (h : evexInstr ps p0 p1 p2 form modrm tail = .ok (i, rest)) : i.prefixes = ps := by
  dsimp only [evexInstr] at h
  split at h
  · cases h
  split at h
  · cases h
  · cases h
    exact prefixes_evex _ _

/-- The decoded instruction has the legacy prefixes that were scanned before it. -/
theorem decodeCore_prefixes {ps : List LegacyPrefix} {bs rest : List Byte} {i : Instr}
    (h : decodeCore ps bs = .ok (i, rest)) : i.prefixes = ps := by
  unfold decodeCore at h
  split at h
  · cases h
  · split at h
    · obtain ⟨b1, b2, bs', -, -, -, h⟩ := decodeVex_ok h
      obtain ⟨op, form, modrm, tail, -, -, h⟩ := takeOpcode_ok h
      exact vexInstr_prefixes h
    · split at h
      · obtain ⟨p0, p1, p2, bs', -, -, -, h⟩ := decodeEvex_ok h
        obtain ⟨op, form, modrm, tail, -, -, h⟩ := takeOpcode_ok h
        exact evexInstr_prefixes h
      · cases h

/-- Everything that acceptance by the decoder says. -/
theorem decode_ok {policy : PrefixPolicy} {bs rest : List Byte} {i : Instr}
    (h : decode policy bs = .ok (i, rest)) :
    ¬ (policy = .none ∧ beginsWithLegacyPrefix bs = true) ∧
    (scanPrefixes bs).illegal = false ∧
    decodeCore (scanPrefixes bs).admitted (scanPrefixes bs).rest = .ok (i, rest) ∧
    (scanPrefixes bs).count + (i.length - i.prefixes.length) ≤ maxLength := by
  dsimp only [decode] at h
  split at h
  · cases h
  split at h
  · cases h
  split at h
  · cases h
  split at h
  · cases h
  split at h
  · cases h
  cases h
  exact ⟨‹_›, Bool.eq_false_of_not_eq_true ‹_›, ‹_›, Nat.le_of_not_lt ‹_›⟩

/-- No instruction the decoder accepts exceeds 15 bytes. -/
theorem decode_ok_length {policy : PrefixPolicy} {bs rest : List Byte} {i : Instr}
    (h : decode policy bs = .ok (i, rest)) : i.length ≤ maxLength := by
  obtain ⟨-, hlegal, hcore, hlen⟩ := decode_ok h
  have hprefixes : i.prefixes.length = (scanPrefixes bs).count := by
    rw [decodeCore_prefixes hcore, (scanPrefixes_legal hlegal).2]
  omega

end Sys2Proof

namespace Sys2Proof.Machine

/-! ### The step and the program map (R34, R47) -/

/-- Settles O12: it is `step_of_decode`. -/
theorem stepRunsDecodedInstruction : Obligations.StepRunsDecodedInstruction :=
  fun _ _ _ hmode hdecode => step_of_decode hmode hdecode

/-- Where no byte is at the address of the next fetch, the fetch reads none. -/
theorem State.window_of_no_byte {s : State} (h : cellAt s.code s.fetchAddress.toNat = none) :
    s.window = [] := by
  simp [State.window, fetchWindow, fetchBytes, h]

/-- No byte at all is an instruction cut short, under either policy. -/
theorem decode_nil (policy : PrefixPolicy) : decode policy [] = .error .truncated := by
  cases policy <;> rfl

/-- Settles O15: the fetch window is empty. -/
theorem stuckWithoutInstruction : Obligations.StuckWithoutInstruction := by
  intro s hmode hnone
  simp [step, State.fetch, hmode, State.window_of_no_byte hnone, decode_nil, rejected]

/-- Settles O13: the fetch window begins with the encoding, which decodes to the instruction. -/
theorem stepExecutesThePlacedEncoding : Obligations.StepExecutesThePlacedEncoding := by
  intro s i hmode hwf hadmitted hplaced
  have hfits : (encode i).length ≤ fetchWindow := by
    rw [encode_length]
    exact (Instr.wf_length hwf).2.trans (by decide)
  have hwindow := fetchBytes_of_cellAt hfits hplaced
  apply step_of_decode (by simp [hmode])
  rw [State.window, State.fetchAddress, if_pos hmode, hwindow]
  exact decode_encode hwf hadmitted _

/-- Settles O33: a next state is a completion (`exec_next`) of an instruction the decoder accepted, which
is 5 to 15 bytes long. -/
theorem stepAdvancesPcAndStoresNothing : Obligations.StepAdvancesPcAndStoresNothing := by
  intro s t h
  obtain ⟨i, rest, hdecode, hexec⟩ := step_next h
  obtain ⟨r, f, rfl⟩ := exec_next hexec
  have hmin : 5 ≤ i.length := (Nat.le_add_left _ _).trans i.prefixes_add_five_le_length
  exact ⟨⟨i.length, hmin, decode_ok_length hdecode, rfl⟩, rfl, rfl, rfl, rfl, rfl, rfl⟩

/-! ### The frames under the launch premises (R126, R132) -/

theorem vexFrame_of_src3_error (choose : Word32 → Word32 → Word32 → Factors) {o : VexOperands}
    {s : State} {e : ExceptionName} (hready : s.vexReady = true) (h3 : s.vexSrc3 o = .error e) :
    vexFrame choose o s = raise e s := by
  simp only [State.vexReady, Bool.and_eq_true, Bool.not_eq_true'] at hready
  obtain ⟨henabled, hts⟩ := hready
  simp [vexFrame, State.vexEnabled_mode henabled, henabled, hts, h3]

/-- A legal EVEX encoded version gets to the writemask. -/
theorem evexFrame_of_ready (choose : Word32 → Word32 → Word32 → Factors) {o : EvexOperands} {s : State}
    (hready : s.evexReady = true) (hlegal : o.illegal = false) :
    evexFrame choose o s =
      if s.elementOn o.aaa then evexActive choose o s else evexMaskedOff o s := by
  simp only [State.evexReady, Bool.and_eq_true, Bool.not_eq_true'] at hready
  obtain ⟨henabled, hts⟩ := hready
  simp [evexFrame, State.evexEnabled_mode henabled, henabled, hts, hlegal]

theorem evexActive_of_src3_error (choose : Word32 → Word32 → Word32 → Factors) {o : EvexOperands}
    {s : State} {e : ExceptionName} (h3 : s.evexSrc3 o = .error e) :
    evexActive choose o s = raise e s := by
  simp [evexActive, h3]

/-! ### An unreadable operand (R52, R55, R154) -/

theorem State.loadOperand_of_unreadable {s : State} {p : List LegacyPrefix} {n8 : Nat} {nx : Word64}
    {m : MemOperand} (h : s.canRead (s.linearAddress p n8 nx m) 4 = false) :
    s.loadOperand p n8 nx m = .error (.memFault (s.linearAddress p n8 nx m)) := by
  simp [State.loadOperand, State.memRead4, h]

theorem State.vexSrc3_of_mem {s : State} {o : VexOperands} {m : MemOperand} (h : o.src3 = .mem m) :
    s.vexSrc3 o = s.loadOperand o.prefixes vexDisp8Scale (s.pcAfter o.length) m := by
  simp [State.vexSrc3, h]

theorem State.evexSrc3_of_mem {s : State} {o : EvexOperands} {m : MemOperand} (h : o.src3 = .mem m) :
    s.evexSrc3 o = s.loadOperand o.prefixes evexDisp8Scale (s.pcAfter o.length) m := by
  simp [State.evexSrc3, h]

/-- Settles O36: the load of operand 3 is what faults, in both frames. -/
theorem unreadableOperandFaults : Obligations.UnreadableOperandFaults := by
  constructor
  · rintro form o m _ s hready hmem rfl hunreadable
    have h3 := (State.vexSrc3_of_mem hmem).trans (State.loadOperand_of_unreadable hunreadable)
    rw [exec_vex]
    exact vexFrame_of_src3_error _ hready h3
  · rintro form o m _ s hready hlegal hon hmem rfl hunreadable
    have h3 := (State.evexSrc3_of_mem hmem).trans (State.loadOperand_of_unreadable hunreadable)
    rw [exec_evex, evexFrame_of_ready _ hready hlegal, if_pos hon]
    exact evexActive_of_src3_error _ h3

/-- Under `Suppressed` a masked-off element never faults. -/
theorem State.maskedMemFault_of_suppressed {s : State} (h : s.cfg.maskedFaults = .suppressed)
    (o : EvexOperands) : s.maskedMemFault o = none := by
  unfold State.maskedMemFault
  split <;> simp [h]

/-- The only address a masked-off element's fault reports is its operand's linear address. -/
theorem State.maskedMemFault_address {s : State} {o : EvexOperands} {m : MemOperand} {a : Word64}
    (hmem : o.src3 = .mem m) (h : s.maskedMemFault o = some a) :
    a = s.linearAddress o.prefixes evexDisp8Scale (s.pcAfter o.length) m := by
  simp only [State.maskedMemFault, hmem, Option.ite_none_right_eq_some, Option.some.injEq] at h
  exact h.2.symm

/-- Settles O25: the two ends of a masked-off element (`evexMaskedOff_cases`); `Suppressed` excludes the
fault. -/
theorem maskedOffUnreadableOperand : Obligations.MaskedOffUnreadableOperand := by
  rintro form o s m _ hready hlegal hoff hmem rfl -
  have hexec : exec (form.evex o) s = evexMaskedOff o s := by
    rw [exec_evex, evexFrame_of_ready _ hready hlegal, hoff]
    rfl
  rw [hexec]
  rcases evexMaskedOff_cases o s with ⟨a, hfault, heq⟩ | ⟨-, heq⟩
  · refine ⟨fun hp => ?_, fun _ => .inl ?_⟩
    · rw [State.maskedMemFault_of_suppressed hp] at hfault
      cases hfault
    · rw [heq, State.maskedMemFault_address hmem hfault]
      rfl
  · exact ⟨fun _ => heq, fun _ => .inr heq⟩

/-! ### The data memory (R50) -/

/-- The data memory after bytes are placed: at an address within the first `bs.length` from `a` on the
byte placed there, elsewhere what was there before. -/
theorem Memory.read_placeData {m : List Host.Cell} (h : Memory.wf m = true) (a : Word64)
    {bs : List Byte} (hbs : bs.length ≤ 2 ^ 64) (c : Word64) :
    Memory.read (placeData m a bs) c.toNat = (bs[(c - a).toNat]?).getD (Memory.read m c.toNat) := by
  induction bs generalizing m a with
  | nil => simp [placeData]
  | cons b bs ih =>
    rw [List.length_cons] at hbs
    rw [placeData, ih (Memory.write_wf h _ _) _ (by omega), Memory.read_write h]
    by_cases hc : c = a
    · subst hc
      have hwrap : (c - (c + 1#64)).toNat = 2 ^ 64 - 1 := by bv_omega
      rw [hwrap, List.getElem?_eq_none (by omega)]
      simp
    · have hne : ¬ a.toNat = c.toNat := fun e => hc (BitVec.eq_of_toNat_eq e.symm)
      have hsucc : (c - a).toNat = (c - (a + 1#64)).toNat + 1 := by bv_omega
      rw [if_neg hne, hsucc, List.getElem?_cons_succ]

/-- A byte placed at offset `k` is the byte read at `a + k`, addresses being modulo 2^64. -/
theorem State.memByte_placeData {s : State} (h : Memory.wf s.mem = true) (a : Word64) {bs : List Byte}
    (hbs : bs.length ≤ 2 ^ 64) {k : Nat} (hk : k < bs.length) :
    ({ s with mem := placeData s.mem a bs } : State).memByte (a + BitVec.ofNat 64 k) = bs[k] := by
  have hoffset : (a + BitVec.ofNat 64 k - a).toNat = k := by bv_omega
  rw [State.memByte, Memory.read_placeData h a hbs, hoffset, List.getElem?_eq_getElem hk,
    Option.getD_some]

/-- Settles O43: the doubleword is the four bytes placed at offsets 3, 2, 1 and 0. -/
theorem littleEndianDoubleword : Obligations.LittleEndianDoubleword := by
  intro s a b0 b1 b2 b3 hwf
  have hbyte (k : Nat) (hk : k < 4) := State.memByte_placeData hwf a
    (bs := [b0, b1, b2, b3]) (by simp) hk
  have h0 := hbyte 0 (by decide)
  rw [BitVec.add_zero] at h0
  rw [State.dwordAt, hbyte 3 (by decide), hbyte 2 (by decide), hbyte 1 (by decide), h0]
  rfl

/-! ### The effective address (R56, R57, R58) -/

/-- A word that represents an integer has its residue modulo 2^64 as number. -/
theorem toNat_of_eq_ofInt {x : Word64} {v : Int} (h : x = BitVec.ofInt 64 v) :
    (x.toNat : Int) = v % 2 ^ 64 := by
  rw [h, BitVec.toNat_ofInt]
  omega

/-- Every word represents its number. -/
theorem word_eq_ofInt (x : Word64) : x = BitVec.ofInt 64 x.toNat := by
  simp

theorem signExtend_eq_ofInt {n : Nat} (d : BitVec n) : d.signExtend 64 = BitVec.ofInt 64 d.toInt := rfl

theorem dispValue_d8 (n8 : Nat) (d : Byte) :
    dispValue n8 (.d8 d) = BitVec.ofInt 64 (d.toInt * n8) := by
  rw [BitVec.ofInt_mul, BitVec.ofInt_natCast, ← signExtend_eq_ofInt, dispValue]

/-- Index 4 means no index. -/
@[simp] theorem State.indexTerm_four (s : State) (scale : BitVec 2) : s.indexTerm scale 4#4 = 0#64 := by
  simp [State.indexTerm]

theorem State.indexTerm_eq_ofInt (s : State) (scale : BitVec 2) {index : BitVec 4}
    (h : index ≠ 4#4) :
    s.indexTerm scale index = BitVec.ofInt 64 ((s.gprAt index).toNat * 2 ^ scale.toNat) := by
  have hpow : ((2 : Int) ^ scale.toNat) = ((2 ^ scale.toNat : Nat) : Int) := by push_cast; rfl
  rw [State.indexTerm, if_neg h, BitVec.ofInt_mul, ← word_eq_ofInt, hpow, BitVec.ofInt_natCast]

/-- Without 67H the effective address is the whole sum. -/
theorem State.effectiveAddress_of_not_addressSize (s : State) {p : List LegacyPrefix}
    (h : LegacyPrefix.addressSize ∉ p) (n8 : Nat) (nx : Word64) (m : MemOperand) :
    s.effectiveAddress p n8 nx m = s.addressSum n8 nx m := by
  simp [State.effectiveAddress, h]

/-- Settles O44: every term of the sum represents the integer R56 names, and so does the sum. -/
theorem effectiveAddressForms : Obligations.EffectiveAddressForms := by
  intro s p n8 nx h
  simp only [s.effectiveAddress_of_not_addressSize h, State.addressSum]
  refine ⟨fun x b d => ?_, fun x r d => ?_, fun x r d => ?_, fun x r => BitVec.add_zero _,
    fun sc i b d hi => ?_, fun sc i b d hi => ?_, fun sc i b hi => ?_, fun sc b d => by simp,
    fun sc i b d hi => ?_, fun sc b d => by simp⟩ <;> apply toNat_of_eq_ofInt
  · rw [BitVec.ofInt_add, ← word_eq_ofInt, signExtend_eq_ofInt]
  · rw [BitVec.ofInt_add, ← word_eq_ofInt, dispValue_d8]
  · rw [BitVec.ofInt_add, ← word_eq_ofInt, dispValue, signExtend_eq_ofInt]
  · rw [BitVec.ofInt_add, BitVec.ofInt_add, ← word_eq_ofInt, s.indexTerm_eq_ofInt sc hi, dispValue_d8]
  · rw [BitVec.ofInt_add, BitVec.ofInt_add, ← word_eq_ofInt, s.indexTerm_eq_ofInt sc hi, dispValue,
      signExtend_eq_ofInt]
  · rw [BitVec.ofInt_add, ← word_eq_ofInt, s.indexTerm_eq_ofInt sc hi, dispValue, BitVec.add_zero]
  · rw [BitVec.ofInt_add, s.indexTerm_eq_ofInt sc hi, signExtend_eq_ofInt]

/-! ### Segment and address size (R38, R59) -/

/-- With 67H the effective address is the low 32 bits of the sum. -/
theorem State.effectiveAddress_of_addressSize (s : State) {p : List LegacyPrefix}
    (h : LegacyPrefix.addressSize ∈ p) (n8 : Nat) (nx : Word64) (m : MemOperand) :
    s.effectiveAddress p n8 nx m = ((s.addressSum n8 nx m).setWidth 32).setWidth 64 := by
  simp [State.effectiveAddress, h]

/-- With both overrides the segment base is that of one of the two. -/
theorem State.segmentBase_of_both (s : State) {p : List LegacyPrefix} (hfs : LegacyPrefix.fs ∈ p)
    (hgs : LegacyPrefix.gs ∈ p) : s.segmentBase p = s.fsBase ∨ s.segmentBase p = s.gsBase := by
  cases hfree : Config.freeSegmentIsGs s.draws <;> simp [State.segmentBase, hfs, hgs, hfree]

/-- Settles O45: the low 32 bits of the sum under 67H, and the segment base of each combination. -/
theorem segmentAndAddressSize : Obligations.SegmentAndAddressSize := by
  intro s p n8 nx m
  refine ⟨fun h => ?_, fun hfs hgs => ?_, fun hfs hgs => ?_, fun hfs hgs => ?_, fun hfs hgs => ?_⟩
  · rw [s.effectiveAddress_of_addressSize h,
      s.effectiveAddress_of_not_addressSize List.not_mem_nil,
      BitVec.toNat_setWidth_of_le (by decide), BitVec.toNat_setWidth]
  · simp [State.linearAddress, State.segmentBase, hfs, hgs]
  · simp [State.linearAddress, State.segmentBase, hfs, hgs]
  · simp [State.linearAddress, State.segmentBase, hfs, hgs]
  · exact (s.segmentBase_of_both hfs hgs).imp (congrArg _) (congrArg _)

end Sys2Proof.Machine

namespace Sys2Proof

/-! ### Encoding what the decoder accepted (R68 to R78) -/

theorem takeWord32_ok {bs rest : List Byte} {w : Word32} (h : takeWord32 bs = some (w, rest)) :
    bs = word32Bytes w ++ rest := by
  unfold takeWord32 at h
  split at h
  · cases h
    rw [word32Bytes_append]
    rfl
  · cases h

/-- A displacement taken under a memory form's `mod` is announced by it, and its bytes were taken. -/
theorem takeDisp_ok {mod : BitVec 2} {bs rest : List Byte} {d : Disp} (hmod : mod ≠ 3#2)
    (h : takeDisp mod bs = some (d, rest)) : d.mod = mod ∧ bs = d.bytes ++ rest := by
  unfold takeDisp at h
  split at h
  · cases h
    exact ⟨‹mod = 0#2›.symm, rfl⟩
  · split at h
    · split at h
      · cases h
        exact ⟨‹mod = 1#2›.symm, rfl⟩
      · cases h
    · obtain ⟨⟨w, rest'⟩, hw, hd⟩ := Option.map_eq_some_iff.1 h
      cases hd
      have htwo : mod = 2#2 := by bv_omega
      exact ⟨htwo.symm, takeWord32_ok hw⟩

/-- Without mod = 00b and base = 101b together, the base register is one the form can have (R56, R78). -/
theorem baseHasDisp_of_mod {b : Bit} {base : BitVec 3} {d : Disp}
    (h : ¬ (d.mod = 0#2 ∧ base = 5#3)) : baseHasDisp (b ++ base) d = true := by
  simp only [baseHasDisp, low3_append, Bool.or_eq_true, bne_iff_ne, ← not_and_or]
  exact fun ⟨hbase, hnone⟩ => h ⟨Disp.mod_eq_zero.2 hnone, hbase⟩

/-- A parsed memory operand is well formed, and its fields are those it was parsed from. -/
theorem parseMem_ok {x b : Bit} {mod : BitVec 2} {rm : BitVec 3} {bs rest : List Byte}
    {m : MemOperand} (hmod : mod ≠ 3#2) (h : parseMem x b mod rm bs = some (m, rest)) :
    m.wf = true ∧ ∃ tail, m.fields = ⟨x, b, mod, rm, tail⟩ ∧ bs = tail ++ rest := by
  unfold parseMem at h
  split at h
  next hrm =>
    subst hrm
    split at h
    · cases h
    next sib bs' =>
    dsimp only at h
    split at h <;> obtain ⟨⟨d, rest'⟩, hd, heq⟩ := Option.map_eq_some_iff.1 h <;> cases heq
    next hform =>
      obtain ⟨rfl, hbase⟩ := hform
      refine ⟨rfl, _, by simp only [MemOperand.fields, high1_append]; rfl, ?_⟩
      rw [low3_append, ← hbase, modrmByte_of_fields, takeWord32_ok hd, List.cons_append]
    next hform =>
      obtain ⟨rfl, hbytes⟩ := takeDisp_ok hmod hd
      refine ⟨baseHasDisp_of_mod hform, _, by simp only [MemOperand.fields, high1_append]; rfl, ?_⟩
      rw [low3_append, low3_append, modrmByte_of_fields, hbytes, List.cons_append]
  next hrm =>
    split at h <;> obtain ⟨⟨d, rest'⟩, hd, heq⟩ := Option.map_eq_some_iff.1 h <;> cases heq
    next hform =>
      obtain ⟨rfl, rfl⟩ := hform
      exact ⟨rfl, _, rfl, takeWord32_ok hd⟩
    next hform =>
      obtain ⟨rfl, hbytes⟩ := takeDisp_ok hmod hd
      refine ⟨?_, _, by simp only [MemOperand.fields, high1_append, low3_append], hbytes⟩
      simp [MemOperand.wf, hrm, baseHasDisp_of_mod hform]

/-- A parsed operand 3 of a VEX encoded version, likewise. -/
theorem parseVexSrc3_ok {x b : Bit} {modrm : Byte} {bs rest : List Byte} {src : VexSrc3}
    (h : parseVexSrc3 x b modrm bs = some (src, rest)) :
    src.wf = true ∧ ∃ tail, bs = tail ++ rest ∧
      src.fields = ⟨x, b, modrm.extractLsb' 6 2, modrm.extractLsb' 0 3, tail⟩ := by
  unfold parseVexSrc3 at h
  split at h
  next hreg =>
    cases h
    exact ⟨rfl, [], rfl, by simp [VexSrc3.fields, hreg]⟩
  next hmem =>
    obtain ⟨⟨m, rest'⟩, hm, heq⟩ := Option.map_eq_some_iff.1 h
    cases heq
    obtain ⟨hwf, tail, hfields, hbytes⟩ := parseMem_ok hmem hm
    exact ⟨hwf, tail, hbytes, hfields⟩

/-- A parsed operand 3 of an EVEX encoded version, likewise. -/
theorem parseEvexSrc3_ok {x b : Bit} {modrm : Byte} {bs rest : List Byte} {src : EvexSrc3}
    (h : parseEvexSrc3 x b modrm bs = some (src, rest)) :
    src.wf = true ∧ ∃ tail, bs = tail ++ rest ∧
      src.fields = ⟨x, b, modrm.extractLsb' 6 2, modrm.extractLsb' 0 3, tail⟩ := by
  unfold parseEvexSrc3 at h
  split at h
  next hreg =>
    cases h
    exact ⟨rfl, [], rfl, by simp [EvexSrc3.fields, hreg, reg5_of_parts]⟩
  next hmem =>
    obtain ⟨⟨m, rest'⟩, hm, heq⟩ := Option.map_eq_some_iff.1 h
    cases heq
    obtain ⟨hwf, tail, hfields, hbytes⟩ := parseMem_ok hmem hm
    exact ⟨hwf, tail, hbytes, hfields⟩

/-- An accepted VEX encoded version is well formed, but for its length, and is what the encoder writes. -/
theorem vexInstr_ok {ps : List LegacyPrefix} {b1 b2 modrm : Byte} {form : Form}
    {tail rest : List Byte} {i : Instr} (h1 : vexByte1Ok b1 = true) (h2 : vexByte2Ok b2 = true)
    (h : vexInstr ps b1 b2 form modrm tail = .ok (i, rest)) :
    (i.length ≤ maxLength → i.wf = true) ∧
      0xC4#8 :: b1 :: b2 :: form.opcode :: modrm :: tail = encodeCore i ++ rest := by
  dsimp only [vexInstr] at h
  split at h
  · cases h
  next hsrc =>
    cases h
    obtain ⟨hwf, tail, rfl, hfields⟩ := parseVexSrc3_ok hsrc
    simp only [vexByte1Ok, vexByte2Ok, Bool.and_eq_true, beq_iff_eq] at h1 h2
    refine ⟨fun hlen => ?_, ?_⟩
    · simpa [VexOperands.wf, hwf] using hlen
    · simp only [encodeCore_vex, hfields, high1_append, low3_append, vexByte1_of_fields b1 h1,
        vexByte2_of_fields b2 h2.1 h2.2, modrmByte_of_fields, List.cons_append]

theorem ofBool_toBool (b : Bit) : Bit.ofBool (Bit.toBool b) = b := by
  revert b; decide

/-- No illegal form named: the fixed bits and the fields are legal (R89 to R92). -/
theorem EvexOperands.legal_of_illegalForm {o : EvexOperands} {fixedOk : Bool}
    (h : o.illegalForm fixedOk = none) : fixedOk = true ∧ o.illegal = false := by
  unfold EvexOperands.illegalForm at h
  split at h
  · cases h
  split at h
  · cases h
  split at h
  · cases h
  split at h
  · cases h
  rename_i hfixed hmask hbroadcast hlength
  exact ⟨Bool.eq_true_of_not_eq_false hfixed, by
    simp [EvexOperands.illegal, hmask, hbroadcast, hlength]⟩

/-- An accepted EVEX encoded version is well formed, but for its length, and is what the encoder writes. -/
theorem evexInstr_ok {ps : List LegacyPrefix} {p0 p1 p2 modrm : Byte} {form : Form}
    {tail rest : List Byte} {i : Instr} (h0 : evexP0Ok p0 = true) (h1 : evexP1Ok p1 = true)
    (h : evexInstr ps p0 p1 p2 form modrm tail = .ok (i, rest)) :
    (i.length ≤ maxLength → i.wf = true) ∧
      0x62#8 :: p0 :: p1 :: p2 :: form.opcode :: modrm :: tail = encodeCore i ++ rest := by
  dsimp only [evexInstr] at h
  split at h
  · cases h
  next hsrc =>
    split at h
    · cases h
    next hlegal =>
      cases h
      obtain ⟨hwf, tail, rfl, hfields⟩ := parseEvexSrc3_ok hsrc
      obtain ⟨hfixed, hlegal⟩ := EvexOperands.legal_of_illegalForm hlegal
      simp only [evexP0Ok, evexP1Ok, Bool.and_eq_true, beq_iff_eq] at h0 h1 hfixed
      refine ⟨fun hlen => ?_, ?_⟩
      · simpa [EvexOperands.wf, hwf, hlegal] using hlen
      · simp only [encodeCore_evex, hfields, reg5_of_parts, vreg5_of_parts, ofBool_toBool,
          evexP0_of_fields p0 h0.1 hfixed.1, evexP1_of_fields p1 h1.1 h1.2 hfixed.2,
          evexP2_of_fields, modrmByte_of_fields, List.cons_append]

/-- What is accepted after the legacy prefixes is well formed, but for its length, and is what the encoder
writes there. -/
theorem decodeCore_ok {ps : List LegacyPrefix} {bs rest : List Byte} {i : Instr}
    (h : decodeCore ps bs = .ok (i, rest)) :
    (i.length ≤ maxLength → i.wf = true) ∧ bs = encodeCore i ++ rest := by
  unfold decodeCore at h
  split at h
  · cases h
  split at h
  next hvex =>
    obtain ⟨b1, b2, bs', rfl, h1, h2, h⟩ := decodeVex_ok h
    obtain ⟨op, form, modrm, tail, rfl, hop, h⟩ := takeOpcode_ok h
    rw [hvex, ← Form.opcode_of_ofOpcode hop]
    exact vexInstr_ok h1 h2 h
  · split at h
    next hevex =>
      obtain ⟨p0, p1, p2, bs', rfl, h0, h1, h⟩ := decodeEvex_ok h
      obtain ⟨op, form, modrm, tail, rfl, hop, h⟩ := takeOpcode_ok h
      rw [hevex, ← Form.opcode_of_ofOpcode hop]
      exact evexInstr_ok h0 h1 h
    · cases h

/-- Settles O2: it is `decode_encode` under the policy that admits the prefixes. -/
theorem decodeOfEncode : Obligations.DecodeOfEncode :=
  fun _ rest hwf => decode_encode (policy := .segmentAndAddressSize) hwf nofun rest

/-- Settles O3: the scan keeps the prefixes, and after them `decodeCore_ok` gives the encoding back. -/
theorem encodeOfDecode : Obligations.EncodeOfDecode := by
  intro policy bs rest i h
  obtain ⟨-, hlegal, hcore, -⟩ := decode_ok h
  obtain ⟨hwf, hbytes⟩ := decodeCore_ok hcore
  refine ⟨hwf (decode_ok_length h), ?_⟩
  calc bs = (scanPrefixes bs).admitted.map LegacyPrefix.byte ++ (scanPrefixes bs).rest :=
        (scanPrefixes_legal hlegal).1
    _ = i.prefixes.map LegacyPrefix.byte ++ (encodeCore i ++ rest) := by
        rw [decodeCore_prefixes hcore, hbytes]
    _ = encode i ++ rest := by rw [encode_eq_prefixes_append, List.append_assoc]

end Sys2Proof

namespace Sys2Proof

/-! ### Where the decoder rejects (R69, R87 to R92) -/

/-- An encoding whose legacy prefixes the policy admits is not refused for one (R69). -/
theorem encode_admitted {policy : PrefixPolicy} {i : Instr} (hp : policy = .none → i.prefixes = [])
    (rest : List Byte) :
    ¬ (policy = .none ∧ beginsWithLegacyPrefix (encode i ++ rest) = true) := by
  rintro ⟨hnone, hb⟩
  rw [encode_eq_prefixes_append, hp hnone, List.map_nil, List.nil_append,
    beginsWithLegacyPrefix_encodeCore] at hb
  cases hb

/-- An encoding with legacy prefixes begins with one of them. -/
theorem beginsWithLegacyPrefix_encode {i : Instr} (h : i.prefixes ≠ []) (rest : List Byte) :
    beginsWithLegacyPrefix (encode i ++ rest) = true := by
  obtain ⟨p, ps, hps⟩ := List.exists_cons_of_ne_nil h
  simp [encode_eq_prefixes_append, hps, beginsWithLegacyPrefix]

/-- Settles O4: without prefixes it is `decode_encode`, with one the first check refuses. -/
theorem policyNoneRefusesLegacyPrefixes : Obligations.PolicyNoneRefusesLegacyPrefixes := by
  intro i rest hwf
  split
  next hnil => exact decode_encode hwf (fun _ => hnil) rest
  next hcons => simp [decode, beginsWithLegacyPrefix_encode hcons]

/-- A rejection of what follows the prefixes is the decoder's, where the prefixes are admitted and leave
room for an instruction. -/
theorem decode_of_decodeCore_error {policy : PrefixPolicy} {bs : List Byte} {r : Reject}
    (hadmitted : ¬ (policy = .none ∧ beginsWithLegacyPrefix bs = true))
    (hcount : (scanPrefixes bs).count < maxLength)
    (hcore : decodeCore (scanPrefixes bs).admitted (scanPrefixes bs).rest = .error r) :
    decode policy bs = .error r := by
  simp only [decode, if_neg hadmitted, if_neg hcount.not_ge, hcore]

/-- Before C4H or 62H there are no prefixes: a rejection of what begins there is the decoder's. -/
theorem decode_of_decodeCore_error_of_stop {policy : PrefixPolicy} {b : Byte} {bs : List Byte}
    {r : Reject} (hb : b = 0xC4#8 ∨ b = 0x62#8) (hcore : decodeCore [] (b :: bs) = .error r) :
    decode policy (b :: bs) = .error r := by
  have hlegacy : LegacyPrefix.ofByte b = none := by rcases hb with rfl | rfl <;> rfl
  have hillegal : isIllegalPrefix b = false := by rcases hb with rfl | rfl <;> rfl
  have hscan := scanPrefixes_stop hlegacy hillegal bs
  apply decode_of_decodeCore_error
  · simp [beginsWithLegacyPrefix, hlegacy]
  · rw [hscan]
    exact Nat.succ_pos 14
  · rw [hscan]
    exact hcore

/-! ### Illegal EVEX fields (R89 to R92) -/

/-- The three combinations of R90, R91 and R92 are the illegal ones. -/
theorem EvexOperands.illegal_of_fields {o : EvexOperands}
    (h : (o.z = true ∧ o.aaa = 0#3) ∨ (o.b = true ∧ o.src3.isReg = false) ∨
      (o.ll = 3#2 ∧ ¬ (o.b = true ∧ o.src3.isReg = true))) : o.illegal = true := by
  simp only [EvexOperands.illegal, Bool.or_eq_true, EvexOperands.illegalMasking,
    EvexOperands.illegalBroadcast, EvexOperands.illegalLength, Bool.and_eq_true, beq_iff_eq,
    Bool.not_eq_true', Bool.and_eq_false_imp]
  rcases h with hmask | hbroadcast | ⟨hlen, hrc⟩
  · exact .inl (.inl hmask)
  · exact .inl (.inr hbroadcast)
  · exact .inr ⟨hlen, by simpa using hrc⟩

/-- Illegal EVEX fields are named by a reason. -/
theorem EvexOperands.illegalForm_of_illegal {o : EvexOperands} (h : o.illegal = true) :
    ∃ why, o.illegalForm true = some why := by
  cases hform : o.illegalForm true with
  | some why => exact ⟨why, rfl⟩
  | none =>
    rw [(EvexOperands.legal_of_illegalForm hform).2] at h
    cases h

/-- The EVEX encoding after the prefixes is an undefined opcode, where its fields are illegal. -/
theorem decodeCore_evex_illegal (form : Form) {o : EvexOperands} {why : IllegalForm}
    (h : o.src3.wf = true) (hillegal : o.illegalForm true = some why) (rest : List Byte) :
    decodeCore o.prefixes (encodeCore (form.evex o) ++ rest) = .error (.undefinedOpcode why) := by
  simp [encodeCore_evex, decodeCore, decodeEvex, evexInstr, evexP0_fields, evexP1_fields,
    evexP2_fields, modrmByte_fields, parseEvexSrc3_fields h, reg5_parts, vreg5_parts, hillegal]

theorem encode_evex (form : Form) (o : EvexOperands) : encode (form.evex o) = encodeEvex form o := by
  cases form <;> rfl

/-- Settles O5: the decoder names the illegal combination, and the frame checks it before all else. -/
theorem illegalEvexFieldsAreUndefined : Obligations.IllegalEvexFieldsAreUndefined := by
  intro form o hfields
  have hillegal := EvexOperands.illegal_of_fields hfields
  obtain ⟨why, hwhy⟩ := EvexOperands.illegalForm_of_illegal hillegal
  refine ⟨fun policy rest hp hwf hlen => ⟨why, ?_⟩, fun s hmode => ?_⟩
  · have hadmitted := encode_admitted (i := form.evex o) (by simpa using hp) rest
    have hscan := scanPrefixes_encode (form.evex o) rest
    rw [encode_evex] at hadmitted hscan
    apply decode_of_decodeCore_error hadmitted
    · rw [EvexOperands.length] at hlen
      simp only [hscan, prefixes_evex, maxLength]
      omega
    · simp only [hscan, prefixes_evex, decodeCore_evex_illegal form hwf hwhy rest]
  · simp [Machine.exec_evex, Machine.evexFrame, hmode, hillegal, Machine.raise]

/-- In the register form the fixed bits of R89 are what an EVEX encoding with legal selecting fields is
rejected for. -/
theorem evexInstr_fixedBits {p0 p1 : Byte} (hfixed : p0.extractLsb' 2 2 ≠ 0#2 ∨ p1.extractLsb' 2 1 = 0#1)
    {modrm : Byte} (hreg : modrm.extractLsb' 6 2 = 3#2) (ps : List LegacyPrefix) (p2 : Byte)
    (form : Form) (tail : List Byte) :
    evexInstr ps p0 p1 p2 form modrm tail = .error (.undefinedOpcode .fixedBits) := by
  have hbits : (p0.extractLsb' 2 2 == 0#2 && p1.extractLsb' 2 1 == 1#1) = false := by
    rcases hfixed with hmap | hone
    · simp [hmap]
    · simp [hone]
  simp [evexInstr, parseEvexSrc3, hreg, hbits, EvexOperands.illegalForm]

/-- Settles O6: P0 with 01b in its bits 3:2 is no byte of R75; the other fixed bits are checked last. -/
theorem evexFixedBitsAreChecked : Obligations.EvexFixedBitsAreChecked := by
  intro policy p0 p1 p2 modrm form rest hmap hw hpp hreg
  refine ⟨fun hone => ?_, fun hne hfixed => ?_⟩ <;>
    apply decode_of_decodeCore_error_of_stop (.inr rfl)
  · simp [decodeCore, decodeEvex, evexP0Ok, hone]
  · simp [decodeCore, decodeEvex, evexP0Ok, evexP1Ok, hmap, hne, hw, hpp,
      evexInstr_fixedBits hfixed hreg]

/-- Settles O8: the byte that holds `W` is checked as soon as it is read. -/
theorem wOneIsNotInScope : Obligations.WOneIsNotInScope := by
  intro policy b1 b2 rest hw
  constructor
  · apply decode_of_decodeCore_error_of_stop (.inl rfl)
    simp [decodeCore, decodeVex, vexByte2Ok, hw]
  · apply decode_of_decodeCore_error_of_stop (.inr rfl)
    simp [decodeCore, decodeEvex, evexP1Ok, hw]

/-! ### Illegal prefixes (R88) -/

theorem isIllegalPrefix_byte (p : LegacyPrefix) : isIllegalPrefix p.byte = false := by
  cases p <;> rfl

/-- The illegal prefixes are none of the admitted ones. -/
theorem LegacyPrefix.ofByte_of_isIllegalPrefix {b : Byte} (h : isIllegalPrefix b = true) :
    LegacyPrefix.ofByte b = none := by
  cases hb : LegacyPrefix.ofByte b with
  | none => rfl
  | some p =>
    rw [← LegacyPrefix.byte_of_ofByte hb, isIllegalPrefix_byte] at h
    cases h

/-- Settles O7: the scan notes the illegal byte, and the rest decodes within 15 bytes. -/
theorem illegalPrecedingPrefixIsUndefined : Obligations.IllegalPrecedingPrefixIsUndefined := by
  intro policy b i rest hb hwf hlen
  have hillegal : isIllegalPrefix b = true := by simpa [isIllegalPrefix, or_assoc] using hb
  have hlegacy := LegacyPrefix.ofByte_of_isIllegalPrefix hillegal
  have hscan : scanPrefixes (b :: (encode i ++ rest)) =
      ⟨i.prefixes.length + 1, i.prefixes, true, encodeCore i ++ rest⟩ := by
    simp [scanPrefixes, hlegacy, hillegal, scanPrefixes_encode]
  have hprefixes := i.prefixes_add_five_le_length
  have hcount : ¬ maxLength ≤ i.prefixes.length + 1 := by
    rw [maxLength]
    omega
  have hroom : ¬ maxLength < i.prefixes.length + 1 + (i.length - i.prefixes.length) := by
    rw [maxLength]
    omega
  simp [decode, beginsWithLegacyPrefix, hlegacy, hscan, hcount, decodeCore_encodeCore hwf, hroom]

/-! ### Lengths (R84) -/

/-- SIB and displacement are at most 5 bytes. -/
theorem MemOperand.tailLength_le (m : MemOperand) : m.tailLength ≤ 5 := by
  have hdisp (d : Disp) : d.length ≤ 4 := by cases d <;> simp [Disp.length]
  cases m with
  | ripRel x b d => simp [MemOperand.tailLength]
  | base x reg d => exact (hdisp d).trans (by decide)
  | sib scale index breg d => exact Nat.add_le_add_left (hdisp d) 1
  | sibNoBase scale index b d => exact le_rfl

/-- Settles O10: the encoder writes as many bytes as the instruction is long, and what the decoder
accepts is such an encoding. -/
theorem encodedLengths : Obligations.EncodedLengths := by
  refine ⟨fun form o => ?_, fun form o => ?_, fun policy bs rest i h => ?_⟩
  · rw [encode_length, Machine.length_vex, VexOperands.length]
    refine ⟨fun x n hreg => by rw [hreg]; rfl, fun m hmem => ?_⟩
    have hle := m.tailLength_le
    rw [hmem, VexSrc3.tailLength]
    omega
  · rw [encode_length, Machine.length_evex, EvexOperands.length]
    refine ⟨fun n hreg => by rw [hreg]; rfl, fun m hmem => ?_⟩
    have hle := m.tailLength_le
    rw [hmem, EvexSrc3.tailLength]
    omega
  · obtain ⟨-, rfl⟩ := encodeOfDecode policy bs rest i h
    exact ⟨decode_ok_length h, by rw [List.length_append, encode_length]⟩

/-- Settles O1: the decoder runs on each of the six words. -/
theorem decodesWordsOfTheSpec : Obligations.DecodesWordsOfTheSpec := by
  unfold Obligations.DecodesWordsOfTheSpec
  refine ⟨?_, ?_, ?_, ?_, ?_, ?_⟩ <;> decide

end Sys2Proof

namespace Sys2Proof.Machine

/-! ### Ignored length bits, illegal forms at execution (R81, R87) -/

/-- Any two legal lengths leave the legality of the fields as it is. -/
theorem illegal_of_ll {o : EvexOperands} (hold : o.ll ≠ 3#2) {ll : BitVec 2} (hnew : ll ≠ 3#2) :
    { o with ll := ll }.illegal = o.illegal := by
  simp [EvexOperands.illegal, EvexOperands.illegalMasking, EvexOperands.illegalBroadcast,
    EvexOperands.illegalLength, beq_eq_false_iff_ne.2 hold, beq_eq_false_iff_ne.2 hnew]

/-- Settles O9: the VEX frame never reads `VEX.L`, the EVEX frame reads `L'L` for the legality of the fields
and for the embedded rounding control only. -/
theorem vectorLengthIsIgnored : Obligations.VectorLengthIsIgnored := by
  refine ⟨fun form o l s => ?_, fun form o ll s hrc hold hnew => ?_⟩
  · rw [exec_vex, exec_vex]
    rfl
  · have hround : s.evexRound { o with ll := ll } = s.evexRound o := by
      simp [State.evexRound, embeddedRounding, hrc]
    have hactive : evexActive (factorsOf form) { o with ll := ll } s =
        evexActive (factorsOf form) o s := by
      simp only [evexActive, evexArith, hround]
      rfl
    rw [exec_evex, exec_evex, evexFrame, illegal_of_ll hold hnew, hactive]
    rfl

/-- Settles O16: an undefined opcode is the decoder's only rejection that raises `#UD`. -/
theorem stepRaisesUdOnIllegalForm : Obligations.StepRaisesUdOnIllegalForm := by
  intro s why hmode hdecode
  simp [step, State.fetch, hmode, State.window, hdecode, rejected, raise]

end Sys2Proof.Machine

namespace Sys2Proof.Machine

/-! ### What the assembler writes (R56, R58, R95 to R97) -/

/-- The displacement field stands for the displacement of the text, in either version. -/
theorem dispValue_asmDisp {n8 : Nat} (hn8 : n8 ≤ 4) (breg : BitVec 4) (disp : Word32) :
    dispValue n8 (asmDisp n8 breg disp) = disp.signExtend 64 := by
  simp only [asmDisp]
  split
  next hzero => simp [hzero.1, dispValue]
  split
  next hd8 =>
    generalize BitVec.ofInt 8 (disp.toInt / n8) = d8 at hd8 ⊢
    have hdisp : disp.toInt = d8.toInt * n8 := by
      rw [← hd8, BitVec.signExtend, ← BitVec.ofInt_natCast, ← BitVec.ofInt_mul, BitVec.toInt_ofInt]
      have hmin : -128 ≤ d8.toInt := BitVec.le_toInt d8
      have hmax : d8.toInt < 128 := BitVec.toInt_lt
      have hsmall : -512 ≤ d8.toInt * n8 ∧ d8.toInt * n8 ≤ 508 := by
        constructor <;> nlinarith
      rw [Int.bmod_eq_of_le] <;> omega
    rw [dispValue_d8, signExtend_eq_ofInt, hdisp]
  · rfl

/-- The displacement field picked for a base register is one the form can have. -/
theorem baseHasDisp_asmDisp (n8 : Nat) (breg : BitVec 4) (disp : Word32) :
    baseHasDisp breg (asmDisp n8 breg disp) = true := by
  simp only [baseHasDisp, asmDisp]
  split
  next hnone => simp [hnone.2]
  · split <;> simp

/-- The addressing form a tool picks is well formed. -/
theorem asmMem_wf (n8 : Nat) (m : AsmMem) : (asmMem n8 m).wf = true := by
  match m with
  | .rip _ => rfl
  | .sum none _ _ => rfl
  | .sum (some b) (some (i, scale)) disp => exact baseHasDisp_asmDisp n8 b disp
  | .sum (some b) none disp =>
    rw [asmMem]
    split
    · exact baseHasDisp_asmDisp n8 b disp
    next hsib => simp [MemOperand.wf, hsib, baseHasDisp_asmDisp]

theorem State.indexTerm_of_ne (s : State) (scale : BitVec 2) {index : BitVec 4} (h : index ≠ 4#4) :
    s.indexTerm scale index = s.gprAt index * BitVec.ofNat 64 (2 ^ scale.toNat) := if_neg h

/-- The operand a tool writes has the address the text names, where the index register is not RSP. -/
theorem effectiveAddress_asmMem {n8 : Nat} (hn8 : n8 ≤ 4) {m : AsmMem}
    (hindex : ∀ b i d, m = .sum b (some i) d → i.1 ≠ 4#4) (s : State) (nextPc : Word64) :
    s.effectiveAddress [] n8 nextPc (asmMem n8 m) = s.textAddress nextPc m := by
  rw [s.effectiveAddress_of_not_addressSize List.not_mem_nil]
  match m with
  | .rip disp => rfl
  | .sum none none disp => simp [asmMem, asmIndex, State.addressSum, State.textAddress]
  | .sum none (some (i, scale)) disp =>
    have hi : i ≠ 4#4 := hindex _ _ _ rfl
    simp [asmMem, asmIndex, State.addressSum, State.textAddress, s.indexTerm_of_ne scale hi]
  | .sum (some b) none disp =>
    rw [asmMem]
    split <;> simp [State.addressSum, State.textAddress, dispValue_asmDisp hn8]
  | .sum (some b) (some (i, scale)) disp =>
    have hi : i ≠ 4#4 := hindex _ _ _ rfl
    simp [asmMem, State.addressSum, State.textAddress, s.indexTerm_of_ne scale hi,
      dispValue_asmDisp hn8]

/-! ### The assembled instruction (R95 to R97) -/

theorem AsmText.vexOperands_reg {t : AsmText} {n : BitVec 5} (h : t.src3 = .reg n) :
    t.vexOperands.src3 = .reg 0#1 (n.setWidth 4) := by
  simp [AsmText.vexOperands, h]

theorem AsmText.vexOperands_mem {t : AsmText} {m : AsmMem} (h : t.src3 = .mem m) :
    t.vexOperands.src3 = .mem (asmMem 1 m) := by
  simp [AsmText.vexOperands, h]

theorem AsmText.evexOperands_reg {t : AsmText} {n : BitVec 5} (h : t.src3 = .reg n) :
    t.evexOperands.src3 = .reg n := by
  simp [AsmText.evexOperands, h]

theorem AsmText.evexOperands_mem {t : AsmText} {m : AsmMem} (h : t.src3 = .mem m) :
    t.evexOperands.src3 = .mem (asmMem 4 m) := by
  simp [AsmText.evexOperands, h]

/-- Operand 3 of the VEX version is well formed and adds at most 5 bytes. -/
theorem AsmText.vexOperands_src3 (t : AsmText) :
    t.vexOperands.src3.wf = true ∧ t.vexOperands.src3.tailLength ≤ 5 := by
  cases h : t.src3 with
  | reg n =>
    rw [AsmText.vexOperands_reg h]
    exact ⟨rfl, Nat.zero_le 5⟩
  | mem m =>
    rw [AsmText.vexOperands_mem h]
    exact ⟨asmMem_wf 1 m, (asmMem 1 m).tailLength_le⟩

/-- Operand 3 of the EVEX version, likewise, and it is a register where the text has one. -/
theorem AsmText.evexOperands_src3 (t : AsmText) :
    t.evexOperands.src3.wf = true ∧ t.evexOperands.src3.tailLength ≤ 5 ∧
      t.evexOperands.src3.isReg = t.src3.isReg := by
  cases h : t.src3 with
  | reg n =>
    rw [AsmText.evexOperands_reg h]
    exact ⟨rfl, Nat.zero_le 5, rfl⟩
  | mem m =>
    rw [AsmText.evexOperands_mem h]
    exact ⟨asmMem_wf 4 m, (asmMem 4 m).tailLength_le, rfl⟩

/-- A legal text has no illegal field: zeroing comes with a writemask, a rounding control with a register
third operand, and without one the length is 0. -/
theorem AsmText.evexOperands_legal {t : AsmText} (h : t.legal = true) :
    t.evexOperands.illegal = false := by
  simp only [AsmText.legal, Bool.and_eq_true] at h
  obtain ⟨hzeroing, hround⟩ := h
  have hmasking : t.evexOperands.illegalMasking = false := by
    simpa [EvexOperands.illegalMasking, AsmText.evexOperands, Decidable.imp_iff_not_or] using hzeroing
  obtain ⟨-, -, hreg⟩ := t.evexOperands_src3
  cases hrm : t.rounding with
  | none =>
    have hb : t.evexOperands.b = false := by simp [AsmText.evexOperands, hrm]
    have hll : t.evexOperands.ll = 0#2 := by simp [AsmText.evexOperands, hrm]
    simp [EvexOperands.illegal, hmasking, EvexOperands.illegalBroadcast, EvexOperands.illegalLength,
      hb, hll]
  | some rm =>
    have hb : t.evexOperands.b = true := by simp [AsmText.evexOperands, hrm]
    have hisReg : t.src3.isReg = true := by simpa [hrm] using hround
    simp [EvexOperands.illegal, hmasking, EvexOperands.illegalBroadcast, EvexOperands.illegalLength,
      hb, hreg, hisReg]

/-- A legal text assembles to a well-formed instruction without legacy prefixes. -/
theorem assemble_wf {t : AsmText} (h : t.legal = true) :
    (assemble t).wf = true ∧ (assemble t).prefixes = [] := by
  rw [assemble]
  split
  · obtain ⟨hwf, hlen, -⟩ := t.evexOperands_src3
    have hprefixes : t.evexOperands.prefixes = [] := rfl
    rw [wf_evex, prefixes_evex, EvexOperands.wf, EvexOperands.length, hwf,
      AsmText.evexOperands_legal h, hprefixes, maxLength, List.length_nil]
    exact ⟨decide_eq_true (by omega), rfl⟩
  · obtain ⟨hwf, hlen⟩ := t.vexOperands_src3
    have hprefixes : t.vexOperands.prefixes = [] := rfl
    rw [wf_vex, prefixes_vex, VexOperands.wf, VexOperands.length, hwf, hprefixes, maxLength,
      List.length_nil]
    exact ⟨decide_eq_true (by omega), rfl⟩

/-- A complementary mnemonic assembles to the encoding of its partner (R97). -/
theorem assemble_complementary (t : AsmText) :
    assemble { t with mnemonic := t.mnemonic.complementary } = assemble t := by
  have hform : t.mnemonic.complementary.form = t.mnemonic.form := by cases t.mnemonic <;> rfl
  have huses : AsmText.usesEvex { t with mnemonic := t.mnemonic.complementary } = t.usesEvex := rfl
  rw [assemble, assemble, huses, hform]
  rfl

/-- Bit 4 of a register number is set from 16 on. -/
theorem getElem_four_iff (n : BitVec 5) : n[4] = true ↔ 16 ≤ n.toNat := by
  revert n; decide

theorem AsmSrc3.highReg_iff (src : AsmSrc3) :
    src.highReg = true ↔ ∃ n, src = .reg n ∧ 16 ≤ n.toNat := by
  cases src <;> simp [AsmSrc3.highReg, getElem_four_iff]

/-- What makes a tool pick the EVEX version (R95). -/
theorem AsmText.usesEvex_iff (t : AsmText) :
    t.usesEvex = true ↔ t.evex = true ∨ 16 ≤ t.d.toNat ∨ 16 ≤ t.s2.toNat ∨
      (∃ n, t.src3 = .reg n ∧ 16 ≤ n.toNat) ∨ t.mask ≠ 0#3 ∨ t.zeroing = true ∨
      t.rounding ≠ none := by
  simp [AsmText.usesEvex, getElem_four_iff, AsmSrc3.highReg_iff, Option.isSome_iff_ne_none, or_assoc]

/-- A register below 16 is the one its four bits in the VEX version name (R18). -/
theorem vexReg_setWidth {n : BitVec 5} (h : ¬ 16 ≤ n.toNat) : vexReg (n.setWidth 4) = n := by
  rw [vexReg]
  bv_omega

/-- The field `EVEX.RC` names the rounding mode (R30, R96). -/
theorem RoundMode.ofBits_bits (rm : RoundMode) : RoundMode.ofBits rm.bits = rm := by
  cases rm <;> rfl

theorem Mnemonic.form_of_mem {mn : Mnemonic} {form : Form}
    (h : (mn, form) ∈ [(Mnemonic.vfmsub132ss, Form.f132), (.vfmsub312ss, .f132), (.vfmsub213ss, .f213),
      (.vfmsub123ss, .f213), (.vfmsub231ss, .f231), (.vfmsub321ss, .f231)]) : mn.form = form := by
  simp only [List.mem_cons, Prod.mk.injEq, List.not_mem_nil, or_false] at h
  rcases h with ⟨rfl, rfl⟩ | ⟨rfl, rfl⟩ | ⟨rfl, rfl⟩ | ⟨rfl, rfl⟩ | ⟨rfl, rfl⟩ | ⟨rfl, rfl⟩ <;> rfl

/-- Settles O11: a legal text assembles to a well-formed instruction, which `decode_encode` gives back, and
the two lists of operands are the text's. -/
theorem assembledTextDecodes : Obligations.AssembledTextDecodes := by
  intro t form needsEvex hlegal hindex hmnemonic hneeds
  obtain rfl := Mnemonic.form_of_mem hmnemonic
  rw [← AsmText.usesEvex_iff] at hneeds
  obtain ⟨hwf, hprefixes⟩ := assemble_wf hlegal
  refine ⟨decode_encode hwf fun _ => hprefixes, assemble_complementary t, fun hvex => ?_,
    fun hevex => ?_⟩
  · rw [hneeds] at hvex
    have hlow := hvex
    rw [AsmText.usesEvex_iff] at hlow
    push Not at hlow
    obtain ⟨-, hd, hs2, hsrc, -⟩ := hlow
    refine ⟨t.vexOperands, if_neg hvex, rfl, vexReg_setWidth hd.not_ge, vexReg_setWidth hs2.not_ge, rfl,
      fun n hn => ?_, fun m hm => ?_⟩
    · exact ⟨_, _, AsmText.vexOperands_reg hn, vexReg_setWidth (hsrc n hn).not_ge⟩
    · exact ⟨_, AsmText.vexOperands_mem hm, effectiveAddress_asmMem (by decide)
        fun b i d hsum => hindex b i d (hsum ▸ hm)⟩
  · refine ⟨t.evexOperands, if_pos (hneeds.1 hevex), rfl, rfl, rfl, rfl, rfl,
      Option.isSome_iff_ne_none, fun rm hrm => ?_, fun hrm => ?_,
      fun n => AsmText.evexOperands_reg, fun m hm => ?_⟩
    · simp [AsmText.evexOperands, hrm, RoundMode.ofBits_bits]
    · simp [AsmText.evexOperands, hrm]
    · exact ⟨_, AsmText.evexOperands_mem hm, effectiveAddress_asmMem (by decide)
        fun b i d hsum => hindex b i d (hsum ▸ hm)⟩

end Sys2Proof.Machine

namespace Sys2Proof.Machine

/-! ### The format as numbers (R105) -/

/-- The factor of R105 that takes a normal value to the units of 2^-149. -/
theorem two_zpow_biased {b : Nat} (hb : b ≠ 0) :
    (2 : ℚ) ^ ((b : ℤ) - 150) * 2 ^ 149 = 2 ^ (b - 1) := by
  rw [← zpow_natCast (2 : ℚ) 149, ← zpow_add₀ two_ne_zero, ← zpow_natCast (2 : ℚ) (b - 1)]
  congr 1
  omega

theorem scaled_eq_sign_mul (w : Word32) :
    (scaled w : ℚ) = (if sign w then -1 else 1) * (magnitude w : ℚ) := by
  rcases scaled_cases w with ⟨hs, h⟩ | ⟨hs, h⟩ <;> simp [hs, h]

/-- Settles O46: with the sign split off, a denormal is its fraction and a normal value its significand
times the power of its exponent, both in units of 2^-149. -/
theorem scaledIsTheValue : Obligations.ScaledIsTheValue := by
  intro w _
  rw [scaled_eq_sign_mul, valueOf, mul_assoc]
  congr 1
  rw [magnitude]
  split
  case isTrue hzero =>
    rw [mul_assoc]
    norm_num
  case isFalse hnormal =>
    have hb : (biasedExp w).toNat ≠ 0 := fun h => hnormal (BitVec.eq_of_toNat_eq h)
    rw [mul_assoc, two_zpow_biased hb]
    push_cast
    rfl

/-! ### NaN operands (R108, R109) -/

theorem isSNaN_dazOperand (d : Bool) (w : Word32) : isSNaN (dazOperand d w) = isSNaN w := by
  cases h : isNaN w
  · rw [isSNaN, isSNaN, isNaN_dazOperand, h, Bool.false_and, Bool.false_and]
  · rw [dazOperand_of_isNaN h]

/-- DAZ does not change which NaN is the first. -/
theorem firstNaN_dazOperand (d : Bool) {x y z : Word32}
    (h : isNaN x = true ∨ isNaN y = true ∨ isNaN z = true) :
    firstNaN (dazOperand d x) (dazOperand d y) (dazOperand d z) = firstNaN x y z := by
  simp only [firstNaN, isNaN_dazOperand]
  split
  case isTrue hx => exact dazOperand_of_isNaN hx d
  split
  case isTrue hy => exact dazOperand_of_isNaN hy d
  case isFalse hx hy => exact dazOperand_of_isNaN ((h.resolve_left hx).resolve_left hy) d

/-- The response where Invalid alone may be detected (R119 to R121). -/
theorem respond_invalid (m : Word32) (sae ie : Bool) (r : Word32) :
    respond m sae (r, { ie := ie }) =
      if sae then .result r {}
      else if ie then
        if masked m .invalid then .result r { ie := true } else .trap .invalid
      else .result r {} := by
  cases sae
  · cases ie
    · rfl
    · cases h : masked m .invalid <;> simp [respond, firstUnmasked, h]
  · rfl

/-- Settles O47: the core answers with the first NaN, which DAZ leaves alone, and Invalid is masked or
traps. -/
theorem nanOperands : Obligations.NanOperands := by
  intro x y z n rm m sae hnan hn
  have hcore : (isNaN (dazOperand (daz m) x) || isNaN (dazOperand (daz m) y) ||
      isNaN (dazOperand (daz m) z)) = true := by
    simpa only [isNaN_dazOperand, Bool.or_eq_true, or_assoc] using hnan
  rw [fmsub32_eq, fmsubCore_of_nan rm _ _ hcore, firstNaN_dazOperand _ hnan]
  simp only [isSNaN_dazOperand]
  rw [respond_invalid, hn]
  rfl

/-! ### Infinities and exact zeros (R110 to R114) -/

theorem signedZero_eq (s : Bool) : signedZero s = if s then 0x80000000#32 else 0#32 := by
  cases s <;> rfl

theorem signedInf_eq (s : Bool) : signedInf s = if s then 0xFF800000#32 else 0x7F800000#32 := by
  cases s <;> rfl

section
variable {x y z : Word32} (rm : RoundMode) (ftz um : Bool)

/-- R110. -/
theorem fmsubCore_of_infTimesZero (h : (isNaN x || isNaN y || isNaN z) = false)
    (hmul : infTimesZero x y = true) :
    fmsubCore x y z rm ftz um = (indefinite, { ie := true }) := by
  simp only [fmsubCore, h, hmul, if_true, Bool.false_eq_true, if_false]

/-- R111 and R113 for an infinite product. -/
theorem fmsubCore_of_productInf (h : (isNaN x || isNaN y || isNaN z) = false)
    (hmul : infTimesZero x y = false) (hinf : productInf x y = true) :
    fmsubCore x y z rm ftz um =
      if isInf z && (productSign x y == sign z) then (indefinite, { ie := true })
      else (signedInf (productSign x y), { de := isDenormal x || isDenormal y || isDenormal z }) := by
  simp only [fmsubCore, h, hmul, hinf, Bool.true_and, if_true, Bool.false_eq_true, if_false]

/-- R113 for a finite product and an infinite subtrahend. -/
theorem fmsubCore_of_subtrahendInf (h : (isNaN x || isNaN y || isNaN z) = false)
    (hx : isInf x = false) (hy : isInf y = false) (hz : isInf z = true) :
    fmsubCore x y z rm ftz um =
      (signedInf (!sign z), { de := isDenormal x || isDenormal y || isDenormal z }) := by
  simp only [fmsubCore, h, infTimesZero, productInf, hx, hy, hz, Bool.false_and, Bool.and_false,
    Bool.or_self, if_true, Bool.false_eq_true, if_false]

end

/-- Settles O48: each clause is one of the core's cases of an infinite operand. -/
theorem infiniteOperands : Obligations.InfiniteOperands := by
  intro x y z rm ftz um nx ny nz
  have hnan : (isNaN x || isNaN y || isNaN z) = false := by simp only [nx, ny, nz, Bool.or_self]
  have hmul : infTimesZero x y = true ↔
      (isInf x = true ∧ isZero y = true ∨ isZero x = true ∧ isInf y = true) := by
    simp only [infTimesZero, Bool.or_eq_true, Bool.and_eq_true]
  have hinf : productInf x y = true ↔ (isInf x = true ∨ isInf y = true) := by
    simp only [productInf, Bool.or_eq_true]
  have hsub : (isInf z && (productSign x y == sign z)) = true ↔
      (isInf z = true ∧ (sign x ^^ sign y) = sign z) := by
    simp only [productSign, Bool.and_eq_true, beq_iff_eq]
  rw [← hmul, ← hinf, ← hsub, Bool.not_eq_true]
  refine ⟨fun h => fmsubCore_of_infTimesZero rm ftz um hnan h, fun h0 h1 hz hs => ?_,
    fun h0 h1 h2 => ?_, fun hx hy hz => ?_⟩
  · rw [fmsubCore_of_productInf rm ftz um hnan h0 h1, if_pos (hsub.2 ⟨hz, hs⟩)]
    rfl
  · rw [fmsubCore_of_productInf rm ftz um hnan h0 h1, if_neg h2, signedInf_eq]
    rfl
  · rw [fmsubCore_of_subtrahendInf rm ftz um hnan hx hy hz, signedInf_eq]
    cases sign z <;> rfl

/-- Settles O49: the difference is 0, and the sign is that of two like zeros or the mode's. -/
theorem exactZero : Obligations.ExactZero := by
  intro x y z rm ftz um hx hy hz hcancel
  have hzero : exactDiff x y z = 0 := sub_eq_zero.2 hcancel
  rw [fmsubCore_of_finite rm ftz um hx hy hz, if_pos hzero, cancelledZero]
  simp only [signedZero_eq, productSign, Bool.and_eq_true, Bool.or_eq_true, beq_iff_eq]

/-! ### Rounding a non-zero value, case by case (R115 to R118) -/

section
variable {v : Int} {rm : RoundMode} (ftz um : Bool)

/-- R116. -/
theorem roundValue_of_overflow (h : 127 < (round24 v.natAbs rm (decide (v < 0))).e) :
    roundValue v rm ftz um =
      (overflowResult rm (decide (v < 0)), { oe := true, pe := true }) := by
  simp only [roundValue, if_pos h]

/-- R117 without and R118 with flushing. -/
theorem roundValue_of_tiny (h : (round24 v.natAbs rm (decide (v < 0))).e < -126) :
    roundValue v rm ftz um =
      if ftz && um then (signedZero (decide (v < 0)), { ue := true, pe := true })
      else (denormalResult v.natAbs rm (decide (v < 0)),
        { ue := inexactQuot v.natAbs (2 ^ 149) || !um, pe := inexactQuot v.natAbs (2 ^ 149) }) := by
  have hlow : ¬ 127 < (round24 v.natAbs rm (decide (v < 0))).e := by omega
  simp only [roundValue, if_neg hlow, if_pos h]

/-- R115 in the normal range. -/
theorem roundValue_of_normal (hlow : -126 ≤ (round24 v.natAbs rm (decide (v < 0))).e)
    (hhigh : (round24 v.natAbs rm (decide (v < 0))).e ≤ 127) :
    roundValue v rm ftz um =
      (normalResult (round24 v.natAbs rm (decide (v < 0))) (decide (v < 0)),
        { pe := inexact24 v.natAbs }) := by
  simp only [roundValue, if_neg hhigh.not_gt, if_neg hlow.not_gt]

end

/-- Settles O50: the masked result of an overflow, for each mode and sign. -/
theorem overflowResults : Obligations.OverflowResults := by
  intro v rm ftz um _ hover
  rw [roundValue_of_overflow ftz um hover]
  cases rm <;> cases decide (v < 0) <;> rfl

/-! ### Flush to zero (R118) -/

/-- The core on finite operands with a non-zero exact value (R112, R115 to R118). -/
theorem fmsubCore_of_nonzero {x y z : Word32} (rm : RoundMode) (ftz um : Bool)
    (hx : isFinite x = true) (hy : isFinite y = true) (hz : isFinite z = true)
    (hv : exactDiff x y z ≠ 0) :
    fmsubCore x y z rm ftz um =
      ((roundValue (exactDiff x y z) rm ftz um).1,
        { (roundValue (exactDiff x y z) rm ftz um).2 with
          de := isDenormal x || isDenormal y || isDenormal z }) := by
  rw [fmsubCore_of_finite rm ftz um hx hy hz, if_neg hv]

/-- FTZ changes no value that is not tiny. -/
theorem roundValue_ftz_of_not_tiny {v : Int} {rm : RoundMode} (um : Bool)
    (h : -126 ≤ (round24 v.natAbs rm (decide (v < 0))).e) :
    roundValue v rm true um = roundValue v rm false um := by
  rcases lt_or_ge 127 (round24 v.natAbs rm (decide (v < 0))).e with hover | hin
  · rw [roundValue_of_overflow true um hover, roundValue_of_overflow false um hover]
  · rw [roundValue_of_normal true um h hin, roundValue_of_normal false um h hin]

/-- With the underflow exception unmasked FTZ is ignored. -/
theorem roundValue_ftz_unmasked (v : Int) (rm : RoundMode) :
    roundValue v rm true false = roundValue v rm false false := rfl

/-- A word of the normal range has a non-zero biased exponent. -/
theorem isDenormal_normalResult {p : Rounded} (s : Bool) (hlow : -126 ≤ p.e) (hhigh : p.e ≤ 127) :
    isDenormal (normalResult p s) = false := by
  obtain ⟨m, e⟩ := p
  dsimp only at hlow hhigh
  obtain ⟨b, hb⟩ := Int.eq_ofNat_of_zero_le (a := e + 127) (by omega)
  have hexp : (biasedExp (normalResult ⟨m, e⟩ s)).toNat = b := by
    rw [normalResult_eq s m hb (by omega), biasedExp_signedWord s (by omega)]
    omega
  have hne : biasedExp (normalResult ⟨m, e⟩ s) ≠ 0#8 := fun h => by
    rw [h, BitVec.toNat_ofNat] at hexp
    omega
  rw [isDenormal, beq_eq_false_iff_ne.2 hne, Bool.false_and]

theorem isDenormal_overflowResult (rm : RoundMode) (s : Bool) :
    isDenormal (overflowResult rm s) = false := by
  cases rm <;> cases s <;> decide

theorem isDenormal_signedZero (s : Bool) : isDenormal (signedZero s) = false := by
  cases s <;> decide

/-- With FTZ in force no rounded value is a denormal. -/
theorem isDenormal_roundValue_flushed (v : Int) (rm : RoundMode) :
    isDenormal (roundValue v rm true true).1 = false := by
  rcases lt_or_ge (round24 v.natAbs rm (decide (v < 0))).e (-126) with htiny | hlow
  · rw [roundValue_of_tiny true true htiny]
    exact isDenormal_signedZero _
  rcases lt_or_ge 127 (round24 v.natAbs rm (decide (v < 0))).e with hover | hhigh
  · rw [roundValue_of_overflow true true hover]
    exact isDenormal_overflowResult rm _
  · rw [roundValue_of_normal true true hlow hhigh]
    exact isDenormal_normalResult _ hlow hhigh

/-- The word of the core is the rounded one. -/
theorem fmsubCore_nonzero_word {x y z : Word32} (rm : RoundMode) (ftz um : Bool)
    (hx : isFinite x = true) (hy : isFinite y = true) (hz : isFinite z = true)
    (hv : exactDiff x y z ≠ 0) :
    (fmsubCore x y z rm ftz um).1 = (roundValue (exactDiff x y z) rm ftz um).1 :=
  (congrArg Prod.fst (fmsubCore_of_nonzero rm ftz um hx hy hz hv)).trans (fst_mk_eq rfl)

/-- Settles O51: step 8 on a tiny value, on one that is not, and with underflow unmasked. -/
theorem flushToZero : Obligations.FlushToZero := by
  intro x y z rm um v p hx hy hz hv hne hp
  subst hv hp
  rw [fmsubCore_nonzero_word rm true true hx hy hz hne]
  simp only [fmsubCore_of_nonzero rm _ _ hx hy hz hne]
  refine ⟨isDenormal_roundValue_flushed _ rm, fun htiny => ?_, fun hlow => ?_, ?_⟩
  · rw [roundValue_of_tiny true true htiny, Bool.and_self, if_pos rfl, signedZero_eq]
    simp only [decide_eq_true_eq]
  · rw [roundValue_ftz_of_not_tiny um hlow]
  · rw [roundValue_ftz_unmasked]

/-! ### DAZ (R107) -/

/-- The core detects a denormal only where an operand is one (R112). -/
theorem fmsubCore_de {x y z : Word32} (rm : RoundMode) (ftz um : Bool)
    (h : (isDenormal x || isDenormal y || isDenormal z) = false) :
    (fmsubCore x y z rm ftz um).2.de = false := by
  simp only [fmsubCore, h, apply_ite Prod.snd, apply_ite FpFlags.de, ite_self]

/-- DAZ on an operand after DAZ changes nothing. -/
theorem dazOperand_idem (w : Word32) : dazOperand true (dazOperand true w) = dazOperand true w :=
  dazOperand_of_not_denormal (isDenormal_dazOperand w) true

theorem dazOperand_true (w : Word32) :
    dazOperand true w = if isDenormal w then w &&& 0x80000000#32 else w := rfl

/-- A result or a trap reports nothing but what was detected. -/
theorem respond_reports {m : Word32} {sae : Bool} {p : Word32 × FpFlags} {c : FpException}
    (h : p.2.has c = false) :
    (∀ r f, respond m sae p = .result r f → f.has c = false) ∧ respond m sae p ≠ .trap c := by
  rcases respond_cases m sae p with ⟨-, e⟩ | ⟨-, -, e⟩ | ⟨-, c', hc', -, -, e⟩ <;> rw [e]
  · refine ⟨fun r f hr => ?_, nofun⟩
    cases hr
    cases c <;> rfl
  · refine ⟨fun r f hr => ?_, nofun⟩
    cases hr
    exact h
  · refine ⟨nofun, fun ht => ?_⟩
    cases ht
    rw [h] at hc'
    cases hc'

/-- Settles O52: DAZ is idempotent and leaves no denormal. -/
theorem denormalsAreZeros : Obligations.DenormalsAreZeros := by
  intro x y z rm m sae
  refine ⟨fun hdaz => ?_, fun hdaz => ?_⟩
  · have hde : (fmsubCore (dazOperand true x) (dazOperand true y) (dazOperand true z) rm (ftz m)
        (masked m .underflow || sae)).2.has .denormal = false :=
      fmsubCore_de rm _ _ (by simp only [isDenormal_dazOperand, Bool.or_self])
    have hreplace : daz m = true := hdaz
    simp only [← dazOperand_true, fmsub32_eq, hreplace, dazOperand_idem, true_and]
    exact respond_reports hde
  · have hkeep : daz m = false := hdaz
    rw [fmsub32_eq, hkeep]
    rfl

/-! ### Masks and the response (R119 to R121, R156) -/

/-- The order of R156. -/
def FpException.priority : List FpException :=
  [.invalid, .denormal, .overflow, .underflow, .precision]

/-- The nested tests search the list of R156 for a detected and unmasked exception. -/
theorem firstUnmasked_eq_find (m : Word32) (f : FpFlags) :
    firstUnmasked m f = FpException.priority.find? fun c => f.has c && !masked m c := by
  have hcons (p : FpException → Bool) (c : FpException) (cs : List FpException) :
      (c :: cs).find? p = if p c then some c else cs.find? p := by
    rw [List.find?_cons]
    cases p c <;> rfl
  simp only [FpException.priority, hcons]
  rfl

/-- What `firstUnmasked` answers comes first in the order of the flag bits among the detected and
unmasked exceptions. -/
theorem firstUnmasked_le {m : Word32} {f : FpFlags} {c c' : FpException}
    (h : firstUnmasked m f = some c) (hf : f.has c' = true) (hm : masked m c' = false) :
    c.flagBit ≤ c'.flagBit := by
  rw [firstUnmasked_eq_find, List.find?_eq_some_iff_append] at h
  obtain ⟨-, before, after, horder, hbefore⟩ := h
  have hsorted : FpException.priority.Pairwise fun a b => a.flagBit ≤ b.flagBit := by decide
  have hmem : c' ∈ FpException.priority := by cases c' <;> decide
  rw [horder] at hsorted hmem
  rcases List.mem_append.1 hmem with hin | hin
  · simpa [hf, hm] using hbefore c' hin
  · rcases List.mem_cons.1 hin with rfl | hin
    · exact le_rfl
    · exact List.rel_of_pairwise_cons (List.pairwise_append.1 hsorted).2.1 hin

/-- Settles O53: the cases of the response. -/
theorem masksDecideTheResponse : Obligations.MasksDecideTheResponse := by
  intro x y z rm m sae r f hcore
  have heq : fmsub32 x y z rm m sae = respond m sae (r, f) := by
    rw [hcore]
    rfl
  rw [heq]
  rcases respond_cases m sae (r, f) with ⟨rfl, e⟩ | ⟨rfl, hall, e⟩ | ⟨rfl, c, hc, hm, hfirst, e⟩ <;>
    rw [e]
  · exact ⟨fun _ => rfl, nofun, nofun⟩
  · refine ⟨nofun, fun _ _ => rfl, fun _ ⟨c, hc, hm⟩ => ?_⟩
    exact absurd (hall c hc) (Bool.eq_false_iff.1 hm)
  · refine ⟨nofun, fun _ hall => ?_, fun _ _ => ⟨c, rfl, hc, hm, fun c' hf' hm' => ?_⟩⟩
    · exact absurd (hall c hc) (Bool.eq_false_iff.1 hm)
    · exact firstUnmasked_le hfirst hf' hm'

end Sys2Proof.Machine

namespace Sys2Proof.Machine

/-! ### Precision (R114 to R117) -/

/-- The rounded quotient is exact exactly when the quotient is an integer. -/
theorem rint_mul_eq_iff (n d : Nat) (rm : RoundMode) (s : Bool) :
    rint n d rm s * d = n ↔ inexactQuot n d = false := by
  rw [inexactQuot, bne_eq_false_iff_eq]
  constructor
  · intro h
    rw [← h, Nat.mul_mod_left]
  · intro h
    simp only [rint, h, if_true]
    exact Nat.div_mul_cancel (Nat.dvd_of_mod_eq_zero h)

theorem inexactQuot_mul_right (n d : Nat) {k : Nat} (hk : 0 < k) :
    inexactQuot (n * k) (d * k) = inexactQuot n d := by
  rw [inexactQuot, inexactQuot, Nat.mul_mod_mul_right, Bool.eq_iff_iff]
  simp [hk.ne']

/-- The exponent of R115 is past the range exactly when the code is that of an infinity or above. -/
theorem overflow_iff_code (a : Nat) (rm : RoundMode) (s : Bool) :
    127 < (round24 a rm s).e ↔ 255 * 2 ^ 23 ≤ roundedCode a rm s := by
  have hle := gridQuotient_le a rm s
  rw [roundedCode]
  rcases Nat.lt_or_ge (Nat.log2 a) 172 with hlog | hlog
  · rw [gridExp_eq_zero hlog]
    rcases round24_of_tiny hlog rm s with he | ⟨hp, -⟩
    · omega
    · rw [hp]
      dsimp only
      omega
  · have hge := le_gridQuotient hlog rm s
    rw [round24_of_normal hlog]
    split <;> dsimp only <;> omega

/-- A magnitude below the smallest normal value that is not tiny was rounded up to that value, by the
24-bit rounding and by the one to multiples of 2^-149. -/
theorem inexact_of_min_normal {a : Nat} {rm : RoundMode} {s : Bool} (hlog : Nat.log2 a < 172)
    (he : -126 ≤ (round24 a rm s).e) : inexact24 a = true ∧ inexactQuot a (2 ^ 149) = true := by
  have hexp : exponentOf a < -126 := by
    unfold exponentOf
    omega
  have hround : rint (a * 2 ^ 23) (2 ^ Nat.log2 a) rm s = 2 ^ 24 := by
    by_contra hne
    rw [round24_eq, if_neg hne] at he
    exact absurd hexp he.not_gt
  have hgrid : rint a (2 ^ 149) rm s = 2 ^ 23 := by
    rcases round24_of_tiny hlog rm s with htiny | ⟨-, hq⟩
    · exact absurd htiny he.not_gt
    · rw [gridQuotient, gridExp_eq_zero hlog] at hq
      exact hq
  have hlt : a < 2 ^ (Nat.log2 a + 1) := Nat.lt_log2_self
  constructor
  · by_contra hexact
    have := (rint_mul_eq_iff _ _ rm s).2 (Bool.eq_false_iff.2 hexact)
    rw [hround] at this
    omega
  · by_contra hexact
    have := (rint_mul_eq_iff a (2 ^ 149) rm s).2 (Bool.eq_false_iff.2 hexact)
    have hbound : 2 ^ (Nat.log2 a + 1) ≤ 2 ^ 172 := Nat.pow_le_pow_right (Nat.succ_pos 1) hlog
    rw [hgrid] at this
    omega

/-- In the normal range both roundings are inexact together. -/
theorem inexact24_eq_inexactQuot {a : Nat} {rm : RoundMode} {s : Bool}
    (he : -126 ≤ (round24 a rm s).e) :
    inexact24 a = inexactQuot a (2 ^ (149 + gridExp a)) := by
  rcases Nat.lt_or_ge (Nat.log2 a) 172 with hlog | hlog
  · obtain ⟨h24, hgrid⟩ := inexact_of_min_normal hlog he
    rw [h24, gridExp_eq_zero hlog, hgrid]
  · have hsum : Nat.log2 a = 149 + gridExp a + 23 := by
      rw [log2_eq_gridExp hlog]
      omega
    rw [inexact24, hsum, Nat.pow_add, inexactQuot_mul_right _ _ (Nat.two_pow_pos 23)]

/-- A tiny value has the spacing of the denormals. -/
theorem gridExp_of_tiny {a : Nat} {rm : RoundMode} {s : Bool} (he : (round24 a rm s).e < -126) :
    gridExp a = 0 := by
  rcases Nat.lt_or_ge (Nat.log2 a) 172 with hlog | hlog
  · exact gridExp_eq_zero hlog
  · rw [round24_of_normal hlog] at he
    split at he <;> dsimp only at he <;> omega

/-- PE is detected on an overflow and on a value that is no multiple of the spacing. -/
theorem roundValue_pe (v : Int) (rm : RoundMode) (um : Bool) :
    (roundValue v rm false um).2.pe =
      (decide (255 * 2 ^ 23 ≤ roundedCode v.natAbs rm (decide (v < 0))) ||
        inexactQuot v.natAbs (2 ^ (149 + gridExp v.natAbs))) := by
  rcases lt_or_ge 127 (round24 v.natAbs rm (decide (v < 0))).e with hover | hhigh
  · rw [roundValue_of_overflow false um hover, decide_eq_true ((overflow_iff_code _ _ _).1 hover)]
    rfl
  rw [decide_eq_false fun h => hhigh.not_gt ((overflow_iff_code _ _ _).2 h), Bool.false_or]
  rcases lt_or_ge (round24 v.natAbs rm (decide (v < 0))).e (-126) with htiny | hlow
  · rw [roundValue_of_tiny false um htiny, gridExp_of_tiny htiny]
    rfl
  · rw [roundValue_of_normal false um hlow hhigh, ← inexact24_eq_inexactQuot hlow]

/-- A finite rounded word has the sign of the value, and its magnitude is exact unless the value
overflows or is no multiple of the spacing. -/
theorem roundedWord_exact_iff {a : Nat} {rm : RoundMode} {s : Bool}
    (hfin : isFinite (roundedWord a rm s) = true) :
    sign (roundedWord a rm s) = s ∧
    (magnitude (roundedWord a rm s) * 2 ^ 149 = a ↔
      roundedCode a rm s < 255 * 2 ^ 23 ∧ inexactQuot a (2 ^ (149 + gridExp a)) = false) := by
  rw [roundedWord_eq] at hfin ⊢
  split at hfin
  case isTrue hover =>
    rw [if_pos hover, overflowResult_eq]
    rw [overflowResult_eq] at hfin
    split at hfin
    case isFalse => simp [isFinite_signedInf] at hfin
    case isTrue htrunc =>
    rw [if_pos htrunc]
    refine ⟨sign_signedWord s _, ?_⟩
    have hbig := overflow_le hover
    have hfloor := (gridQuotient_floor htrunc a).1
    rw [magnitude_signedMax, maxMagnitude]
    omega
  case isFalse hover =>
    rw [if_neg hover, magnitude_rounded s (not_le.1 hover), gridExp_units, gridQuotient,
      rint_mul_eq_iff]
    exact ⟨sign_signedWord s _, (and_iff_right (not_le.1 hover)).symm⟩

/-- A word of the sign of `v` is `v` when its magnitude is that of `v`. -/
theorem scaled_eq_iff_magnitude {v : Int} {r : Word32} (hs : sign r = decide (v < 0)) :
    scaled r * 2 ^ 149 = v ↔ magnitude r * 2 ^ 149 = v.natAbs := by
  have := natAbs_error_of_sign hs
  omega

/-- Without suppression a result reports exactly what the core detects. -/
theorem fmsub32_result_flags {x y z r : Word32} {rm : RoundMode} {m : Word32} {f : FpFlags}
    (h : fmsub32 x y z rm m false = .result r f) :
    f = (fmsubCore (dazOperand (daz m) x) (dazOperand (daz m) y) (dazOperand (daz m) z) rm
      (ftz m) (masked m .underflow)).2 := by
  rw [fmsub32_eq, Bool.or_false] at h
  rcases respond_cases m false (fmsubCore (dazOperand (daz m) x) (dazOperand (daz m) y)
    (dazOperand (daz m) z) rm (ftz m) (masked m .underflow)) with
    ⟨hsae, -⟩ | ⟨-, -, e⟩ | ⟨-, c, -, -, -, e⟩
  · cases hsae
  · rw [e] at h
    cases h
    rfl
  · rw [e] at h
    cases h

/-- DE is added apart from PE; kept apart as `fst_mk_eq` is. -/
theorem pe_mk_withDe (r : Word32) (f : FpFlags) (d : Bool) :
    (r, { f with de := d }).2.pe = f.pe := rfl

/-- PE of the core on finite operands. -/
theorem fmsubCore_pe {x y z : Word32} (rm : RoundMode) (ftz um : Bool)
    (hx : isFinite x = true) (hy : isFinite y = true) (hz : isFinite z = true) :
    (fmsubCore x y z rm ftz um).2.pe =
      if exactDiff x y z = 0 then false else (roundValue (exactDiff x y z) rm ftz um).2.pe := by
  by_cases hv : exactDiff x y z = 0
  · rw [fmsubCore_of_finite rm ftz um hx hy hz, if_pos hv, if_pos hv]
  · rw [if_neg hv]
    exact (congrArg (·.2.pe) (fmsubCore_of_nonzero rm ftz um hx hy hz hv)).trans
      (pe_mk_withDe _ _ _)

/-- Settles O58: an exact zero reports no PE, and a rounded value reports it unless it is a multiple of
the spacing that does not overflow, which is when the word is exact. -/
theorem precisionFlagMeansInexact : Obligations.PrecisionFlagMeansInexact := by
  intro x y z rm m r f v hx hy hz hftz hv h hfin
  have hpe : f.pe = if v = 0 then false
      else (roundValue v rm false (masked m .underflow)).2.pe := by
    rw [fmsub32_result_flags h, hv, hftz]
    exact fmsubCore_pe rm _ _ (isFinite_dazOperand _ hx) (isFinite_dazOperand _ hy)
      (isFinite_dazOperand _ hz)
  rcases fmsub32_finite_result hx hy hz hftz hv h with ⟨hzero, s, rfl⟩ | ⟨hne, rfl⟩
  · rw [hpe, if_pos hzero, scaled_signedZero, hzero]
    decide
  · obtain ⟨hs, hexact⟩ := roundedWord_exact_iff hfin
    rw [hpe, if_neg hne, roundValue_pe, ne_eq, scaled_eq_iff_magnitude hs, hexact]
    simp [Classical.or_iff_not_imp_left]

end Sys2Proof.Machine

namespace Sys2Proof.Machine

/-! ### The outcome of the arithmetic (R126, R132, R146) -/

theorem vexFrame_of_src3_ok (choose : Word32 → Word32 → Word32 → Factors) {o : VexOperands}
    {s : State} {s3 : Word32} (hready : s.vexReady = true) (h3 : s.vexSrc3 o = .ok s3) :
    vexFrame choose o s = deliver (vexReg o.d) o.length
      (vexArith (choose (s.low32 (vexReg o.d)) (s.low32 (vexReg o.s2)) s3) s) s := by
  simp only [State.vexReady, Bool.and_eq_true, Bool.not_eq_true'] at hready
  obtain ⟨henabled, hts⟩ := hready
  simp [vexFrame, State.vexEnabled_mode henabled, henabled, hts, h3]

theorem evexActive_of_src3_ok (choose : Word32 → Word32 → Word32 → Factors) {o : EvexOperands}
    {s : State} {s3 : Word32} (h3 : s.evexSrc3 o = .ok s3) :
    evexActive choose o s =
      deliver o.d o.length (evexArith o (choose (s.low32 o.d) (s.low32 o.s2) s3) s) s := by
  simp [evexActive, h3]

/-- Settles O23: with operand 3 available both frames deliver what the arithmetic gives (`deliver_next`,
`deliver_fault`). -/
theorem arithmeticDecidesTheOutcome : Obligations.ArithmeticDecidesTheOutcome := by
  constructor
  · rintro form o s s3 _ hready h3 rfl
    rw [exec_vex, vexFrame_of_src3_ok _ hready h3]
    exact ⟨fun r f h => deliver_next.2 ⟨r, f, h, rfl⟩, fun c h => deliver_fault.2 ⟨c, h, rfl⟩⟩
  · rintro form o s s3 _ hready hlegal hon h3 rfl
    rw [exec_evex, evexFrame_of_ready _ hready hlegal, if_pos hon, evexActive_of_src3_ok _ h3]
    exact ⟨fun r f h => deliver_next.2 ⟨r, f, h, rfl⟩, fun c h => deliver_fault.2 ⟨c, h, rfl⟩⟩

/-- `fmsub32` traps only on an unmasked exception that is not suppressed (R119 to R121). -/
theorem fmsub32_result_of_masked (x y z : Word32) (rm : RoundMode) {m : Word32} {sae : Bool}
    (h : allMasked m = true ∨ sae = true) : ∃ r f, fmsub32 x y z rm m sae = .result r f := by
  rw [fmsub32_eq]
  rcases respond_cases m sae (fmsubCore (dazOperand (daz m) x) (dazOperand (daz m) y)
    (dazOperand (daz m) z) rm (ftz m) (masked m .underflow || sae)) with
    ⟨-, e⟩ | ⟨-, -, e⟩ | ⟨hsae, c, -, hunmasked, -, -⟩
  · exact ⟨_, _, e⟩
  · exact ⟨_, _, e⟩
  · rcases h with hall | hsae'
    · simp [allMasked_masked hall c] at hunmasked
    · simp [hsae'] at hsae

/-! ### Completion of the VEX encoded versions (R126 to R129) -/

/-- Each VEX encoded version completes with the default body on the factors its digits name. -/
theorem exec_vex_completes (form : Form) {o : VexOperands} {s : State} {s3 x y z : Word32}
    (ht : factorsOf form (s.low32 (vexReg o.d)) (s.low32 (vexReg o.s2)) s3 = ⟨x, y, z⟩)
    (href : s.cfg.fmsub32 = .reference) (hready : s.vexReady = true)
    (hmasked : allMasked s.mxcsr = true) (h3 : s.vexSrc3 o = .ok s3) :
    ∃ r f, fmsub32 x y z (mxcsrRound s.mxcsr) s.mxcsr false = .result r f ∧
      exec (form.vex o) s = .next (s.complete (vexReg o.d) r f o.length) := by
  obtain ⟨r, f, hresult⟩ :=
    fmsub32_result_of_masked x y z (mxcsrRound s.mxcsr) (sae := false) (.inl hmasked)
  obtain ⟨hnext, -⟩ := arithmeticDecidesTheOutcome.1 form o s s3 ⟨x, y, z⟩ hready h3 ht.symm
  exact ⟨r, f, hresult, hnext r f (by rw [href, arithmetic_reference, hresult])⟩

/-- Settles O17: `exec_vex_completes` with the factors of R127. -/
theorem vfmsub132ssVexCompletes : Obligations.Vfmsub132ssVexCompletes :=
  fun _ _ _ => exec_vex_completes .f132 rfl

/-- Settles O18: `exec_vex_completes` with the factors of R128. -/
theorem vfmsub213ssVexCompletes : Obligations.Vfmsub213ssVexCompletes :=
  fun _ _ _ => exec_vex_completes .f213 rfl

/-- Settles O19: `exec_vex_completes` with the factors of R129. -/
theorem vfmsub231ssVexCompletes : Obligations.Vfmsub231ssVexCompletes :=
  fun _ _ _ => exec_vex_completes .f231 rfl

end Sys2Proof.Machine

namespace Sys2Proof.Machine

/-! ### Completion of the EVEX encoded versions, element on (R132, R134 to R138) -/

/-- The element is on without a writemask, or where bit 0 of the writemask is 1 (R24). -/
theorem State.elementOn_iff {s : State} {aaa : BitVec 3} :
    s.elementOn aaa = true ↔ aaa = 0#3 ∨ (s.opmask aaa).getLsbD 0 = true := by
  simp [State.elementOn]

/-- Each EVEX encoded version completes with the default body on the factors its digits name. -/
theorem exec_evex_completes (form : Form) {o : EvexOperands} {s : State} {s3 x y z : Word32}
    (ht : factorsOf form (s.low32 o.d) (s.low32 o.s2) s3 = ⟨x, y, z⟩)
    (href : s.cfg.fmsub32 = .reference) (hready : s.evexReady = true) (hlegal : o.illegal = false)
    (hon : o.aaa = 0#3 ∨ (s.opmask o.aaa).getLsbD 0 = true)
    (hmasked : allMasked s.mxcsr = true ∨ (o.b = true ∧ o.src3.isReg = true))
    (h3 : s.evexSrc3 o = .ok s3) :
    ∃ r f, fmsub32 x y z (s.evexRound o) s.mxcsr (embeddedRounding o) = .result r f ∧
      exec (form.evex o) s = .next (s.complete o.d r f o.length) := by
  have hsae : allMasked s.mxcsr = true ∨ embeddedRounding o = true :=
    hmasked.imp_right (Bool.and_eq_true _ _).mpr
  obtain ⟨r, f, hresult⟩ := fmsub32_result_of_masked x y z (s.evexRound o) hsae
  obtain ⟨hnext, -⟩ := arithmeticDecidesTheOutcome.2 form o s s3 ⟨x, y, z⟩ hready hlegal
    (State.elementOn_iff.2 hon) h3 ht.symm
  exact ⟨r, f, hresult, hnext r f (by rw [href, arithmetic_reference, hresult])⟩

/-- Settles O20: `exec_evex_completes` with the factors of R136. -/
theorem vfmsub132ssEvexCompletes : Obligations.Vfmsub132ssEvexCompletes :=
  fun _ _ _ => exec_evex_completes .f132 rfl

/-- Settles O21: `exec_evex_completes` with the factors of R137. -/
theorem vfmsub213ssEvexCompletes : Obligations.Vfmsub213ssEvexCompletes :=
  fun _ _ _ => exec_evex_completes .f213 rfl

/-- Settles O22: `exec_evex_completes` with the factors of R138. -/
theorem vfmsub231ssEvexCompletes : Obligations.Vfmsub231ssEvexCompletes :=
  fun _ _ _ => exec_evex_completes .f231 rfl

/-! ### A masked-off element (R133, R139) -/

/-- A masked-off element faults on nothing but an unreadable memory operand. -/
theorem State.maskedMemFault_of_readable {s : State} {o : EvexOperands}
    (h : ∀ m, o.src3 = .mem m →
      s.canRead (s.linearAddress o.prefixes evexDisp8Scale (s.pcAfter o.length) m) 4 = true) :
    s.maskedMemFault o = none := by
  cases hsrc : o.src3 with
  | reg n => simp [State.maskedMemFault, hsrc]
  | mem m => simp [State.maskedMemFault, hsrc, h m hsrc]

/-- A masked-off element whose operand does not fault completes with the low doubleword of R133 and no
flag. -/
theorem exec_evex_of_maskedOff (form : Form) {o : EvexOperands} {s : State}
    (hready : s.evexReady = true) (hlegal : o.illegal = false) (hoff : s.elementOn o.aaa = false)
    (hfault : s.maskedMemFault o = none) :
    exec (form.evex o) s = .next (s.complete o.d (s.maskedResult o) FpFlags.none o.length) := by
  rw [exec_evex, evexFrame_of_ready _ hready hlegal, hoff]
  simp [evexMaskedOff, hfault]

/-- Settles O24: the masked-off element completes (`exec_evex_of_maskedOff`), and no flag ORed into MXCSR
leaves it as it was. -/
theorem maskedOffCompletes : Obligations.MaskedOffCompletes := by
  intro form o s hready hlegal hmask hbit hread
  have hoff : s.elementOn o.aaa = false := by
    rw [State.elementOn, beq_eq_false_iff_ne.2 hmask, hbit, Bool.or_false]
  rw [exec_evex_of_maskedOff form hready hlegal hoff (State.maskedMemFault_of_readable hread),
    State.complete, orFlags_none]
  rfl

/-! ### Suppress all exceptions (R135) -/

/-- With its exceptions suppressed `fmsub32` gives a result and no flag, whatever the masks. -/
theorem fmsub32_suppressed (x y z : Word32) (rm : RoundMode) (m : Word32) :
    ∃ r, fmsub32 x y z rm m true = .result r FpFlags.none :=
  ⟨_, rfl⟩

/-- A completion without flags leaves MXCSR as it was. -/
theorem State.complete_none_mxcsr (s : State) (d : BitVec 5) (r : Word32) (len : Nat) :
    (s.complete d r FpFlags.none len).mxcsr = s.mxcsr := by
  rw [State.complete_mxcsr, orFlags_none]

/-- Settles O26: an element that is on completes without flags (`fmsub32_suppressed`), and so does one
that is masked off (`exec_evex_of_maskedOff`). -/
theorem embeddedRoundingSuppressesExceptions : Obligations.EmbeddedRoundingSuppressesExceptions := by
  intro form o s n href hready hlegal hb hreg
  cases hon : s.elementOn o.aaa
  case true =>
    have h3 : s.evexSrc3 o = .ok (s.low32 n) := by simp [State.evexSrc3, hreg]
    have hsae : embeddedRounding o = true := by simp [embeddedRounding, hb, hreg, EvexSrc3.isReg]
    obtain ⟨hnext, -⟩ :=
      arithmeticDecidesTheOutcome.2 form o s (s.low32 n) _ hready hlegal hon h3 rfl
    obtain ⟨r, hresult⟩ := fmsub32_suppressed _ _ _ (s.evexRound o) s.mxcsr
    exact ⟨_, hnext r FpFlags.none (by rw [href, arithmetic_reference, hsae, hresult]),
      s.complete_none_mxcsr ..⟩
  case false =>
    have hfault : s.maskedMemFault o = none :=
      State.maskedMemFault_of_readable fun m hmem => by simp [hreg] at hmem
    exact ⟨_, exec_evex_of_maskedOff form hready hlegal hon hfault, s.complete_none_mxcsr ..⟩

/-! ### Agreement of the two versions (R142) -/

/-- Two outcomes of which neither is a refusal, with the same next state but for `pc`, which the second
sets to `pc`, and the same faults. -/
def agreeButForPc (pc : Word64) (a b : Host.Outcome State Fault Refusal) : Prop :=
  (∀ t, a = .next t → b = .next { t with pc := pc }) ∧
  (∀ x, a = .fault x ↔ b = .fault x) ∧
  (∀ x, a ≠ .refused x ∧ b ≠ .refused x)

theorem agreeButForPc_raise (pc : Word64) (e : ExceptionName) (s : State) :
    agreeButForPc pc (raise e s) (raise e s) :=
  ⟨fun t h => absurd h (raise_ne_next e s t), fun _ => Iff.rfl, fun _ => ⟨nofun, nofun⟩⟩

/-- The length of the instruction tells in `pc` alone, and only where the arithmetic gives a result. -/
theorem agreeButForPc_deliver (d : BitVec 5) (len len' : Nat) (out : FmsubOut) (s : State) :
    agreeButForPc (s.pc + BitVec.ofNat 64 len') (deliver d len out s) (deliver d len' out s) := by
  refine ⟨fun t h => ?_, fun x => deliver_fault.trans deliver_fault.symm,
    fun x => ⟨deliver_refused, deliver_refused⟩⟩
  obtain ⟨r, f, hout, rfl⟩ := deliver_next.1 h
  exact deliver_next.2 ⟨r, f, hout, rfl⟩

/-- Without an embedded rounding control the arithmetic of the two versions is the same (R134, R135). -/
theorem evexArith_of_not_embedded {o : EvexOperands} (hb : o.b = false) (t : Factors) (s : State) :
    evexArith o t s = vexArith t s := by
  simp [evexArith, vexArith, State.evexRound, embeddedRounding, hb]

/-- With CR0.TS set an enabled VEX encoded version is `#NM` (R153). -/
theorem vexFrame_of_taskSwitched (choose : Word32 → Word32 → Word32 → Factors) (o : VexOperands)
    {s : State} (henabled : s.vexEnabled = true) (hts : s.taskSwitched = true) :
    vexFrame choose o s = raise .nm s := by
  simp [vexFrame, State.vexEnabled_mode henabled, henabled, hts]

/-- With CR0.TS set an enabled and legal EVEX encoded version is `#NM` (R153). -/
theorem evexFrame_of_taskSwitched (choose : Word32 → Word32 → Word32 → Factors) {o : EvexOperands}
    {s : State} (henabled : s.evexEnabled = true) (hlegal : o.illegal = false)
    (hts : s.taskSwitched = true) : evexFrame choose o s = raise .nm s := by
  simp [evexFrame, State.evexEnabled_mode henabled, henabled, hlegal, hts]

/-- Settles O27: both frames raise `#NM`, or the exception of operand 3, or deliver the same arithmetic to
the same destination. -/
theorem evexAgreesWithVex : Obligations.EvexAgreesWithVex := by
  intro form ov oe s hvex hevex hlegal hd hs2 haaa hb h3
  change agreeButForPc _ (exec (form.vex ov) s) (exec (form.evex oe) s)
  rw [exec_vex, exec_evex]
  cases hts : s.taskSwitched
  case true =>
    rw [vexFrame_of_taskSwitched _ _ hvex hts, evexFrame_of_taskSwitched _ hevex hlegal hts]
    exact agreeButForPc_raise ..
  case false =>
    have hvready : s.vexReady = true := by simp [State.vexReady, hvex, hts]
    have heready : s.evexReady = true := by simp [State.evexReady, hevex, hts]
    rw [evexFrame_of_ready _ heready hlegal, if_pos (State.elementOn_iff.2 (.inl haaa))]
    cases hsrc : s.vexSrc3 ov with
    | error e =>
      rw [vexFrame_of_src3_error _ hvready hsrc, evexActive_of_src3_error _ (h3.trans hsrc)]
      exact agreeButForPc_raise ..
    | ok s3 =>
      rw [vexFrame_of_src3_ok _ hvready hsrc, evexActive_of_src3_ok _ (h3.trans hsrc),
        evexArith_of_not_embedded hb, hd, hs2]
      exact agreeButForPc_deliver ..

end Sys2Proof.Machine

namespace Sys2Proof.Machine

/-! ### `#UD` where not enabled (R149, R150) -/

/-- Without CR0.PE, or in virtual-8086 mode, the processor is not in 64-bit mode (R150). -/
theorem State.mode_ne_bits64 {s : State} (h : s.cr0.getLsbD 0 = false ∨ s.eflags.getLsbD 17 = true) :
    s.mode ≠ .bits64 := by
  unfold State.mode
  rcases h with hreal | hvirtual
  · rw [hreal]
    simp
  · rw [hvirtual]
    split <;> simp

/-- CR4.OSXSAVE or XCR0[2:1] alone disables the AVX state (R36). -/
theorem State.osAvxEnabled_eq_false {s : State}
    (h : s.cr4.getLsbD 18 = false ∨ s.xcr0.extractLsb' 1 2 ≠ 3#2) : s.osAvxEnabled = false := by
  unfold State.osAvxEnabled
  rcases h with hosxsave | hxcr0
  · rw [hosxsave, Bool.false_and]
  · rw [beq_eq_false_iff_ne.2 hxcr0, Bool.and_false]

/-- A missing feature, AVX state not enabled, or another mode than 64-bit mode alone disables the VEX
encoded versions (R149 rows 1, 2, 3 and 5). -/
theorem State.vexEnabled_eq_false {s : State}
    (h : s.hasFma = false ∨ s.osAvxEnabled = false ∨ s.mode ≠ .bits64) : s.vexEnabled = false := by
  rcases h with h | h | h <;> simp [State.vexEnabled, h]

/-- The same for the EVEX encoded versions, which XCR0[7:5] alone disables too (R149 rows 1 to 5). -/
theorem State.evexEnabled_eq_false {s : State}
    (h : s.hasAvx512f = false ∨ s.osAvxEnabled = false ∨ s.xcr0.extractLsb' 5 3 ≠ 7#3 ∨
      s.mode ≠ .bits64) : s.evexEnabled = false := by
  rcases h with h | h | h | h <;> simp [State.evexEnabled, State.osAvx512Enabled, h]

theorem vexFrame_of_not_enabled (choose : Word32 → Word32 → Word32 → Factors) (o : VexOperands)
    {s : State} (hmode : s.mode ≠ .bits32) (h : s.vexEnabled = false) :
    vexFrame choose o s = raise .ud s := by
  simp [vexFrame, hmode, h]

theorem evexFrame_of_undefined (choose : Word32 → Word32 → Word32 → Factors) {o : EvexOperands}
    {s : State} (hmode : s.mode ≠ .bits32) (h : s.evexEnabled = false ∨ o.illegal = true) :
    evexFrame choose o s = raise .ud s := by
  rcases h with h | h <;> simp [evexFrame, hmode, h]

/-- Settles O34: each condition alone leaves the version disabled, and a disabled version is `#UD`. -/
theorem undefinedWhereNotEnabled : Obligations.UndefinedWhereNotEnabled := by
  intro form s hmode
  refine ⟨fun o h => ?_, fun o h => ?_⟩
  · rw [exec_vex]
    refine vexFrame_of_not_enabled _ o hmode (State.vexEnabled_eq_false ?_)
    rcases h with hfma | hosxsave | hxcr0 | hmode64
    · exact .inl hfma
    · exact .inr (.inl (State.osAvxEnabled_eq_false (.inl hosxsave)))
    · exact .inr (.inl (State.osAvxEnabled_eq_false (.inr hxcr0)))
    · exact .inr (.inr (State.mode_ne_bits64 hmode64))
  · rw [exec_evex]
    refine evexFrame_of_undefined _ hmode (.inl (State.evexEnabled_eq_false ?_))
    rcases h with havx512f | hosxsave | hxcr0 | hxcr0 | hmode64
    · exact .inl havx512f
    · exact .inr (.inl (State.osAvxEnabled_eq_false (.inl hosxsave)))
    · exact .inr (.inl (State.osAvxEnabled_eq_false (.inr hxcr0)))
    · exact .inr (.inr (.inl hxcr0))
    · exact .inr (.inr (.inr (State.mode_ne_bits64 hmode64)))

/-! ### `#NM` (R153) -/

/-- Settles O35: launch clears CR0.TS, and with CR0.TS set both frames stop before operand 3. -/
theorem deviceNotAvailable : Obligations.DeviceNotAvailable := by
  refine ⟨State.launch_taskSwitched, fun form s hts => ⟨fun o henabled => ?_,
    fun o henabled hlegal => ?_⟩⟩
  · rw [exec_vex]
    exact vexFrame_of_taskSwitched _ o henabled hts
  · rw [exec_evex]
    exact evexFrame_of_taskSwitched _ henabled hlegal hts

/-! ### The load of operand 3 and alignment checking (R51, R155) -/

/-- The two low bits of an address are 0 exactly when it is a multiple of 4. -/
theorem extractLsb_two_eq_zero_iff (a : Word64) : a.extractLsb' 0 2 = 0#2 ↔ a.toNat % 4 = 0 := by
  simp [← BitVec.toNat_inj]

theorem State.acEnabled_iff {s : State} :
    s.acEnabled = true ↔ s.cr0.getLsbD 18 = true ∧ s.eflags.getLsbD 18 = true ∧ s.cpl = 3#2 := by
  simp [State.acEnabled, and_assoc]

/-- A readable operand is `#AC` where alignment checking is in force and the effective address is no
multiple of 4, and else the doubleword at the linear address. -/
theorem State.loadOperand_of_readable {s : State} {p : List LegacyPrefix} {n8 : Nat} {nx : Word64}
    {m : MemOperand} (h : s.canRead (s.linearAddress p n8 nx m) 4 = true) :
    s.loadOperand p n8 nx m =
      if s.acEnabled = true ∧ (s.effectiveAddress p n8 nx m).toNat % 4 ≠ 0 then .error .ac
      else .ok (s.dwordAt (s.linearAddress p n8 nx m)) := by
  rcases s.loadOperand_cases p n8 nx m with ⟨hno, -⟩ | ⟨-, hac, hea, heq⟩ | ⟨-, hor, heq⟩
  · simp [h] at hno
  · rw [heq, if_pos ⟨hac, mt (extractLsb_two_eq_zero_iff _).2 hea⟩]
  · rw [heq, if_neg]
    rintro ⟨hac, hea⟩
    rcases hor with hoff | haligned
    · simp [hac] at hoff
    · exact hea ((extractLsb_two_eq_zero_iff _).1 haligned)

/-- Settles O37: a readable operand is loaded as `State.loadOperand_of_readable` says, and the frames raise
the exception of the load. -/
theorem alignmentCheck : Obligations.AlignmentCheck := by
  constructor
  · rintro form o m _ _ s hready hmem rfl rfl hread
    have h3 := (State.vexSrc3_of_mem hmem).trans (State.loadOperand_of_readable hread)
    simp only [State.acEnabled_iff] at h3
    split_ifs with hac
    · rw [exec_vex]
      exact vexFrame_of_src3_error _ hready (h3.trans (if_pos hac))
    · exact h3.trans (if_neg hac)
  · rintro form o m _ _ s hready hlegal hon hmem rfl rfl hread
    have h3 := (State.evexSrc3_of_mem hmem).trans (State.loadOperand_of_readable hread)
    simp only [State.acEnabled_iff] at h3
    split_ifs with hac
    · rw [exec_evex, evexFrame_of_ready _ hready hlegal, if_pos hon]
      exact evexActive_of_src3_error _ (h3.trans (if_pos hac))
    · exact h3.trans (if_neg hac)

/-! ### What a trap leaves (R147, R157) -/

/-- The flag of an exception is one of IE, DE, OE, UE and PE. -/
theorem FpException.flagBit_mem (c : FpException) : c.flagBit ∈ [0, 1, 3, 4, 5] := by
  cases c <;> decide

/-- A trap changes no bit of MXCSR but IE, DE, OE, UE and PE, whatever is drawn. -/
theorem trapFlags_getLsbD_other (m : Word32) (c : FpException) (drawn : BitVec 6) {j : Nat}
    (hj : j ∉ [0, 1, 3, 4, 5]) : (trapFlags m c drawn).getLsbD j = m.getLsbD j := by
  have hcause : j ≠ c.flagBit := fun e => hj (e ▸ c.flagBit_mem)
  have hdrawn : ¬ (j < 6 ∧ j ≠ 2) := by
    simp only [List.mem_cons, List.not_mem_nil, or_false, not_or] at hj
    omega
  rw [trapFlags_getLsbD, decide_eq_false hcause, Bool.and_assoc, ← Bool.decide_and,
    decide_eq_false hdrawn]
  simp

theorem State.withTrapFlags_frame (s : State) (c : FpException) :
    { s.withTrapFlags c with mxcsr := s.mxcsr } = s := rfl

/-- Settles O38: MXCSR bit by bit (`trapFlags_getLsbD`). -/
theorem trapSetsItsFlag : Obligations.TrapSetsItsFlag := by
  intro s c
  rw [State.withTrapFlags_mxcsr]
  exact ⟨by simp [trapFlags_getLsbD], fun j hj => by simp [trapFlags_getLsbD, hj],
    fun j hj => trapFlags_getLsbD_other _ c _ hj, s.withTrapFlags_frame c⟩

end Sys2Proof.Machine

namespace Sys2Proof.Machine

/-! ### Precision of faults (R157, R158) -/

/-- An exception on reading operand 3 is neither `#XM` nor `#UD`. -/
theorem not_simd_of_operandException {e : ExceptionName} {p : Prop}
    (h : (∃ a, e = .memFault a) ∨ (e = .ac ∧ p)) : e ≠ .ud ∧ e ≠ .xm := by
  rcases h with ⟨a, rfl⟩ | ⟨rfl, -⟩ <;> simp

/-- A step raises what its instruction raises, or `#UD` where the decoder finds an illegal form. -/
theorem step_raised {s after : State} {e : ExceptionName} (h : step s = .fault (.raised e after)) :
    (∃ i rest, decode s.cfg.prefixes s.window = .ok (i, rest) ∧ exec i s = .fault (.raised e after)) ∨
    (∃ why, decode s.cfg.prefixes s.window = .error (.undefinedOpcode why) ∧ e = .ud ∧ after = s) := by
  unfold step State.fetch at h
  by_cases hm : s.mode = .bits32
  · simp [hm] at h
  · rw [if_neg hm] at h
    cases hd : decode s.cfg.prefixes s.window with
    | ok p => exact .inl ⟨p.1, p.2, rfl, by simpa [hd] using h⟩
    | error r =>
      rw [hd] at h
      cases r <;> cases h
      exact .inr ⟨_, rfl, rfl, rfl⟩

/-- Settles O39: the causes of an exception (`vexFrame_raised`, `evexFrame_raised`, `step_raised`), of which
only a trap of the arithmetic leaves another state. -/
theorem faultsArePrecise : Obligations.FaultsArePrecise := by
  refine ⟨fun form o s after e h => ?_, fun form o s after e h => ?_, fun s after e => step_raised⟩
  · rw [exec_vex] at h
    rcases vexFrame_raised h with ⟨-, -, rfl, rfl⟩ | ⟨-, -, rfl, rfl⟩ | ⟨-, h3, rfl⟩ |
      ⟨hready, s3, c, h3, htrap, rfl, rfl⟩
    · exact ⟨rfl, .inl ⟨rfl, nofun⟩⟩
    · exact ⟨rfl, .inl ⟨rfl, nofun⟩⟩
    · exact ⟨rfl, .inl ⟨rfl, (not_simd_of_operandException (State.vexSrc3_error h3)).2⟩⟩
    · exact ⟨s.withTrapFlags_frame c, .inr ⟨s3, c, hready, h3, htrap, rfl, rfl⟩⟩
  · rw [exec_evex] at h
    rcases evexFrame_raised h with ⟨-, -, rfl, rfl⟩ | ⟨-, -, -, rfl, rfl⟩ | ⟨-, -, -, h3, rfl⟩ |
      ⟨-, -, -, ⟨a, rfl⟩, rfl⟩ | ⟨hready, hlegal, hon, s3, c, h3, htrap, rfl, rfl⟩
    · exact ⟨rfl, .inl ⟨rfl, nofun⟩⟩
    · exact ⟨rfl, .inl ⟨rfl, nofun⟩⟩
    · exact ⟨rfl, .inl ⟨rfl, (not_simd_of_operandException (State.evexSrc3_error h3)).2⟩⟩
    · exact ⟨rfl, .inl ⟨rfl, nofun⟩⟩
    · exact ⟨s.withTrapFlags_frame c, .inr ⟨s3, c, hready, hlegal, hon, h3, htrap, rfl, rfl⟩⟩

end Sys2Proof.Machine

namespace Sys2Proof.Machine

/-! ### Priority (R156) -/

/-- An operand that loads, or is misaligned, is readable: a memory fault comes before `#AC`. -/
theorem State.canRead_of_loadOperand {s : State} {p : List LegacyPrefix} {n8 : Nat} {nx : Word64}
    {m : MemOperand} (h : s.loadOperand p n8 nx m = .error .ac ∨ ∃ x, s.loadOperand p n8 nx m = .ok x) :
    s.canRead (s.linearAddress p n8 nx m) 4 = true := by
  by_contra hno
  have hfault := State.loadOperand_of_unreadable (Bool.eq_false_iff.2 hno)
  simp [hfault] at h

/-- Under alignment checking an operand that loads is aligned. -/
theorem State.aligned_of_loadOperand_ok {s : State} {p : List LegacyPrefix} {n8 : Nat} {nx : Word64}
    {m : MemOperand} {x : Word32} (h : s.loadOperand p n8 nx m = .ok x) (hac : s.acEnabled = true) :
    (s.effectiveAddress p n8 nx m).toNat % 4 = 0 := by
  by_contra hea
  have hread := State.canRead_of_loadOperand (.inr ⟨x, h⟩)
  rw [State.loadOperand_of_readable hread, if_pos ⟨hac, hea⟩] at h
  cases h

theorem State.vexReady_iff {s : State} :
    s.vexReady = true ↔ s.vexEnabled = true ∧ s.taskSwitched = false := by
  simp [State.vexReady]

theorem State.evexReady_iff {s : State} :
    s.evexReady = true ↔ s.evexEnabled = true ∧ s.taskSwitched = false := by
  simp [State.evexReady]

/-- With the default body a trap means that there is no embedded rounding control (R135). -/
theorem embeddedRounding_of_trap {o : EvexOperands} {t : Factors} {s : State} {c : FpException}
    (href : s.cfg.fmsub32 = .reference) (htrap : evexArith o t s = .trap c) :
    embeddedRounding o = false := by
  rw [evexArith, href, arithmetic_reference] at htrap
  cases hsae : embeddedRounding o
  · rfl
  · obtain ⟨r, hresult⟩ := fmsub32_suppressed t.x t.y t.z (s.evexRound o) s.mxcsr
    rw [hsae, hresult] at htrap
    cases htrap

/-- Settles O40: each cause of an exception (`vexFrame_raised`, `evexFrame_raised`) comes with the facts
that exclude those before it. -/
theorem exceptionPriority : Obligations.ExceptionPriority := by
  constructor
  · intro form o s after e simd hsimd h
    rw [exec_vex] at h
    rcases vexFrame_raised h with ⟨-, hdisabled, rfl, -⟩ | ⟨henabled, -, rfl, -⟩ | ⟨hready, h3, -⟩ |
      ⟨hready, s3, c, h3, htrap, -, -⟩
    · simp [hsimd, hdisabled]
    · simp [hsimd, henabled]
    · obtain ⟨henabled, hts⟩ := State.vexReady_iff.1 hready
      have hnot : ¬ simd := by
        simpa [hsimd, henabled] using (not_simd_of_operandException (State.vexSrc3_error h3)).symm
      refine ⟨fun _ => henabled, fun _ => hts, fun m hac hmem => ?_, fun _ hs => absurd hs hnot,
        fun hs => absurd hs hnot⟩
      rw [State.vexSrc3_of_mem hmem, hac.resolve_right hnot] at h3
      exact State.canRead_of_loadOperand (.inl h3)
    · obtain ⟨henabled, hts⟩ := State.vexReady_iff.1 hready
      refine ⟨fun _ => henabled, fun _ => hts, fun m _ hmem => ?_, fun m _ hmem hac => ?_,
        fun _ => ⟨s3, c, h3, htrap⟩⟩ <;> rw [State.vexSrc3_of_mem hmem] at h3
      · exact State.canRead_of_loadOperand (.inr ⟨s3, h3⟩)
      · exact State.aligned_of_loadOperand_ok h3 hac
  · intro form o s after e simd hsimd h
    rw [exec_evex] at h
    rcases evexFrame_raised h with ⟨-, hundefined, rfl, -⟩ | ⟨henabled, hlegal, -, rfl, -⟩ |
      ⟨hready, hlegal, -, h3, -⟩ | ⟨hready, hlegal, -, ⟨a, rfl⟩, -⟩ |
      ⟨hready, hlegal, hon, s3, c, h3, htrap, -, -⟩
    · rcases hundefined with hdisabled | hillegal
      · simp [hsimd, hdisabled]
      · simp [hsimd, hillegal]
    · simp [hsimd, henabled, hlegal]
    · obtain ⟨henabled, hts⟩ := State.evexReady_iff.1 hready
      have hnot : ¬ simd := by
        simpa [hsimd, henabled, hlegal] using
          (not_simd_of_operandException (State.evexSrc3_error h3)).symm
      refine ⟨fun _ => ⟨henabled, hlegal⟩, fun _ => hts, fun m hac hmem => ?_,
        fun _ hs => absurd hs hnot, fun hs => absurd hs hnot⟩
      rw [State.evexSrc3_of_mem hmem, hac.resolve_right hnot] at h3
      exact State.canRead_of_loadOperand (.inl h3)
    · obtain ⟨henabled, hts⟩ := State.evexReady_iff.1 hready
      simp [hsimd, henabled, hlegal, hts]
    · obtain ⟨henabled, hts⟩ := State.evexReady_iff.1 hready
      refine ⟨fun _ => ⟨henabled, hlegal⟩, fun _ => hts, fun m _ hmem => ?_, fun m _ hmem hac => ?_,
        fun _ => ⟨hon, fun href => embeddedRounding_of_trap href htrap, s3, c, h3, htrap⟩⟩ <;>
        rw [State.evexSrc3_of_mem hmem] at h3
      · exact State.canRead_of_loadOperand (.inr ⟨s3, h3⟩)
      · exact State.aligned_of_loadOperand_ok h3 hac

end Sys2Proof.Machine

namespace Sys2Proof.Machine

/-! ### Privilege (R163) -/

/-- The state at another current privilege level. -/
def State.atPrivilege (s : State) (c : BitVec 2) : State := { s with cpl := c }

/-- Each of CR0.AM, EFLAGS.AC and the privilege level alone keeps alignment checking out of force (R155). -/
theorem State.acEnabled_eq_false {s : State}
    (h : s.cr0.getLsbD 18 = false ∨ s.eflags.getLsbD 18 = false ∨ s.cpl ≠ 3#2) :
    s.acEnabled = false := by
  rw [Bool.eq_false_iff, Ne, State.acEnabled_iff]
  rintro ⟨ham, hflag, hcpl⟩
  rcases h with h | h | h
  · exact Bool.eq_false_iff.1 h ham
  · exact Bool.eq_false_iff.1 h hflag
  · exact h hcpl

/-- Delivering neither reads nor writes the privilege level. -/
theorem deliver_atPrivilege (d : BitVec 5) (len : Nat) (out : FmsubOut) (s : State) (c : BitVec 2) :
    deliver d len out (s.atPrivilege c) = mapOutcome (·.atPrivilege c) (deliver d len out s) := by
  cases out <;> rfl

/-- A masked-off element has no alignment check, so the privilege level never tells (R140). -/
theorem evexMaskedOff_atPrivilege (o : EvexOperands) (s : State) (c : BitVec 2) :
    evexMaskedOff o (s.atPrivilege c) = mapOutcome (·.atPrivilege c) (evexMaskedOff o s) := by
  have hfault : (s.atPrivilege c).maskedMemFault o = s.maskedMemFault o := rfl
  rw [evexMaskedOff, evexMaskedOff, hfault]
  cases s.maskedMemFault o <;> rfl

section
variable {s : State} {c : BitVec 2} (hac : (s.atPrivilege c).acEnabled = s.acEnabled)
include hac

/-- The privilege level tells in a load only through alignment checking. -/
theorem State.loadOperand_atPrivilege (p : List LegacyPrefix) (n8 : Nat) (nx : Word64) (m : MemOperand) :
    (s.atPrivilege c).loadOperand p n8 nx m = s.loadOperand p n8 nx m := by
  rw [State.loadOperand, hac]
  rfl

theorem State.vexSrc3_atPrivilege (o : VexOperands) : (s.atPrivilege c).vexSrc3 o = s.vexSrc3 o := by
  unfold State.vexSrc3
  cases o.src3 with
  | reg x n => rfl
  | mem m => exact State.loadOperand_atPrivilege hac ..

theorem State.evexSrc3_atPrivilege (o : EvexOperands) : (s.atPrivilege c).evexSrc3 o = s.evexSrc3 o := by
  unfold State.evexSrc3
  cases o.src3 with
  | reg n => rfl
  | mem m => exact State.loadOperand_atPrivilege hac ..

variable (choose : Word32 → Word32 → Word32 → Factors)

/-- The frame reads the same mode, enabling bits and CR0.TS, and then the same operand 3. -/
theorem vexFrame_atPrivilege (o : VexOperands) :
    vexFrame choose o (s.atPrivilege c) = mapOutcome (·.atPrivilege c) (vexFrame choose o s) := by
  rw [vexFrame, vexFrame, apply_ite (mapOutcome _), apply_ite (mapOutcome _), apply_ite (mapOutcome _),
    State.vexSrc3_atPrivilege hac]
  refine if_congr Iff.rfl rfl (if_congr Iff.rfl rfl (if_congr Iff.rfl rfl ?_))
  cases s.vexSrc3 o with
  | error e => rfl
  | ok s3 => exact deliver_atPrivilege ..

theorem evexActive_atPrivilege (o : EvexOperands) :
    evexActive choose o (s.atPrivilege c) = mapOutcome (·.atPrivilege c) (evexActive choose o s) := by
  rw [evexActive, evexActive, State.evexSrc3_atPrivilege hac]
  cases s.evexSrc3 o with
  | error e => rfl
  | ok s3 => exact deliver_atPrivilege ..

/-- The frame reads the same mode, enabling bits, CR0.TS and writemask. -/
theorem evexFrame_atPrivilege (o : EvexOperands) :
    evexFrame choose o (s.atPrivilege c) = mapOutcome (·.atPrivilege c) (evexFrame choose o s) := by
  rw [evexFrame, evexFrame, apply_ite (mapOutcome _), apply_ite (mapOutcome _), apply_ite (mapOutcome _),
    apply_ite (mapOutcome _), evexActive_atPrivilege hac, evexMaskedOff_atPrivilege]
  rfl

end

/-- Settles O42: alignment checking is in force at neither level, so both frames commute with the change of
level. -/
theorem privilegeLevelDoesNotMatter : Obligations.PrivilegeLevelDoesNotMatter := by
  intro i s c h
  have hbefore : s.acEnabled = false :=
    State.acEnabled_eq_false (h.imp_right (.imp_right And.left))
  have hafter : (s.atPrivilege c).acEnabled = false :=
    State.acEnabled_eq_false (h.imp_right (.imp_right And.right))
  have hac := hafter.trans hbefore.symm
  rcases instr_cases i with ⟨form, o, rfl⟩ | ⟨form, o, rfl⟩
  · rw [exec_vex, exec_vex]
    exact vexFrame_atPrivilege hac _ o
  · rw [exec_evex, exec_evex]
    exact evexFrame_atPrivilege hac _ o

end Sys2Proof.Machine

namespace Sys2Proof.Machine

/-! ### The outcomes under the launch premises (R168) -/

theorem State.ready_vex (s : State) (form : Form) (o : VexOperands) :
    s.ready (form.vex o) = s.vexReady := by
  cases form <;> rfl

theorem State.ready_evex_iff {s : State} {form : Form} {o : EvexOperands} :
    s.ready (form.evex o) = true ↔ s.evexReady = true ∧ o.illegal = false := by
  cases form <;> simp [State.ready, Form.evex]

/-- Without alignment checking, an exception on reading operand 3 is MemFault. -/
theorem memFault_of_operandException {s : State} {e : ExceptionName} (hac : s.acEnabled = false)
    (h : (∃ a, e = .memFault a) ∨ (e = .ac ∧ s.acEnabled = true)) : ∃ a, e = .memFault a :=
  h.resolve_right fun ⟨_, hon⟩ => Bool.eq_false_iff.1 hac hon

/-- Settles O41: where operand 3 is available, or not needed, the instruction completes
(`exec_vex_completes`, `exec_evex_completes`, `evexMaskedOff_cases`); where it is not, its exception is
MemFault. -/
theorem onlyCompletionOrMemFault : Obligations.OnlyCompletionOrMemFault := by
  intro i s href hready hmasked hac
  rcases instr_cases i with ⟨form, o, rfl⟩ | ⟨form, o, rfl⟩
  · rw [State.ready_vex] at hready
    cases h3 : s.vexSrc3 o with
    | ok s3 =>
      obtain ⟨r, f, -, hnext⟩ := exec_vex_completes form rfl href hready hmasked h3
      exact .inl ⟨_, hnext⟩
    | error e =>
      obtain ⟨a, rfl⟩ := memFault_of_operandException hac (State.vexSrc3_error h3)
      exact .inr ⟨a, (exec_vex form o s).trans (vexFrame_of_src3_error _ hready h3)⟩
  · obtain ⟨hevex, hlegal⟩ := State.ready_evex_iff.1 hready
    cases hon : s.elementOn o.aaa
    case true =>
      cases h3 : s.evexSrc3 o with
      | ok s3 =>
        obtain ⟨r, f, -, hnext⟩ := exec_evex_completes form rfl href hevex hlegal
          (State.elementOn_iff.1 hon) (.inl hmasked) h3
        exact .inl ⟨_, hnext⟩
      | error e =>
        obtain ⟨a, rfl⟩ := memFault_of_operandException hac (State.evexSrc3_error h3)
        rw [exec_evex, evexFrame_of_ready _ hevex hlegal, if_pos hon]
        exact .inr ⟨a, evexActive_of_src3_error _ h3⟩
    case false =>
      rcases evexMaskedOff_cases o s with ⟨a, -, hfault⟩ | ⟨hnone, -⟩
      · rw [exec_evex, evexFrame_of_ready _ hevex hlegal, hon]
        exact .inr ⟨a, hfault⟩
      · exact .inl ⟨_, exec_evex_of_maskedOff form hevex hlegal hon hnone⟩

end Sys2Proof.Machine
